-- ==== Sys2Proof/Word.lean ====
section
/-! DEFINITION. The widths the spec fixes (spec/00_scope.md R5, spec/30_encoding.md R90). -/

namespace Sys2Proof

/-- One byte of semaphore memory (spec/20_memory.md R60). -/
abbrev Byte := BitVec 8

/-- One slot of the register file, one method argument, one syncpoint counter (R5, R6). -/
abbrev Word := BitVec 32

/-- A 40-bit semaphore memory address (`ADDR_W`, R5). -/
abbrev Address := BitVec 40

/-- The number of an aligned 4-byte word of memory, bits 39:2 of its address
(spec/20_memory.md R73). -/
abbrev WordNumber := BitVec 38

/-- A slot number 0..63, the width of the diagnostic port's `peek_index` (spec/10_state.md R52). -/
abbrev SlotIndex := BitVec 6

/-- A method index, 12 bits wide (`IDX_W`, R5). -/
abbrev MethodIndex := BitVec 12

/-- A syncpoint number, 12 bits wide (`SYNCPT_IDX_W`, R5). -/
abbrev SyncptIndex := BitVec 12

/-- One method transaction `M = index ‖ argument`, 44 bits (spec/30_encoding.md R90). -/
abbrev Method := BitVec 44

end Sys2Proof
end

