-- ==== Sys2Proof/Config.lean ====
section
/-! DEFINITION. What an implementation fixes: the slot map, the parameters of spec/00_scope.md R5,
the contents of the outside world at launch, and the free values (constants with no body). -/

namespace Sys2Proof

/-! ## The slot map (spec/10_state.md R22) -/

def Slot.setObject : SlotIndex := 0
def Slot.illegal : SlotIndex := 1
def Slot.nop : SlotIndex := 2
def Slot.semaphoreA : SlotIndex := 4
def Slot.semaphoreB : SlotIndex := 5
def Slot.semaphoreC : SlotIndex := 6
def Slot.semaphoreD : SlotIndex := 7
def Slot.nonStallInterrupt : SlotIndex := 8
def Slot.fbFlush : SlotIndex := 9
def Slot.memOpC : SlotIndex := 12
def Slot.memOpD : SlotIndex := 13
def Slot.setReference : SlotIndex := 20
def Slot.syncpointA : SlotIndex := 28
def Slot.syncpointB : SlotIndex := 29
def Slot.wfi : SlotIndex := 30
def Slot.crcCheck : SlotIndex := 31
def Slot.yield : SlotIndex := 32

/-- The 17 named slots, in ascending order (R22, R23). -/
def namedSlots : List SlotIndex :=
  [Slot.setObject, Slot.illegal, Slot.nop, Slot.semaphoreA, Slot.semaphoreB, Slot.semaphoreC,
   Slot.semaphoreD, Slot.nonStallInterrupt, Slot.fbFlush, Slot.memOpC, Slot.memOpD,
   Slot.setReference, Slot.syncpointA, Slot.syncpointB, Slot.wfi, Slot.crcCheck, Slot.yield]

/-- `REG_COUNT` (R5, R20). -/
def regCount : Nat := 64

/-! ## Parameters (spec/00_scope.md R5) -/

/-- The order of the AcqGeq comparison, `ACQ_GEQ_ORDER` (spec/42_semaphore.md R161, D8). -/
inductive AcqGeqOrder where
  | unsigned
  | signed
  | circular
  deriving DecidableEq, Repr

/-- The OPEN parameters of R5 that a rule of the unit reads. They are fixed for a machine: no step
changes them. A statement that holds for every state holds for every value of them. -/
structure Params where
  /-- `NUM_SYNCPT`, 1 to 4096 (spec/44_syncpoint.md R212, D20). -/
  numSyncpt : Nat
  /-- `ACQ_GEQ_ORDER` (R161, D8). -/
  acqGeqOrder : AcqGeqOrder
  /-- `WAIT_DIS_BLOCKS`, which has no default (R215, D21). -/
  waitDisBlocks : Bool
  deriving DecidableEq, Repr

/-- The spec's default of `NUM_SYNCPT` (R5). -/
def Config.defaultNumSyncpt : Nat := 4096

/-- The spec's default of `ACQ_GEQ_ORDER` (R5). -/
def Config.defaultAcqGeqOrder : AcqGeqOrder := .unsigned

/-- FREE VALUE (log 4): the value of `WAIT_DIS_BLOCKS` in the machine after reset. R5 gives it no
default and R215 asks a claim to hold for both values; it has no body, so nothing can be proved of it. -/
opaque Config.waitDisBlocks : Bool

/-! ## Free values -/

/-- FREE VALUE (log 3): the n-th value of `draw_64()`, "chosen by the environment under no law"
(R7, spec/20_memory.md R67). It has no body, so nothing can be proved of it. -/
opaque Config.timestamp : Nat → BitVec 64

/-! ## The outside world at launch (spec/70_reset_and_hazards.md R292) -/

/-- FREE VALUE (log 1): the bytes of semaphore memory at launch, each with its address; the others
read `Config.unlistedByte`. R292 gives no launch contents and forbids assuming any; it has no body,
so nothing can be proved of it. -/
opaque Config.launchBytes : List (Address × Byte)

/-- FREE VALUE (log 2): the counters of the bank at launch, each with its number; the others read
`Config.unlistedCounter`. R292 gives no launch values and forbids assuming any; it has no body, so
nothing can be proved of it. -/
opaque Config.launchCounters : List (SyncptIndex × Word)

/-- DESIGN CHOICE (log 1): what a byte that the memory's list does not hold reads as. A finite list
of exceptions from it holds any contents, so nothing is assumed of the launch. -/
def Config.unlistedByte : Byte := 0

/-- DESIGN CHOICE (log 2): what a counter that the bank's list does not hold reads as. -/
def Config.unlistedCounter : Word := 0

end Sys2Proof
end

