-- ==== Sys2Proof/Syntax.lean ====
section
/-! DEFINITION. The methods of the unit: one constructor of `Instr` for each of the 33 mnemonics of
spec/opcode_table.json (spec/30_encoding.md R94). An operand is a field of the argument
(spec/10_state.md R24 to R37) or a run of pad bits: pad bits change no action, but the whole
argument is stored (R39), so no bit of it is dropped. -/

namespace Sys2Proof

/-! ## Field types (spec/10_state.md R28 to R36; members in ascending numeric value) -/

/-- `acquireSwitch` (R28) and `waitSwitch` (R33): Disabled = 0, Enabled = 1. -/
inductive Switch where
  | disabled
  | enabled
  deriving DecidableEq, Repr

/-- `releaseWfi` (R28): Enabled = 0, Disabled = 1. -/
inductive ReleaseWfi where
  | enabled
  | disabled
  deriving DecidableEq, Repr

/-- `releaseSize` (R28): SixteenBytes = 0, FourBytes = 1. -/
inductive ReleaseSize where
  | sixteenBytes
  | fourBytes
  deriving DecidableEq, Repr

/-- `format` (R28): Signed = 0, Unsigned = 1. -/
inductive Format where
  | signed
  | unsigned
  deriving DecidableEq, Repr

/-- The eight defined values of `reduction` (R28): Min = 0 to Dec = 7. -/
inductive ReductionOp where
  | min
  | max
  | xor
  | and
  | or
  | add
  | inc
  | dec
  deriving DecidableEq, Repr

/-- `tlbInvalidatePdb` (R29): One = 0, All = 1. -/
inductive TlbScope where
  | one
  | all
  deriving DecidableEq, Repr

/-- `scope` of WFI (R34): CurrentScgType = 0, All = 1. -/
inductive WfiScope where
  | currentScgType
  | all
  deriving DecidableEq, Repr

/-- `op` of YIELD (R36): Nop = 0, PbdmaTimeslice = 1, RunlistTimeslice = 2, Tsg = 3. -/
inductive YieldOp where
  | nop
  | pbdmaTimeslice
  | runlistTimeslice
  | tsg
  deriving DecidableEq, Repr

/-- The fields of a SEMAPHORE_D argument beside `operation` and `reduction`, and its pads (R28). -/
structure SemControl where
  /-- bits 11:5 -/
  padLow : BitVec 7
  /-- bit 12 -/
  acquireSwitch : Switch
  /-- bits 19:13 -/
  padMid : BitVec 7
  /-- bit 20 -/
  releaseWfi : ReleaseWfi
  /-- bits 23:21 -/
  padHigh : BitVec 3
  /-- bit 24 -/
  releaseSize : ReleaseSize
  /-- bits 26:25 -/
  padTop : BitVec 2
  /-- bit 31 -/
  format : Format
  deriving DecidableEq, Repr

/-- The fields of a SYNCPOINT_B argument beside `operation` and `waitSwitch`, and its pads (R33). -/
structure SyncptControl where
  /-- bits 3:1 -/
  padLow : BitVec 3
  /-- bits 7:5 -/
  padMid : BitVec 3
  /-- bits 19:8 -/
  index : SyncptIndex
  /-- bits 31:20 -/
  padHigh : BitVec 12
  deriving DecidableEq, Repr

/-! ## The methods -/

/-- One method, by mnemonic. The rules named are those of the method's meaning. -/
inductive Instr where
  /-- SET_OBJECT, slot 0 (R140); pad is bits 31:21. -/
  | setObject (nvClass : BitVec 16) (engine : BitVec 5) (pad : BitVec 11)
  /-- ILLEGAL, slot 1 (R141). -/
  | illegal (arg : Word)
  /-- NOP, slot 2 (R142). -/
  | nop (arg : Word)
  /-- SEMAPHORE_A, slot 4 (R150); pad is bits 31:8. -/
  | semaphoreA (offsetUpper : BitVec 8) (pad : BitVec 24)
  /-- SEMAPHORE_B, slot 5 (R151); pad is bits 1:0. -/
  | semaphoreB (offsetLower : BitVec 30) (pad : BitVec 2)
  /-- SEMAPHORE_C, slot 6 (R152). -/
  | semaphoreC (payload : Word)
  /-- SEM_ACQUIRE, slot 7, operation 1 (R160). -/
  | semAcquire (reduction : ReductionOp) (control : SemControl)
  /-- SEM_RELEASE, slot 7, operation 2 (R165). -/
  | semRelease (reduction : ReductionOp) (control : SemControl)
  /-- SEM_ACQ_GEQ, slot 7, operation 4 (R161). -/
  | semAcqGeq (reduction : ReductionOp) (control : SemControl)
  /-- SEM_ACQ_AND, slot 7, operation 8 (R162). -/
  | semAcqAnd (reduction : ReductionOp) (control : SemControl)
  /-- SEM_RED_MIN, slot 7, operation 16, reduction 0 (R170). -/
  | semRedMin (control : SemControl)
  /-- SEM_RED_MAX, slot 7, operation 16, reduction 1 (R171). -/
  | semRedMax (control : SemControl)
  /-- SEM_RED_XOR, slot 7, operation 16, reduction 2 (R172). -/
  | semRedXor (control : SemControl)
  /-- SEM_RED_AND, slot 7, operation 16, reduction 3 (R173). -/
  | semRedAnd (control : SemControl)
  /-- SEM_RED_OR, slot 7, operation 16, reduction 4 (R174). -/
  | semRedOr (control : SemControl)
  /-- SEM_RED_ADD, slot 7, operation 16, reduction 5 (R175). -/
  | semRedAdd (control : SemControl)
  /-- SEM_RED_INC, slot 7, operation 16, reduction 6 (R176). -/
  | semRedInc (control : SemControl)
  /-- SEM_RED_DEC, slot 7, operation 16, reduction 7 (R177). -/
  | semRedDec (control : SemControl)
  /-- SEM_RESERVED, slot 7, reserved operation or reduction (R155). -/
  | semReserved (operation : BitVec 5) (reduction : BitVec 4) (control : SemControl)
  /-- NON_STALL_INTERRUPT, slot 8 (R190). -/
  | nonStallInterrupt (arg : Word)
  /-- FB_FLUSH, slot 9 (R191). -/
  | fbFlush (arg : Word)
  /-- MEM_OP_C, slot 12 (R192); rest is bits 31:1. -/
  | memOpC (tlbInvalidatePdb : TlbScope) (rest : BitVec 31)
  /-- MEM_OP_D, slot 13 (R193). -/
  | memOpD (arg : Word)
  /-- SET_REFERENCE, slot 20 (R194). -/
  | setReference (reference : Word)
  /-- SYNCPOINT_A, slot 28 (R210). -/
  | syncpointA (payload : Word)
  /-- SYNCPT_WAIT, slot 29, operation 0, waitSwitch 1 (R214). -/
  | syncptWait (control : SyncptControl)
  /-- SYNCPT_WAIT_NOSWITCH, slot 29, operation 0, waitSwitch 0 (R215). -/
  | syncptWaitNoswitch (control : SyncptControl)
  /-- SYNCPT_INCR, slot 29, operation 1 (R213). -/
  | syncptIncr (waitSwitch : Switch) (control : SyncptControl)
  /-- WFI, slot 30 (R230); pad is bits 31:1. -/
  | wfi (scope : WfiScope) (pad : BitVec 31)
  /-- CRC_CHECK, slot 31 (R231). -/
  | crcCheck (crc : Word)
  /-- YIELD, slot 32 (R232); pad is bits 31:2. -/
  | yield (op : YieldOp) (pad : BitVec 30)
  /-- UNIMPL, one of the 47 slots with no named view (R125). -/
  | unimpl (slot : SlotIndex) (arg : Word)
  /-- OOR, a method index of 64 or above (R121). -/
  | oor (index : MethodIndex) (arg : Word)
  deriving DecidableEq, Repr

end Sys2Proof
end

