-- ==== Sys2Proof/WellFormed.lean ====
section
/-! DEFINITION. Which terms of `Instr` are methods: three constructors carry an operand that another
mnemonic may own (spec/30_encoding.md R94); every other term is a method. -/

namespace Sys2Proof

/-- The slot has no row in the slot map: one of the 47 slots of spec/10_state.md R38. -/
def slotUnimplemented (i : SlotIndex) : Bool := !(namedSlots.contains i)

/-- The five defined values of `operation` (R28). -/
def operationDefined (op : BitVec 5) : Bool :=
  op == 1 || op == 2 || op == 4 || op == 8 || op == 16

/-- The eight defined values of `reduction` (R28): bit 30 of the argument is 0. -/
def reductionDefined (red : BitVec 4) : Bool := red.toNat < 8

/-- A reserved control encoding (spec/30_encoding.md R95): the operation or the reduction is reserved. -/
def controlReserved (op : BitVec 5) (red : BitVec 4) : Bool :=
  !(operationDefined op) || !(reductionDefined red)

/-- An index no slot has (spec/40_dispatch.md R121). -/
def indexOutOfRange (i : MethodIndex) : Bool := regCount ≤ i.toNat

/-- The term is a method of the opcode map (R94). -/
def Instr.wellFormed : Instr → Bool
  | .semReserved op red _ => controlReserved op red
  | .unimpl slot _ => slotUnimplemented slot
  | .oor index _ => indexOutOfRange index
  | .setObject .. | .illegal _ | .nop _ | .semaphoreA .. | .semaphoreB .. | .semaphoreC _
  | .semAcquire .. | .semRelease .. | .semAcqGeq .. | .semAcqAnd ..
  | .semRedMin _ | .semRedMax _ | .semRedXor _ | .semRedAnd _
  | .semRedOr _ | .semRedAdd _ | .semRedInc _ | .semRedDec _
  | .nonStallInterrupt _ | .fbFlush _ | .memOpC .. | .memOpD _ | .setReference _
  | .syncpointA _ | .syncptWait _ | .syncptWaitNoswitch _ | .syncptIncr ..
  | .wfi .. | .crcCheck _ | .yield .. => true

end Sys2Proof
end

