-- ==== Sys2Proof/Decode.lean ====
section
/-! DEFINITION. From a method transaction to a method and back (spec/30_encoding.md R90 to R95,
spec/10_state.md R22, R24 to R37), and the opcode table as match and mask rows (R94).
`x.extractLsb' lo n` is the field of `n` bits whose lowest bit is `lo`. -/

namespace Sys2Proof

/-! ## One-bit and two-bit fields -/

def Switch.ofBits (b : BitVec 1) : Switch := if b = 0 then .disabled else .enabled

def Switch.toBits : Switch → BitVec 1
  | .disabled => 0
  | .enabled => 1

def ReleaseWfi.ofBits (b : BitVec 1) : ReleaseWfi := if b = 0 then .enabled else .disabled

def ReleaseWfi.toBits : ReleaseWfi → BitVec 1
  | .enabled => 0
  | .disabled => 1

def ReleaseSize.ofBits (b : BitVec 1) : ReleaseSize :=
  if b = 0 then .sixteenBytes else .fourBytes

def ReleaseSize.toBits : ReleaseSize → BitVec 1
  | .sixteenBytes => 0
  | .fourBytes => 1

def Format.ofBits (b : BitVec 1) : Format := if b = 0 then .signed else .unsigned

def Format.toBits : Format → BitVec 1
  | .signed => 0
  | .unsigned => 1

def TlbScope.ofBits (b : BitVec 1) : TlbScope := if b = 0 then .one else .all

def TlbScope.toBits : TlbScope → BitVec 1
  | .one => 0
  | .all => 1

def WfiScope.ofBits (b : BitVec 1) : WfiScope := if b = 0 then .currentScgType else .all

def WfiScope.toBits : WfiScope → BitVec 1
  | .currentScgType => 0
  | .all => 1

def YieldOp.ofBits (b : BitVec 2) : YieldOp :=
  if b = 0 then .nop
  else if b = 1 then .pbdmaTimeslice
  else if b = 2 then .runlistTimeslice
  else .tsg

def YieldOp.toBits : YieldOp → BitVec 2
  | .nop => 0
  | .pbdmaTimeslice => 1
  | .runlistTimeslice => 2
  | .tsg => 3

/-- The `reduction` field; `none` for the reserved values 8 to 15 (R28, R95). -/
def ReductionOp.ofBits (b : BitVec 4) : Option ReductionOp :=
  if b = 0 then some .min
  else if b = 1 then some .max
  else if b = 2 then some .xor
  else if b = 3 then some .and
  else if b = 4 then some .or
  else if b = 5 then some .add
  else if b = 6 then some .inc
  else if b = 7 then some .dec
  else none

def ReductionOp.toBits : ReductionOp → BitVec 4
  | .min => 0
  | .max => 1
  | .xor => 2
  | .and => 3
  | .or => 4
  | .add => 5
  | .inc => 6
  | .dec => 7

/-! ## Arguments assembled from their fields (spec/10_state.md R24 to R36) -/

/-- A field with its lowest bit at `lo` in a vector of `w` bits, every other bit 0. -/
def place {n : Nat} (w lo : Nat) (x : BitVec n) : BitVec w := x.setWidth w <<< lo

/-- R24. -/
def setObjectWord (nvClass : BitVec 16) (engine : BitVec 5) (pad : BitVec 11) : Word :=
  place 32 0 nvClass ||| place 32 16 engine ||| place 32 21 pad

/-- R25. -/
def semaphoreAWord (offsetUpper : BitVec 8) (pad : BitVec 24) : Word :=
  place 32 0 offsetUpper ||| place 32 8 pad

/-- R26. -/
def semaphoreBWord (offsetLower : BitVec 30) (pad : BitVec 2) : Word :=
  place 32 0 pad ||| place 32 2 offsetLower

/-- R28. -/
def semaphoreDWord (operation : BitVec 5) (reduction : BitVec 4) (c : SemControl) : Word :=
  place 32 0 operation ||| place 32 5 c.padLow ||| place 32 12 c.acquireSwitch.toBits |||
    place 32 13 c.padMid ||| place 32 20 c.releaseWfi.toBits ||| place 32 21 c.padHigh |||
    place 32 24 c.releaseSize.toBits ||| place 32 25 c.padTop ||| place 32 27 reduction |||
    place 32 31 c.format.toBits

/-- R29. -/
def memOpCWord (tlbInvalidatePdb : TlbScope) (rest : BitVec 31) : Word :=
  place 32 0 tlbInvalidatePdb.toBits ||| place 32 1 rest

/-- R33; `operation` is Wait = 0, Incr = 1. -/
def syncpointBWord (operation : BitVec 1) (waitSwitch : Switch) (c : SyncptControl) : Word :=
  place 32 0 operation ||| place 32 1 c.padLow ||| place 32 4 waitSwitch.toBits |||
    place 32 5 c.padMid ||| place 32 8 c.index ||| place 32 20 c.padHigh

/-- R34. -/
def wfiWord (scope : WfiScope) (pad : BitVec 31) : Word :=
  place 32 0 scope.toBits ||| place 32 1 pad

/-- R36. -/
def yieldWord (op : YieldOp) (pad : BitVec 30) : Word :=
  place 32 0 op.toBits ||| place 32 2 pad

/-- The values of `operation` in SEMAPHORE_D (R28). -/
def opAcquire : BitVec 5 := 1
def opRelease : BitVec 5 := 2
def opAcqGeq : BitVec 5 := 4
def opAcqAnd : BitVec 5 := 8
def opReduction : BitVec 5 := 16

/-- The values of `operation` in SYNCPOINT_B (R33). -/
def opWait : BitVec 1 := 0
def opIncr : BitVec 1 := 1

/-! ## Decoding (R91) -/

/-- The fields of a SEMAPHORE_D argument beside operation and reduction (R28). -/
def SemControl.ofWord (arg : Word) : SemControl where
  padLow := arg.extractLsb' 5 7
  acquireSwitch := Switch.ofBits (arg.extractLsb' 12 1)
  padMid := arg.extractLsb' 13 7
  releaseWfi := ReleaseWfi.ofBits (arg.extractLsb' 20 1)
  padHigh := arg.extractLsb' 21 3
  releaseSize := ReleaseSize.ofBits (arg.extractLsb' 24 1)
  padTop := arg.extractLsb' 25 2
  format := Format.ofBits (arg.extractLsb' 31 1)

/-- The fields of a SYNCPOINT_B argument beside operation and waitSwitch (R33). -/
def SyncptControl.ofWord (arg : Word) : SyncptControl where
  padLow := arg.extractLsb' 1 3
  padMid := arg.extractLsb' 5 3
  index := arg.extractLsb' 8 12
  padHigh := arg.extractLsb' 20 12

/-- The method of a `Reduction` (R94). -/
def reductionMethod (red : ReductionOp) (c : SemControl) : Instr :=
  match red with
  | .min => .semRedMin c
  | .max => .semRedMax c
  | .xor => .semRedXor c
  | .and => .semRedAnd c
  | .or => .semRedOr c
  | .add => .semRedAdd c
  | .inc => .semRedInc c
  | .dec => .semRedDec c

/-- Stage 3 at slot 7 (R91, R94, R95): the reserved check covers both fields, whatever the operation. -/
def decodeSemaphoreD (arg : Word) : Instr :=
  let op : BitVec 5 := arg.extractLsb' 0 5
  let red : BitVec 4 := arg.extractLsb' 27 4
  let c := SemControl.ofWord arg
  match ReductionOp.ofBits red with
  | none => .semReserved op red c
  | some r =>
    if op = opAcquire then .semAcquire r c
    else if op = opRelease then .semRelease r c
    else if op = opAcqGeq then .semAcqGeq r c
    else if op = opAcqAnd then .semAcqAnd r c
    else if op = opReduction then reductionMethod r c
    else .semReserved op red c

/-- Stage 3 at slot 29 (R91, R94). -/
def decodeSyncpointB (arg : Word) : Instr :=
  let c := SyncptControl.ofWord arg
  let sw := Switch.ofBits (arg.extractLsb' 4 1)
  if arg.extractLsb' 0 1 = opIncr then .syncptIncr sw c
  else match sw with
    | .enabled => .syncptWait c
    | .disabled => .syncptWaitNoswitch c

/-- Stage 2 (R91): the slot map of spec/10_state.md R22. -/
def decodeSlot (i : SlotIndex) (arg : Word) : Instr :=
  if i = Slot.setObject then
    .setObject (arg.extractLsb' 0 16) (arg.extractLsb' 16 5) (arg.extractLsb' 21 11)
  else if i = Slot.illegal then .illegal arg
  else if i = Slot.nop then .nop arg
  else if i = Slot.semaphoreA then .semaphoreA (arg.extractLsb' 0 8) (arg.extractLsb' 8 24)
  else if i = Slot.semaphoreB then .semaphoreB (arg.extractLsb' 2 30) (arg.extractLsb' 0 2)
  else if i = Slot.semaphoreC then .semaphoreC arg
  else if i = Slot.semaphoreD then decodeSemaphoreD arg
  else if i = Slot.nonStallInterrupt then .nonStallInterrupt arg
  else if i = Slot.fbFlush then .fbFlush arg
  else if i = Slot.memOpC then
    .memOpC (TlbScope.ofBits (arg.extractLsb' 0 1)) (arg.extractLsb' 1 31)
  else if i = Slot.memOpD then .memOpD arg
  else if i = Slot.setReference then .setReference arg
  else if i = Slot.syncpointA then .syncpointA arg
  else if i = Slot.syncpointB then decodeSyncpointB arg
  else if i = Slot.wfi then .wfi (WfiScope.ofBits (arg.extractLsb' 0 1)) (arg.extractLsb' 1 31)
  else if i = Slot.crcCheck then .crcCheck arg
  else if i = Slot.yield then .yield (YieldOp.ofBits (arg.extractLsb' 0 2)) (arg.extractLsb' 2 30)
  else .unimpl i arg

/-- The index field of a transaction (R90). -/
def Method.index (m : Method) : MethodIndex := m.extractLsb' 32 12

/-- The argument field of a transaction (R90). -/
def Method.argument (m : Method) : Word := m.extractLsb' 0 32

/-- The decoder, total on all 2^44 transactions (R91): stage 1 is the range check. -/
def decode (m : Method) : Instr :=
  if regCount ≤ (Method.index m).toNat then .oor (Method.index m) (Method.argument m)
  else decodeSlot ((Method.index m).setWidth 6) (Method.argument m)

/-- Why a number is no transaction. -/
inductive NotAMethod where
  /-- A bit above bit 43 is set: the method port has no such wire (R51, R90). -/
  | tooWide
  deriving DecidableEq, Repr

/-- The decoder on any number: a transaction has bits 43:0 only (R90, log 15). -/
def decodeNumber (w : Nat) : Except NotAMethod Instr :=
  if w < 2 ^ 44 then .ok (decode (BitVec.ofNat 44 w)) else .error .tooWide

/-- The method the decoder reads from the low `nbits` bits of `w`, numbered as
spec/opcode_table.json numbers them (bit 43 the top bit of the index, bit 0 the lowest of the
argument); `none` where a bit above 43 is set. -/
def decodeTableWord (nbits w : Nat) : Option Instr :=
  match decodeNumber (w % 2 ^ nbits) with
  | .ok i => some i
  | .error _ => none

/-! ## Encoding -/

/-- A slot number as a method index (R91). -/
def slotMethodIndex (i : SlotIndex) : MethodIndex := i.setWidth 12

/-- The method index of a method (R94). -/
def Instr.index : Instr → MethodIndex
  | .setObject .. => slotMethodIndex Slot.setObject
  | .illegal _ => slotMethodIndex Slot.illegal
  | .nop _ => slotMethodIndex Slot.nop
  | .semaphoreA .. => slotMethodIndex Slot.semaphoreA
  | .semaphoreB .. => slotMethodIndex Slot.semaphoreB
  | .semaphoreC _ => slotMethodIndex Slot.semaphoreC
  | .semAcquire .. | .semRelease .. | .semAcqGeq .. | .semAcqAnd ..
  | .semRedMin _ | .semRedMax _ | .semRedXor _ | .semRedAnd _
  | .semRedOr _ | .semRedAdd _ | .semRedInc _ | .semRedDec _
  | .semReserved .. => slotMethodIndex Slot.semaphoreD
  | .nonStallInterrupt _ => slotMethodIndex Slot.nonStallInterrupt
  | .fbFlush _ => slotMethodIndex Slot.fbFlush
  | .memOpC .. => slotMethodIndex Slot.memOpC
  | .memOpD _ => slotMethodIndex Slot.memOpD
  | .setReference _ => slotMethodIndex Slot.setReference
  | .syncpointA _ => slotMethodIndex Slot.syncpointA
  | .syncptWait _ | .syncptWaitNoswitch _ | .syncptIncr .. => slotMethodIndex Slot.syncpointB
  | .wfi .. => slotMethodIndex Slot.wfi
  | .crcCheck _ => slotMethodIndex Slot.crcCheck
  | .yield .. => slotMethodIndex Slot.yield
  | .unimpl slot _ => slotMethodIndex slot
  | .oor index _ => index

/-- The argument of a method, all 32 bits (R24 to R37). -/
def Instr.argument : Instr → Word
  | .setObject c e p => setObjectWord c e p
  | .illegal a | .nop a | .semaphoreC a | .nonStallInterrupt a | .fbFlush a | .memOpD a
  | .setReference a | .syncpointA a | .crcCheck a | .unimpl _ a | .oor _ a => a
  | .semaphoreA u p => semaphoreAWord u p
  | .semaphoreB l p => semaphoreBWord l p
  | .semAcquire r c => semaphoreDWord opAcquire r.toBits c
  | .semRelease r c => semaphoreDWord opRelease r.toBits c
  | .semAcqGeq r c => semaphoreDWord opAcqGeq r.toBits c
  | .semAcqAnd r c => semaphoreDWord opAcqAnd r.toBits c
  | .semRedMin c => semaphoreDWord opReduction ReductionOp.min.toBits c
  | .semRedMax c => semaphoreDWord opReduction ReductionOp.max.toBits c
  | .semRedXor c => semaphoreDWord opReduction ReductionOp.xor.toBits c
  | .semRedAnd c => semaphoreDWord opReduction ReductionOp.and.toBits c
  | .semRedOr c => semaphoreDWord opReduction ReductionOp.or.toBits c
  | .semRedAdd c => semaphoreDWord opReduction ReductionOp.add.toBits c
  | .semRedInc c => semaphoreDWord opReduction ReductionOp.inc.toBits c
  | .semRedDec c => semaphoreDWord opReduction ReductionOp.dec.toBits c
  | .semReserved op red c => semaphoreDWord op red c
  | .memOpC s r => memOpCWord s r
  | .syncptWait c => syncpointBWord opWait .enabled c
  | .syncptWaitNoswitch c => syncpointBWord opWait .disabled c
  | .syncptIncr sw c => syncpointBWord opIncr sw c
  | .wfi s p => wfiWord s p
  | .yield o p => yieldWord o p

/-- The transaction of a method: `M = index ‖ argument` (R90). -/
def encode (i : Instr) : Method := place 44 32 i.index ||| place 44 0 i.argument

/-! ## The opcode table (R94, R95; spec/opcode_table.json) -/

/-- The mnemonic of a method, as spec/opcode_table.json spells it. -/
def Instr.mnemonic : Instr → String
  | .setObject .. => "SET_OBJECT"
  | .illegal _ => "ILLEGAL"
  | .nop _ => "NOP"
  | .semaphoreA .. => "SEMAPHORE_A"
  | .semaphoreB .. => "SEMAPHORE_B"
  | .semaphoreC _ => "SEMAPHORE_C"
  | .semAcquire .. => "SEM_ACQUIRE"
  | .semRelease .. => "SEM_RELEASE"
  | .semAcqGeq .. => "SEM_ACQ_GEQ"
  | .semAcqAnd .. => "SEM_ACQ_AND"
  | .semRedMin _ => "SEM_RED_MIN"
  | .semRedMax _ => "SEM_RED_MAX"
  | .semRedXor _ => "SEM_RED_XOR"
  | .semRedAnd _ => "SEM_RED_AND"
  | .semRedOr _ => "SEM_RED_OR"
  | .semRedAdd _ => "SEM_RED_ADD"
  | .semRedInc _ => "SEM_RED_INC"
  | .semRedDec _ => "SEM_RED_DEC"
  | .semReserved .. => "SEM_RESERVED"
  | .nonStallInterrupt _ => "NON_STALL_INTERRUPT"
  | .fbFlush _ => "FB_FLUSH"
  | .memOpC .. => "MEM_OP_C"
  | .memOpD _ => "MEM_OP_D"
  | .setReference _ => "SET_REFERENCE"
  | .syncpointA _ => "SYNCPOINT_A"
  | .syncptWait _ => "SYNCPT_WAIT"
  | .syncptWaitNoswitch _ => "SYNCPT_WAIT_NOSWITCH"
  | .syncptIncr .. => "SYNCPT_INCR"
  | .wfi .. => "WFI"
  | .crcCheck _ => "CRC_CHECK"
  | .yield .. => "YIELD"
  | .unimpl .. => "UNIMPL"
  | .oor .. => "OOR"

/-- One row of the opcode table: a transaction `m` selects it when `m &&& mask = pattern` (R94). -/
structure OpcodeRow where
  mnemonic : String
  pattern : Method
  mask : Method
  deriving DecidableEq, Repr

def OpcodeRow.selects (r : OpcodeRow) (m : Method) : Bool := m &&& r.mask == r.pattern

/-- The rows that look at the index alone (R94). -/
def opcodeRowsByIndex : List OpcodeRow :=
  [⟨"SET_OBJECT", 0x00000000000, 0xFFF00000000⟩, ⟨"ILLEGAL", 0x00100000000, 0xFFF00000000⟩,
   ⟨"NOP", 0x00200000000, 0xFFF00000000⟩, ⟨"SEMAPHORE_A", 0x00400000000, 0xFFF00000000⟩,
   ⟨"SEMAPHORE_B", 0x00500000000, 0xFFF00000000⟩, ⟨"SEMAPHORE_C", 0x00600000000, 0xFFF00000000⟩,
   ⟨"NON_STALL_INTERRUPT", 0x00800000000, 0xFFF00000000⟩,
   ⟨"FB_FLUSH", 0x00900000000, 0xFFF00000000⟩, ⟨"MEM_OP_C", 0x00C00000000, 0xFFF00000000⟩,
   ⟨"MEM_OP_D", 0x00D00000000, 0xFFF00000000⟩, ⟨"SET_REFERENCE", 0x01400000000, 0xFFF00000000⟩,
   ⟨"SYNCPOINT_A", 0x01C00000000, 0xFFF00000000⟩, ⟨"WFI", 0x01E00000000, 0xFFF00000000⟩,
   ⟨"CRC_CHECK", 0x01F00000000, 0xFFF00000000⟩, ⟨"YIELD", 0x02000000000, 0xFFF00000000⟩]

/-- The rows of slot 7 with a defined operation (R94). -/
def opcodeRowsSemaphore : List OpcodeRow :=
  [⟨"SEM_ACQUIRE", 0x00700000001, 0xFFF4000001F⟩, ⟨"SEM_RELEASE", 0x00700000002, 0xFFF4000001F⟩,
   ⟨"SEM_ACQ_GEQ", 0x00700000004, 0xFFF4000001F⟩, ⟨"SEM_ACQ_AND", 0x00700000008, 0xFFF4000001F⟩,
   ⟨"SEM_RED_MIN", 0x00700000010, 0xFFF7800001F⟩, ⟨"SEM_RED_MAX", 0x00708000010, 0xFFF7800001F⟩,
   ⟨"SEM_RED_XOR", 0x00710000010, 0xFFF7800001F⟩, ⟨"SEM_RED_AND", 0x00718000010, 0xFFF7800001F⟩,
   ⟨"SEM_RED_OR", 0x00720000010, 0xFFF7800001F⟩, ⟨"SEM_RED_ADD", 0x00728000010, 0xFFF7800001F⟩,
   ⟨"SEM_RED_INC", 0x00730000010, 0xFFF7800001F⟩, ⟨"SEM_RED_DEC", 0x00738000010, 0xFFF7800001F⟩]

/-- The 28 rows of SEM_RESERVED (R95): one for a reserved reduction, one for each of the 27 reserved
operations with a defined reduction. -/
def opcodeRowsReserved : List OpcodeRow :=
  ⟨"SEM_RESERVED", 0x00740000000, 0xFFF40000000⟩ ::
  ([0, 3, 5, 6, 7, 9, 10, 11, 12, 13, 14, 15, 17, 18, 19, 20, 21, 22, 23, 24, 25, 26, 27, 28, 29,
    30, 31].map fun op =>
      ⟨"SEM_RESERVED", BitVec.ofNat 44 (0x00700000000 + op), 0xFFF4000001F⟩)

/-- The rows of slot 29 (R94). -/
def opcodeRowsSyncpoint : List OpcodeRow :=
  [⟨"SYNCPT_WAIT", 0x01D00000010, 0xFFF00000011⟩,
   ⟨"SYNCPT_WAIT_NOSWITCH", 0x01D00000000, 0xFFF00000011⟩,
   ⟨"SYNCPT_INCR", 0x01D00000001, 0xFFF00000001⟩]

/-- The 12 rows of UNIMPL and the 6 rows of OOR (R94). -/
def opcodeRowsOther : List OpcodeRow :=
  [⟨"UNIMPL", 0x00300000000, 0xFFF00000000⟩, ⟨"UNIMPL", 0x00A00000000, 0xFFE00000000⟩,
   ⟨"UNIMPL", 0x00E00000000, 0xFFE00000000⟩, ⟨"UNIMPL", 0x01000000000, 0xFFC00000000⟩,
   ⟨"UNIMPL", 0x01500000000, 0xFFF00000000⟩, ⟨"UNIMPL", 0x01600000000, 0xFFE00000000⟩,
   ⟨"UNIMPL", 0x01800000000, 0xFFC00000000⟩, ⟨"UNIMPL", 0x02100000000, 0xFFF00000000⟩,
   ⟨"UNIMPL", 0x02200000000, 0xFFE00000000⟩, ⟨"UNIMPL", 0x02400000000, 0xFFC00000000⟩,
   ⟨"UNIMPL", 0x02800000000, 0xFF800000000⟩, ⟨"UNIMPL", 0x03000000000, 0xFF000000000⟩,
   ⟨"OOR", 0x80000000000, 0x80000000000⟩, ⟨"OOR", 0x40000000000, 0xC0000000000⟩,
   ⟨"OOR", 0x20000000000, 0xE0000000000⟩, ⟨"OOR", 0x10000000000, 0xF0000000000⟩,
   ⟨"OOR", 0x08000000000, 0xF8000000000⟩, ⟨"OOR", 0x04000000000, 0xFC000000000⟩]

/-- The 76 rows of spec/opcode_table.json. -/
def opcodeTable : List OpcodeRow :=
  opcodeRowsByIndex ++ opcodeRowsSemaphore ++ opcodeRowsReserved ++ opcodeRowsSyncpoint ++
    opcodeRowsOther

end Sys2Proof
end

