-- ==== Sys2Proof/Machine/Memory.lean ====
section
/-! DEFINITION. The two shared spaces outside the units: the byte-addressed semaphore memory
(spec/20_memory.md R60(b), R64) and the bank of syncpoint counters (spec/10_state.md R45), each a
list of exceptions from what an unlisted place reads as, in one canonical form. -/

namespace Sys2Proof.Machine

/-! ## Cells: lists of (key, value) pairs -/

/-- What key `a` reads as; `d` where it is not listed. -/
def cellRead {n : Nat} (d : BitVec n) : List (Nat × BitVec n) → Nat → BitVec n
  | [], _ => d
  | c :: m, a => if c.1 = a then c.2 else cellRead d m a

/-- Key `a` no longer listed. -/
def cellErase {n : Nat} (a : Nat) : List (Nat × BitVec n) → List (Nat × BitVec n)
  | [] => []
  | c :: m => if c.1 = a then cellErase a m else c :: cellErase a m

/-- `(a, v)` put before the first larger key. -/
def cellInsert {n : Nat} (a : Nat) (v : BitVec n) : List (Nat × BitVec n) → List (Nat × BitVec n)
  | [] => [(a, v)]
  | c :: m => if a < c.1 then (a, v) :: c :: m else c :: cellInsert a v m

/-- `v` written at key `a`: writing what an unlisted key reads as removes the entry. -/
def cellWrite {n : Nat} (d : BitVec n) (m : List (Nat × BitVec n)) (a : Nat) (v : BitVec n) :
    List (Nat × BitVec n) :=
  if v = d then cellErase a m else cellInsert a v (cellErase a m)

/-- The canonical form: keys strictly rising and below `bound`, no entry equal to `d`. -/
abbrev cellsWf {n : Nat} (d : BitVec n) (bound : Nat) (m : List (Nat × BitVec n)) : Prop :=
  m.Pairwise (fun x y => x.1 < y.1) ∧ ∀ c ∈ m, c.1 < bound ∧ c.2 ≠ d

/-! ## Semaphore memory -/

/-- The bytes that differ from `Config.unlistedByte` (spec/10_state.md R46, log 1). -/
abbrev Memory := List Host.Cell

/-- The canonical form of the memory: addresses below 2^40. -/
abbrev Memory.wf (m : Memory) : Prop := cellsWf Config.unlistedByte (2 ^ 40) m

def Memory.readByte (m : Memory) (a : Address) : Byte := cellRead Config.unlistedByte m a.toNat

def Memory.writeByte (m : Memory) (a : Address) (v : Byte) : Memory :=
  cellWrite Config.unlistedByte m a.toNat v

/-- A 4-byte read, little-endian (R64, log 19). -/
def Memory.readWord (m : Memory) (a : Address) : Word :=
  m.readByte (a + 3) ++ m.readByte (a + 2) ++ m.readByte (a + 1) ++ m.readByte a

/-- A 4-byte write, little-endian (R64). -/
def Memory.writeWord (m : Memory) (a : Address) (v : Word) : Memory :=
  (((m.writeByte a (v.extractLsb' 0 8)).writeByte (a + 1) (v.extractLsb' 8 8)).writeByte
    (a + 2) (v.extractLsb' 16 8)).writeByte (a + 3) (v.extractLsb' 24 8)

/-- The address of an aligned word (R73). -/
def wordAddress (n : WordNumber) : Address := n ++ 0#2

/-- A byte written where its enable is set. -/
def Memory.writeByteIf (m : Memory) (enable : Bool) (a : Address) (v : Byte) : Memory :=
  if enable then m.writeByte a v else m

/-- One access that writes those bytes of an aligned word whose enables are set, bit k for the byte
at distance k (R64, R68(a), R73). -/
def Memory.writeEnabled (m : Memory) (n : WordNumber) (enables : BitVec 4) (v : Word) : Memory :=
  (((m.writeByteIf (enables.getLsbD 0) (wordAddress n) (v.extractLsb' 0 8)).writeByteIf
    (enables.getLsbD 1) (wordAddress n + 1) (v.extractLsb' 8 8)).writeByteIf
    (enables.getLsbD 2) (wordAddress n + 2) (v.extractLsb' 16 8)).writeByteIf
    (enables.getLsbD 3) (wordAddress n + 3) (v.extractLsb' 24 8)

/-- The memory that holds these bytes, the first entry of an address counting, and
`Config.unlistedByte` elsewhere. -/
def Memory.ofBytes : List (Address × Byte) → Memory
  | [] => []
  | (a, v) :: l => (Memory.ofBytes l).writeByte a v

/-! ## The syncpoint bank -/

/-- The counters that differ from `Config.unlistedCounter` (spec/10_state.md R45, log 2). -/
abbrev SyncptBank := List (Nat × Word)

/-- The canonical form of the bank: only counters that exist are listed. -/
abbrev SyncptBank.wf (b : SyncptBank) (numSyncpt : Nat) : Prop :=
  cellsWf Config.unlistedCounter numSyncpt b

/-- `SyncptRead(i)` (R45). -/
def SyncptBank.read (b : SyncptBank) (i : SyncptIndex) : Word :=
  cellRead Config.unlistedCounter b i.toNat

/-- `SyncptIncr(i)`: plus 1 modulo 2^32, one indivisible step (R45, spec/44_syncpoint.md R213). -/
def SyncptBank.incr (b : SyncptBank) (i : SyncptIndex) : SyncptBank :=
  cellWrite Config.unlistedCounter b i.toNat (b.read i + 1)

/-- The bank whose counters have these values, the first entry of a counter counting, and
`Config.unlistedCounter` elsewhere. -/
def SyncptBank.ofCounters : List (SyncptIndex × Word) → SyncptBank
  | [] => []
  | (i, v) :: l => cellWrite Config.unlistedCounter (SyncptBank.ofCounters l) i.toNat v

end Sys2Proof.Machine
end

