-- ==== Sys2Proof/Machine/State.lean ====
section
/-! DEFINITION. Everything the spec gives the machine, as plain data: the channel units
(spec/10_state.md R20, R40, R51), the memory and the counters they share (R45, R46), the event
history (R47), the parameters (spec/00_scope.md R5), and what the agents do next (R8). -/

namespace Sys2Proof.Machine

/-- The control state of a unit (spec/10_state.md R40). -/
inductive Fsm where
  | idle
  | semWait
  | syncptWait
  | fatal
  deriving DecidableEq, Repr

/-- The three kinds of fault the unit reports (spec/60_exceptions.md R250). -/
inductive FaultKind where
  | outOfRangeMethod
  | illegalMethod
  | unsupportedOperation
  deriving DecidableEq, Repr

/-- What an entry of the event history records (spec/10_state.md R47, R53 to R56). -/
inductive EventKind where
  /-- An accepted `Write(index, argument)`. -/
  | write (index : MethodIndex) (argument : Word)
  /-- `MemRead(addr, 4)` with the value returned. -/
  | memRead (addr : Address) (value : Word)
  /-- `MemWrite(addr, n, data, wfi)`: `data` is the words written, lowest address first, so `n` is
  4 times their number (4, 16, or 12 for a trailer). -/
  | memWrite (addr : Address) (data : List Word) (wfi : Bool)
  /-- `MemReduce(addr, op, fmt, payload, wfi)`. -/
  | memReduce (addr : Address) (op : ReductionOp) (fmt : Format) (payload : Word) (wfi : Bool)
  /-- `SyncptIncr(index)`. -/
  | syncptIncr (index : SyncptIndex)
  /-- `SyncptRead(index)` with its result. -/
  | syncptRead (index : SyncptIndex) (value : Word)
  /-- `TlbInvalidate(scope, memOpC, memOpD)`. -/
  | tlbInvalidate (scope : TlbScope) (memOpC memOpD : Word)
  /-- `NonStallInterrupt()`. -/
  | nonStallInterrupt
  /-- `FbFlush()`. -/
  | fbFlush
  /-- `WaitForIdle(scope)`. -/
  | waitForIdle (scope : WfiScope)
  /-- `CrcCheck(value)`. -/
  | crcCheck (value : Word)
  /-- `Yield(op)`. -/
  | yield (op : YieldOp)
  /-- `Fault(kind, index, argument)`, the fault record of R255. -/
  | fault (kind : FaultKind) (index : MethodIndex) (argument : Word)
  /-- The owner's Cancel (spec/60_exceptions.md R262). -/
  | cancel
  /-- The owner's Reset (spec/70_reset_and_hazards.md R290, R291). -/
  | reset
  deriving DecidableEq, Repr

/-- One entry of the event history, tagged with its unit (R47). -/
structure Event where
  chan : Nat
  kind : EventKind
  deriving DecidableEq, Repr

/-- One unit: the block the spec specifies, with the method port of its owner. -/
structure ChannelUnit where
  /-- The number that tags this unit's events (R47); the rules never read it (R269). -/
  chan : Nat
  /-- The register file `raw[0]` to `raw[63]` (R20). -/
  raw : Vector Word 64
  /-- The control state (R40). -/
  fsm : Fsm
  /-- The methods its owner presents, in order; the head is the one on the method port (R51). -/
  port : List Method
  deriving DecidableEq, Repr

/-- One aligned word of a 16-byte or 12-byte write that has been issued and not yet written: only
each word is single-copy atomic (spec/20_memory.md R68(c), R68(d)). -/
structure WordWrite where
  /-- The channel of the unit that issued the write. -/
  chan : Nat
  addr : Address
  value : Word
  deriving DecidableEq, Repr

/-- What an agent other than the moving unit does, or which unit moves (spec/00_scope.md R8). -/
inductive Input where
  /-- The unit of channel `chan` takes its own step: accept, poll or test (R8(a)), or, while words it
  issued are in flight, the oldest of them is written. -/
  | turn (chan : Nat)
  /-- The owner presents a method after those already presented (R51). -/
  | offer (chan : Nat) (m : Method)
  /-- The owner withdraws the method on the port (R51). -/
  | withdraw (chan : Nat)
  /-- The owner's Cancel (R262); also a configured timeout (R264). -/
  | cancel (chan : Nat)
  /-- The owner's Reset (R290). -/
  | reset (chan : Nat)
  /-- The memory collaborator writes the word at place `k` of those in flight, so in any order
  (spec/20_memory.md R68(c)). -/
  | memPerform (k : Nat)
  /-- The environment writes one byte of memory (R46). -/
  | envWrite (addr : Address) (value : Byte)
  /-- The environment writes, in one access, those bytes of an aligned word whose enables are set;
  with all four set it is a 4-byte write (R46, spec/20_memory.md R68(a), R73). -/
  | envWriteWord (word : WordNumber) (enables : BitVec 4) (value : Word)
  /-- The environment increments a syncpoint counter (R45). -/
  | envIncr (index : SyncptIndex)
  deriving DecidableEq, Repr

/-- The whole system. -/
structure State where
  /-- The unit whose turn it is; between steps, the one that moved last. -/
  active : ChannelUnit
  /-- The other units (R48, R269), the one that has waited longest first (log 7). -/
  parked : List ChannelUnit
  /-- The semaphore memory (R46). -/
  mem : Memory
  /-- The words issued by 16-byte and 12-byte writes and not yet written, in the order issued
  (spec/20_memory.md R68(c), R68(d), spec/70_reset_and_hazards.md R301). -/
  inFlight : List WordWrite
  /-- The syncpoint bank (R45). -/
  syncpts : SyncptBank
  /-- The event history, oldest first (R47). -/
  events : List Event
  /-- The parameters of R5; no step changes them. -/
  params : Params
  /-- MODEL's own: how many timestamps have been drawn (log 3). -/
  draws : Nat
  /-- MODEL's own: what the agents do next; empty means the units
  move in turn (log 7). -/
  inputs : List Input
  deriving DecidableEq, Repr

/-- Why a step stops. No method stops: these are inputs the interface does not offer (log 14). -/
inductive Fault where
  /-- Raised by `step` for an input that names a channel no unit has (spec/60_exceptions.md R269);
  safe: no such channel exists. -/
  | noSuchChannel (chan : Nat)
  /-- Raised by `step` for an environment increment of a counter at or above `NUM_SYNCPT`
  (spec/10_state.md R45); safe: no such counter exists. -/
  | noSuchCounter (index : SyncptIndex)
  /-- Raised by `step` for an input that writes a word which is not in flight (spec/20_memory.md
  R68(c)); safe: there is no such word. -/
  | noSuchWord (k : Nat)
  deriving DecidableEq, Repr

/-- Why an instruction has no meaning. -/
inductive Refusal where
  /-- Raised by `exec` for an instruction without a meaning; safe. No arm of `exec` raises it. -/
  | notModelled (mnemonic : String)
  deriving DecidableEq, Repr

/-- What a step answers. -/
abbrev Result := Host.Outcome State Fault Refusal

/-- A unit as Reset creates it (spec/10_state.md R49): every word 0, IDLE; nothing presented. -/
def ChannelUnit.fresh (chan : Nat) : ChannelUnit where
  chan := chan
  raw := Vector.replicate 64 0
  fsm := .idle
  port := []

/-- The machine right after reset (R49, R290): one unit, the default of `NUM_CHANNELS` (R5). Memory
and counters are launch parameters (R292): free values (logs 1, 2). No word is in flight: no write
has been issued (log 10). The other fields outside the unit are the choices of logs 3 to 8. The event
history starts empty: R47 records every Reset and R48 calls creation a Reset, while R49 says that it
emits no event; that the creating Reset is not in the list is a DESIGN CHOICE (log 21). -/
def State.reset : State where
  active := ChannelUnit.fresh 0
  parked := []
  mem := Memory.ofBytes Config.launchBytes
  inFlight := []
  syncpts := SyncptBank.ofCounters Config.launchCounters
  events := []
  params :=
    { numSyncpt := Config.defaultNumSyncpt
      acqGeqOrder := Config.defaultAcqGeqOrder
      waitDisBlocks := Config.waitDisBlocks }
  draws := 0
  inputs := []

end Sys2Proof.Machine
end

