-- ==== Sys2Proof/Machine/Operands.lean ====
section
/-! DEFINITION. The operands of the methods: the slots of a unit and the fields an action decodes
from them (spec/10_state.md R21, R50, spec/30_encoding.md R93, spec/20_memory.md R61). -/

namespace Sys2Proof.Machine

/-- The diagnostic read `Peek(i)` (spec/10_state.md R43): the word of slot `i`, no side effect. -/
def ChannelUnit.peek (u : ChannelUnit) (i : SlotIndex) : Word := u.raw[i.toNat]'i.isLt

/-- `raw[i]` of the unit whose turn it is (spec/00_scope.md R7). -/
def State.slot (s : State) (i : SlotIndex) : Word := s.active.peek i

/-! ## The semaphore descriptor -/

/-- `sem_addr` (spec/20_memory.md R61): offsetUpper ‖ offsetLower ‖ 00. -/
def ChannelUnit.semAddress (u : ChannelUnit) : Address :=
  place 40 32 ((u.peek Slot.semaphoreA).extractLsb' 0 8) |||
    place 40 2 ((u.peek Slot.semaphoreB).extractLsb' 2 30)

def State.semAddress (s : State) : Address := s.active.semAddress

/-- The payload of the semaphore descriptor (spec/10_state.md R27). -/
def State.semPayload (s : State) : Word := s.slot Slot.semaphoreC

/-- The `wfi` flag of a request: set when `releaseWfi` is Enabled (spec/20_memory.md R74(c));
the unit only carries it (log 12). -/
def wfiFlag (c : SemControl) : Bool := c.releaseWfi == .enabled

/-- A 16-byte access is allowed only at a multiple of 16 (spec/20_memory.md R65). -/
def aligned16 (a : Address) : Bool := a.extractLsb' 2 2 == 0#2

/-- Release or Reduction of 16 bytes at an address that is not a multiple of 16
(spec/42_semaphore.md R166). -/
def misaligned (c : SemControl) (a : Address) : Bool :=
  c.releaseSize == .sixteenBytes && !(aligned16 a)

/-- The operation of the pending acquire, decoded from the stored control word (R50, R163). -/
def ChannelUnit.semOperation (u : ChannelUnit) : BitVec 5 :=
  (u.peek Slot.semaphoreD).extractLsb' 0 5

/-- The four words of a 16-byte release, lowest address first (spec/20_memory.md R67). -/
def releaseWords (payload : Word) (timestamp : BitVec 64) : List Word :=
  [payload, 0, timestamp.extractLsb' 0 32, timestamp.extractLsb' 32 32]

/-- The three words of the trailer of a 16-byte reduction (spec/42_semaphore.md R168). -/
def trailerWords (timestamp : BitVec 64) : List Word :=
  [0, timestamp.extractLsb' 0 32, timestamp.extractLsb' 32 32]

/-- The words of a write at `a`, `a + 4`, and so on, issued by channel `c` (R64, R68). -/
def wordWrites (c : Nat) (a : Address) : List Word → List WordWrite
  | [] => []
  | w :: ws => { chan := c, addr := a, value := w } :: wordWrites c (a + 4) ws

/-! ## The syncpoint descriptor -/

/-- The counter of the pending wait, decoded from the stored control word (R50, R216). -/
def ChannelUnit.waitIndex (u : ChannelUnit) : SyncptIndex :=
  (u.peek Slot.syncpointB).extractLsb' 8 12

/-- The threshold of a wait (spec/44_syncpoint.md R210). -/
def ChannelUnit.waitThreshold (u : ChannelUnit) : Word := u.peek Slot.syncpointA

/-- The counter exists (spec/44_syncpoint.md R212). -/
def State.syncptExists (s : State) (i : SyncptIndex) : Bool := i.toNat < s.params.numSyncpt

/-! ## The memory-operation pair -/

/-- The scope an invalidation request carries (spec/43_triggers_memop_reference.md R193). -/
def State.tlbScope (s : State) : TlbScope :=
  TlbScope.ofBits ((s.slot Slot.memOpC).extractLsb' 0 1)

end Sys2Proof.Machine
end

