-- ==== Sys2Proof/Machine/Flags.lean ====
section
/-! DEFINITION. The unit has no condition codes (spec/10_state.md R42): what takes their place is
the comparisons, whose results are used at once, the eight reduction functions, and the status
outputs, which are functions of the state (R44). `toNat` is `u32`, `toInt` is `s32`
(spec/00_scope.md R6). -/

namespace Sys2Proof.Machine

/-! ## Comparisons -/

/-- `geq(v, p)` in each of the three orders of `ACQ_GEQ_ORDER` (spec/42_semaphore.md R161). -/
def geq (order : AcqGeqOrder) (v p : Word) : Bool :=
  match order with
  | .unsigned => p.toNat ≤ v.toNat
  | .signed => p.toInt ≤ v.toInt
  | .circular => (v - p).extractLsb' 31 1 == 0#1

/-- `sat` of the poll step (R163). An operation that is no acquire never occurs while a wait
pends (Laws: `Inv`); it is not satisfied here (log 13). -/
def acquireSatisfied (order : AcqGeqOrder) (op : BitVec 5) (v p : Word) : Bool :=
  if op = opAcquire then v == p
  else if op = opAcqGeq then geq order v p
  else if op = opAcqAnd then v &&& p != 0
  else false

/-- The threshold test of a syncpoint wait, plain unsigned (spec/44_syncpoint.md R214, R216). -/
def thresholdReached (c t : Word) : Bool := t.toNat ≤ c.toNat

/-! ## Reductions (spec/42_semaphore.md R170 to R177) -/

/-- `a ≤ b` read as `format` says (R170, R171). -/
def formatLe (fmt : Format) (a b : Word) : Bool :=
  match fmt with
  | .unsigned => a.toNat ≤ b.toNat
  | .signed => a.toInt ≤ b.toInt

/-- `reduce(red, fmt, old, p)`. -/
def reduce (op : ReductionOp) (fmt : Format) (old p : Word) : Word :=
  match op with
  | .min => if formatLe fmt old p then old else p
  | .max => if formatLe fmt old p then p else old
  | .xor => old ^^^ p
  | .and => old &&& p
  | .or => old ||| p
  | .add => old + p
  | .inc => if p.toNat ≤ old.toNat then 0 else old + 1
  | .dec => if old = 0 ∨ p.toNat < old.toNat then p else old - 1

/-! ## Status outputs (spec/10_state.md R44) and readiness (R51) -/

/-- Which wait pends. -/
inductive WaitKind where
  | sem
  | syncpt
  deriving DecidableEq, Repr

def ChannelUnit.boundClass (u : ChannelUnit) : BitVec 16 :=
  (u.peek Slot.setObject).extractLsb' 0 16

def ChannelUnit.boundEngine (u : ChannelUnit) : BitVec 5 :=
  (u.peek Slot.setObject).extractLsb' 16 5

def ChannelUnit.reference (u : ChannelUnit) : Word := u.peek Slot.setReference

def ChannelUnit.blocked (u : ChannelUnit) : Bool := u.fsm == .semWait || u.fsm == .syncptWait

def ChannelUnit.waitKind (u : ChannelUnit) : Option WaitKind :=
  match u.fsm with
  | .semWait => some .sem
  | .syncptWait => some .syncpt
  | .idle | .fatal => none

/-- The switch of the pending wait, 0 when none pends (R44, R169, R218). -/
def ChannelUnit.switchHint (u : ChannelUnit) : BitVec 1 :=
  match u.fsm with
  | .semWait => (u.peek Slot.semaphoreD).extractLsb' 12 1
  | .syncptWait => (u.peek Slot.syncpointB).extractLsb' 4 1
  | .idle | .fatal => 0

def ChannelUnit.fatal (u : ChannelUnit) : Bool := u.fsm == .fatal

/-- A word issued by a unit of channel `c` is in flight (spec/20_memory.md R68(c)). -/
def State.awaitsMemory (s : State) (c : Nat) : Bool := s.inFlight.any fun w => w.chan == c

/-- `mthd_ready` of the unit `u` (R51, spec/10_state.md R57): IDLE, and every request of its previous
method is complete. Only the words of a 16-byte or 12-byte write outlive the step that issues them
(log 10). -/
def State.methodReady (s : State) (u : ChannelUnit) : Bool :=
  u.fsm == .idle && !(s.awaitsMemory u.chan)

/-- The numeric code on the `kind` field of a fault record (spec/60_exceptions.md R250). -/
def FaultKind.code : FaultKind → BitVec 2
  | .outOfRangeMethod => 1
  | .illegalMethod => 2
  | .unsupportedOperation => 3

end Sys2Proof.Machine
end

