-- ==== Sys2Proof/Machine/Ops.lean ====
section
/-! DEFINITION. The named operations the meanings are made of: storing a word, emitting an event,
reporting a fault (the unit's only trap entry, spec/60_exceptions.md R260) and Reset (the only way
back from the fatal one, R261), the accesses of the memory and syncpoint ports, the steps of a
pending wait, and the steps of the owner. -/

namespace Sys2Proof.Machine

/-! ## Registers, control state, events -/

/-- `raw[i] <- v` (spec/40_dispatch.md R122): exactly one word changes. -/
def ChannelUnit.store (u : ChannelUnit) (i : SlotIndex) (v : Word) : ChannelUnit :=
  { u with raw := u.raw.set i.toNat v i.isLt }

/-- The unit in control state `f`. -/
def ChannelUnit.withFsm (u : ChannelUnit) (f : Fsm) : ChannelUnit := { u with fsm := f }

/-- The unit with these methods presented. -/
def ChannelUnit.withPort (u : ChannelUnit) (p : List Method) : ChannelUnit := { u with port := p }

/-- Effect 1 of a method of the unit whose turn it is (R122). -/
def State.store (s : State) (i : SlotIndex) (v : Word) : State :=
  { s with active := s.active.store i v }

/-- `fsm <- f`. -/
def State.setFsm (s : State) (f : Fsm) : State :=
  { s with active := s.active.withFsm f }

/-- An event of channel `chan` is appended to the history (spec/10_state.md R47). -/
def State.record (s : State) (chan : Nat) (k : EventKind) : State :=
  { s with events := s.events ++ [{ chan := chan, kind := k }] }

/-- `emit E(args)` by the unit whose turn it is (spec/00_scope.md R7). -/
def State.emit (s : State) (k : EventKind) : State := s.record s.active.chan k

/-! ## Faults (spec/60_exceptions.md R250 to R253, R255, R260) -/

/-- `raise Fault(kind, index, argument)`: report and continue (R252). -/
def State.raiseFault (s : State) (kind : FaultKind) (index : MethodIndex) (arg : Word) : State :=
  s.emit (.fault kind index arg)

/-- `fatal(index, argument)`: report and stop the unit (R251). -/
def State.fatalFault (s : State) (index : MethodIndex) (arg : Word) : State :=
  (s.raiseFault .outOfRangeMethod index arg).setFsm .fatal

/-! ## The memory port (spec/10_state.md R53, spec/20_memory.md R64 to R68) -/

/-- `MemRead(addr, 4)`: the value is recorded; nothing else changes (R69). -/
def State.memRead (s : State) (addr : Address) : State :=
  s.emit (.memRead addr (s.mem.readWord addr))

/-- `MemWrite(addr, 4, value, wfi)`: one word, written in the step that issues it (R68(a)). -/
def State.memWrite (s : State) (addr : Address) (value : Word) (wfi : Bool) : State :=
  { s.emit (.memWrite addr [value] wfi) with mem := s.mem.writeWord addr value }

/-- `MemWrite(addr, n, data, wfi)` of several words: one request, whose words are in flight until each
is written by itself (R68(c), R68(d)). -/
def State.issueWrite (s : State) (addr : Address) (data : List Word) (wfi : Bool) : State :=
  { s.emit (.memWrite addr data wfi) with
    inFlight := s.inFlight ++ wordWrites s.active.chan addr data }

/-- The word at place `k` of those in flight is written (R68(c)). -/
def State.land (s : State) (k : Nat) : State :=
  match s.inFlight[k]? with
  | none => s
  | some w => { s with mem := s.mem.writeWord w.addr w.value, inFlight := s.inFlight.eraseIdx k }

/-- `MemReduce(addr, op, fmt, p, wfi)`: one indivisible read-modify-write (R68(b)). -/
def State.memReduce (s : State) (addr : Address) (op : ReductionOp) (fmt : Format) (p : Word)
    (wfi : Bool) : State :=
  { s.emit (.memReduce addr op fmt p wfi) with
    mem := s.mem.writeWord addr (reduce op fmt (s.mem.readWord addr) p) }

/-- The value of the next `draw_64()` (spec/00_scope.md R7, log 3). -/
def State.nextTimestamp (s : State) : BitVec 64 := Config.timestamp s.draws

/-- One more timestamp has been drawn. -/
def State.drawn (s : State) : State := { s with draws := s.draws + 1 }

/-! ## The semaphore actions, after Effect 1 -/

/-- An acquire begins: the channel is suspended (spec/42_semaphore.md R160). -/
def State.beginAcquire (s : State) : State := s.setFsm .semWait

/-- Release (R165, R166); `arg` is the control word, for the fault record. -/
def State.release (s : State) (arg : Word) (c : SemControl) : State :=
  if misaligned c s.semAddress then
    s.raiseFault .unsupportedOperation (slotMethodIndex Slot.semaphoreD) arg
  else match c.releaseSize with
    | .fourBytes => s.memWrite s.semAddress s.semPayload (wfiFlag c)
    | .sixteenBytes =>
      (s.issueWrite s.semAddress (releaseWords s.semPayload s.nextTimestamp) (wfiFlag c)).drawn

/-- The trailer of a 16-byte reduction, issued after the reduction of its first word (R168, R68(d)). -/
def State.trailer (s : State) (addr : Address) (wfi : Bool) : State :=
  (s.issueWrite (addr + 4) (trailerWords s.nextTimestamp) wfi).drawn

/-- Reduction (R167, R168); `arg` is the control word, for the fault record. -/
def State.reduction (s : State) (op : ReductionOp) (arg : Word) (c : SemControl) : State :=
  if misaligned c s.semAddress then
    s.raiseFault .unsupportedOperation (slotMethodIndex Slot.semaphoreD) arg
  else
    let s' := s.memReduce s.semAddress op c.format s.semPayload (wfiFlag c)
    match c.releaseSize with
    | .fourBytes => s'
    | .sixteenBytes => s'.trailer s.semAddress (wfiFlag c)

/-! ## The syncpoint actions, after Effect 1 -/

/-- `SyncptIncr(i)` (spec/10_state.md R45, R54). -/
def State.syncptIncr (s : State) (i : SyncptIndex) : State :=
  { s.emit (.syncptIncr i) with syncpts := s.syncpts.incr i }

/-- `SyncptRead(i)`: the value is recorded; nothing else changes (R45, R54). -/
def State.syncptRead (s : State) (i : SyncptIndex) : State :=
  s.emit (.syncptRead i (s.syncpts.read i))

/-- The index check of SYNCPOINT_B before its action (spec/44_syncpoint.md R211, R212); `arg` is
the control word, for the fault record. -/
def State.checkSyncpt (s : State) (i : SyncptIndex) (arg : Word) (action : State) : State :=
  if s.syncptExists i then action
  else s.raiseFault .unsupportedOperation (slotMethodIndex Slot.syncpointB) arg

/-- A syncpoint wait begins: the channel is suspended (R214). -/
def State.beginSyncptWait (s : State) : State := s.setFsm .syncptWait

/-! ## The steps of a pending wait -/

/-- One poll of the pending acquire (spec/42_semaphore.md R163). -/
def State.poll (s : State) : State :=
  let v := s.mem.readWord s.semAddress
  let s' := s.memRead s.semAddress
  if acquireSatisfied s.params.acqGeqOrder s.active.semOperation v s.semPayload then
    s'.setFsm .idle
  else s'

/-- One test of the pending syncpoint wait (spec/44_syncpoint.md R216). -/
def State.test (s : State) : State :=
  let c := s.syncpts.read s.active.waitIndex
  let s' := s.syncptRead s.active.waitIndex
  if thresholdReached c s.active.waitThreshold then s'.setFsm .idle else s'

/-! ## The owner's steps -/

/-- Cancel (spec/60_exceptions.md R262): a pending wait ends, nothing else. -/
def ChannelUnit.cancel (u : ChannelUnit) : ChannelUnit :=
  match u.fsm with
  | .semWait | .syncptWait => u.withFsm .idle
  | .idle | .fatal => u

/-- Reset (spec/70_reset_and_hazards.md R290): every word 0, IDLE. What is presented on the port
stays presented (log 8). -/
def ChannelUnit.resetUnit (u : ChannelUnit) : ChannelUnit :=
  { u with raw := Vector.replicate 64 0, fsm := .idle }

/-- The owner presents a method after those already presented (spec/10_state.md R51). -/
def ChannelUnit.offer (u : ChannelUnit) (m : Method) : ChannelUnit :=
  u.withPort (u.port ++ [m])

/-- The owner withdraws the method on the port (R51). -/
def ChannelUnit.withdraw (u : ChannelUnit) : ChannelUnit := u.withPort (u.port.drop 1)

/-! ## Channels (spec/10_state.md R48, spec/60_exceptions.md R269) -/

/-- Some unit has this channel number. -/
def State.hasChannel (s : State) (c : Nat) : Bool :=
  s.active.chan == c || s.parked.any (fun u => u.chan == c)

/-- The unit changed by `f` if it is the one of channel `c`. -/
def ChannelUnit.changedIf (u : ChannelUnit) (c : Nat) (f : ChannelUnit → ChannelUnit) :
    ChannelUnit :=
  if u.chan = c then f u else u

/-- The unit of channel `c` changed by `f`, every other unit left alone. -/
def State.onChannel (s : State) (c : Nat) (f : ChannelUnit → ChannelUnit) : State :=
  { s with
    active := s.active.changedIf c f
    parked := s.parked.map (fun u => u.changedIf c f) }

/-- The unit `u` has the turn and the units `others` wait for it, in this order. -/
def State.withTurn (s : State) (u : ChannelUnit) (others : List ChannelUnit) : State :=
  { s with active := u, parked := others }

/-- The turn passes to the unit that has waited longest, and the one that had it waits behind all
others: so every unit moves again and again (spec/70_reset_and_hazards.md R304, log 7). -/
def State.nextTurn (s : State) : State :=
  match s.parked with
  | [] => s
  | u :: us => s.withTurn u (us ++ [s.active])

/-- The unit of channel `c` becomes the one whose turn it is, and the one that had it waits behind
all others; the units themselves do not change. `none` where no unit has that number. -/
def State.giveTurn (s : State) (c : Nat) : Option State :=
  if s.active.chan = c then some s
  else match s.parked.find? (fun u => u.chan == c) with
    | none => none
    | some u => some (s.withTurn u (s.parked.eraseP (fun u => u.chan == c) ++ [s.active]))

/-- The unit whose turn it is accepts the method `m` (spec/40_dispatch.md R120): it leaves the port,
where `rest` stays presented, and the Write is recorded (spec/10_state.md R47). -/
def State.accept (s : State) (m : Method) (rest : List Method) : State :=
  ({ s with active := s.active.withPort rest }).emit
    (.write (Method.index m) (Method.argument m))

end Sys2Proof.Machine
end

