-- ==== Sys2Proof/Machine/Barrier.lean ====
section
/-! DEFINITION. WFI, CRC_CHECK, YIELD (spec/45_wfi_crc_yield.md): requests to the framework; none
makes the unit wait. -/

namespace Sys2Proof.Machine

/-- WFI (R230). -/
def execWfi (scope : WfiScope) (pad : BitVec 31) (s : State) : Result :=
  .next ((s.store Slot.wfi (wfiWord scope pad)).emit (.waitForIdle scope))

/-- CRC_CHECK (R231): the argument just stored is forwarded. -/
def execCrcCheck (crc : Word) (s : State) : Result :=
  .next ((s.store Slot.crcCheck crc).emit (.crcCheck crc))

/-- YIELD (R232): all four granularities are forwarded, Nop included. -/
def execYield (op : YieldOp) (pad : BitVec 30) (s : State) : Result :=
  .next ((s.store Slot.yield (yieldWord op pad)).emit (.yield op))

end Sys2Proof.Machine
end

