-- ==== Sys2Proof/Machine/Object.lean ====
section
/-! DEFINITION. SET_OBJECT, ILLEGAL, NOP (spec/41_object_trap_nop.md), UNIMPL and OOR
(spec/40_dispatch.md). -/

namespace Sys2Proof.Machine

/-- SET_OBJECT (R140): the binding is the stored word; no event. -/
def execSetObject (nvClass : BitVec 16) (engine : BitVec 5) (pad : BitVec 11) (s : State) : Result :=
  .next (s.store Slot.setObject (setObjectWord nvClass engine pad))

/-- ILLEGAL (R141): stored, one recoverable fault. -/
def execIllegal (arg : Word) (s : State) : Result :=
  .next ((s.store Slot.illegal arg).raiseFault .illegalMethod (slotMethodIndex Slot.illegal) arg)

/-- NOP (R142): "No side effect beyond the raw store." -/
def execNop (arg : Word) (s : State) : Result :=
  .next (s.store Slot.nop arg)

/-- UNIMPL (R125): Effect 1 only. -/
def execUnimpl (slot : SlotIndex) (arg : Word) (s : State) : Result :=
  .next (s.store slot arg)

/-- OOR (R121): the fatal fault; no word is written. -/
def execOor (index : MethodIndex) (arg : Word) (s : State) : Result :=
  .next (s.fatalFault index arg)

end Sys2Proof.Machine
end

