-- ==== Sys2Proof/Machine/Semaphore.lean ====
section
/-! DEFINITION. The semaphore descriptor: SEMAPHORE_A, B, C and the thirteen methods of its control
word (spec/42_semaphore.md). Effect 1 comes first, then the action on the slots as they then stand
(R153). -/

namespace Sys2Proof.Machine

/-- SEMAPHORE_A (R150): no action. -/
def execSemaphoreA (offsetUpper : BitVec 8) (pad : BitVec 24) (s : State) : Result :=
  .next (s.store Slot.semaphoreA (semaphoreAWord offsetUpper pad))

/-- SEMAPHORE_B (R151): no action. -/
def execSemaphoreB (offsetLower : BitVec 30) (pad : BitVec 2) (s : State) : Result :=
  .next (s.store Slot.semaphoreB (semaphoreBWord offsetLower pad))

/-- SEMAPHORE_C (R152): no action. -/
def execSemaphoreC (payload : Word) (s : State) : Result :=
  .next (s.store Slot.semaphoreC payload)

/-- The control word written is stored (R153, Effect 1). -/
def State.storeControl (s : State) (operation : BitVec 5) (reduction : BitVec 4) (c : SemControl) :
    State :=
  s.store Slot.semaphoreD (semaphoreDWord operation reduction c)

/-- SEM_ACQUIRE (R160): the polls follow as steps of their own (R163). -/
def execSemAcquire (red : ReductionOp) (c : SemControl) (s : State) : Result :=
  .next (s.storeControl opAcquire red.toBits c).beginAcquire

/-- SEM_ACQ_GEQ (R161): as SEM_ACQUIRE, with its own predicate at the polls. -/
def execSemAcqGeq (red : ReductionOp) (c : SemControl) (s : State) : Result :=
  .next (s.storeControl opAcqGeq red.toBits c).beginAcquire

/-- SEM_ACQ_AND (R162): as SEM_ACQUIRE, with its own predicate at the polls. -/
def execSemAcqAnd (red : ReductionOp) (c : SemControl) (s : State) : Result :=
  .next (s.storeControl opAcqAnd red.toBits c).beginAcquire

/-- SEM_RELEASE (R165, R166); `reduction`, `format` and `acquireSwitch` are ignored (R154, R169). -/
def execSemRelease (red : ReductionOp) (c : SemControl) (s : State) : Result :=
  .next ((s.storeControl opRelease red.toBits c).release (semaphoreDWord opRelease red.toBits c) c)

/-- A Reduction (R167): Effect 1, then the reduction `op`. -/
def State.reductionMethod (s : State) (op : ReductionOp) (c : SemControl) : State :=
  (s.storeControl opReduction op.toBits c).reduction op (semaphoreDWord opReduction op.toBits c) c

/-- SEM_RED_MIN (R170). -/
def execSemRedMin (c : SemControl) (s : State) : Result :=
  .next (s.reductionMethod .min c)

/-- SEM_RED_MAX (R171). -/
def execSemRedMax (c : SemControl) (s : State) : Result :=
  .next (s.reductionMethod .max c)

/-- SEM_RED_XOR (R172). -/
def execSemRedXor (c : SemControl) (s : State) : Result :=
  .next (s.reductionMethod .xor c)

/-- SEM_RED_AND (R173). -/
def execSemRedAnd (c : SemControl) (s : State) : Result :=
  .next (s.reductionMethod .and c)

/-- SEM_RED_OR (R174). -/
def execSemRedOr (c : SemControl) (s : State) : Result :=
  .next (s.reductionMethod .or c)

/-- SEM_RED_ADD (R175). -/
def execSemRedAdd (c : SemControl) (s : State) : Result :=
  .next (s.reductionMethod .add c)

/-- SEM_RED_INC (R176). -/
def execSemRedInc (c : SemControl) (s : State) : Result :=
  .next (s.reductionMethod .inc c)

/-- SEM_RED_DEC (R177). -/
def execSemRedDec (c : SemControl) (s : State) : Result :=
  .next (s.reductionMethod .dec c)

/-- SEM_RESERVED (R155): stored, one recoverable fault, no memory access. -/
def execSemReserved (operation : BitVec 5) (reduction : BitVec 4) (c : SemControl) (s : State) :
    Result :=
  .next ((s.storeControl operation reduction c).raiseFault .unsupportedOperation
    (slotMethodIndex Slot.semaphoreD) (semaphoreDWord operation reduction c))

end Sys2Proof.Machine
end

