-- ==== Sys2Proof/Machine/Syncpoint.lean ====
section
/-! DEFINITION. The syncpoint descriptor: SYNCPOINT_A and the three methods of its control word
(spec/44_syncpoint.md). Effect 1 comes first, then the index check, then the action (R211). -/

namespace Sys2Proof.Machine

/-- SYNCPOINT_A (R210): no action. -/
def execSyncpointA (payload : Word) (s : State) : Result :=
  .next (s.store Slot.syncpointA payload)

/-- SYNCPT_INCR (R213): `waitSwitch` is ignored; never blocks. -/
def execSyncptIncr (waitSwitch : Switch) (c : SyncptControl) (s : State) : Result :=
  let arg := syncpointBWord opIncr waitSwitch c
  let s' := s.store Slot.syncpointB arg
  .next (s'.checkSyncpt c.index arg (s'.syncptIncr c.index))

/-- SYNCPT_WAIT (R214): the tests follow as steps of their own (R216). -/
def execSyncptWait (c : SyncptControl) (s : State) : Result :=
  let arg := syncpointBWord opWait .enabled c
  let s' := s.store Slot.syncpointB arg
  .next (s'.checkSyncpt c.index arg s'.beginSyncptWait)

/-- SYNCPT_WAIT_NOSWITCH (R215): blocks exactly when the parameter `WAIT_DIS_BLOCKS` says so. -/
def execSyncptWaitNoswitch (c : SyncptControl) (s : State) : Result :=
  let arg := syncpointBWord opWait .disabled c
  let s' := s.store Slot.syncpointB arg
  .next (s'.checkSyncpt c.index arg
    (if s'.params.waitDisBlocks then s'.beginSyncptWait else s'))

end Sys2Proof.Machine
end

