-- ==== Sys2Proof/Machine/Trigger.lean ====
section
/-! DEFINITION. NON_STALL_INTERRUPT, FB_FLUSH, MEM_OP_C, MEM_OP_D, SET_REFERENCE
(spec/43_triggers_memop_reference.md). Each is a store and at most one request. -/

namespace Sys2Proof.Machine

/-- NON_STALL_INTERRUPT (R190): the argument is not carried. -/
def execNonStallInterrupt (arg : Word) (s : State) : Result :=
  .next ((s.store Slot.nonStallInterrupt arg).emit .nonStallInterrupt)

/-- FB_FLUSH (R191). -/
def execFbFlush (arg : Word) (s : State) : Result :=
  .next ((s.store Slot.fbFlush arg).emit .fbFlush)

/-- MEM_OP_C (R192): the operand word of the pair; no event. -/
def execMemOpC (tlbInvalidatePdb : TlbScope) (rest : BitVec 31) (s : State) : Result :=
  .next (s.store Slot.memOpC (memOpCWord tlbInvalidatePdb rest))

/-- The request MEM_OP_D forwards, from the two slots as they stand (R193). -/
def State.tlbInvalidate (s : State) : State :=
  s.emit (.tlbInvalidate s.tlbScope (s.slot Slot.memOpC) (s.slot Slot.memOpD))

/-- MEM_OP_D (R193): every write forwards one request. -/
def execMemOpD (arg : Word) (s : State) : Result :=
  .next (s.store Slot.memOpD arg).tlbInvalidate

/-- SET_REFERENCE (R194): no event; the status output shows the word. -/
def execSetReference (reference : Word) (s : State) : Result :=
  .next (s.store Slot.setReference reference)

end Sys2Proof.Machine
end

