-- ==== Sys2Proof/Machine/Dispatch.lean ====
section
/-! DEFINITION. The dispatcher's Effect 1 and Effect 2 of an accepted method, by method
(spec/40_dispatch.md R123). -/

namespace Sys2Proof.Machine

-- One arm per constructor of Instr.
def exec (i : Instr) (s : State) : Host.Outcome State Fault Refusal :=
  match i with
  | .setObject nvClass engine pad => Sys2Proof.Machine.execSetObject nvClass engine pad s
  | .illegal arg => Sys2Proof.Machine.execIllegal arg s
  | .nop arg => Sys2Proof.Machine.execNop arg s
  | .semaphoreA offsetUpper pad => Sys2Proof.Machine.execSemaphoreA offsetUpper pad s
  | .semaphoreB offsetLower pad => Sys2Proof.Machine.execSemaphoreB offsetLower pad s
  | .semaphoreC payload => Sys2Proof.Machine.execSemaphoreC payload s
  | .semAcquire red c => Sys2Proof.Machine.execSemAcquire red c s
  | .semRelease red c => Sys2Proof.Machine.execSemRelease red c s
  | .semAcqGeq red c => Sys2Proof.Machine.execSemAcqGeq red c s
  | .semAcqAnd red c => Sys2Proof.Machine.execSemAcqAnd red c s
  | .semRedMin c => Sys2Proof.Machine.execSemRedMin c s
  | .semRedMax c => Sys2Proof.Machine.execSemRedMax c s
  | .semRedXor c => Sys2Proof.Machine.execSemRedXor c s
  | .semRedAnd c => Sys2Proof.Machine.execSemRedAnd c s
  | .semRedOr c => Sys2Proof.Machine.execSemRedOr c s
  | .semRedAdd c => Sys2Proof.Machine.execSemRedAdd c s
  | .semRedInc c => Sys2Proof.Machine.execSemRedInc c s
  | .semRedDec c => Sys2Proof.Machine.execSemRedDec c s
  | .semReserved op red c => Sys2Proof.Machine.execSemReserved op red c s
  | .nonStallInterrupt arg => Sys2Proof.Machine.execNonStallInterrupt arg s
  | .fbFlush arg => Sys2Proof.Machine.execFbFlush arg s
  | .memOpC scope rest => Sys2Proof.Machine.execMemOpC scope rest s
  | .memOpD arg => Sys2Proof.Machine.execMemOpD arg s
  | .setReference reference => Sys2Proof.Machine.execSetReference reference s
  | .syncpointA payload => Sys2Proof.Machine.execSyncpointA payload s
  | .syncptWait c => Sys2Proof.Machine.execSyncptWait c s
  | .syncptWaitNoswitch c => Sys2Proof.Machine.execSyncptWaitNoswitch c s
  | .syncptIncr sw c => Sys2Proof.Machine.execSyncptIncr sw c s
  | .wfi scope pad => Sys2Proof.Machine.execWfi scope pad s
  | .crcCheck crc => Sys2Proof.Machine.execCrcCheck crc s
  | .yield op pad => Sys2Proof.Machine.execYield op pad s
  | .unimpl slot arg => Sys2Proof.Machine.execUnimpl slot arg s
  | .oor index arg => Sys2Proof.Machine.execOor index arg s

end Sys2Proof.Machine
end

