-- ==== Sys2Proof/Machine/Turn.lean ====
section
/-! DEFINITION. The steps of the agents (spec/00_scope.md R8): a unit accepts a method, polls or
tests; the owner and the environment act. -/

namespace Sys2Proof.Machine

/-- The step "accept a method write" (spec/40_dispatch.md R120), in IDLE: the presented method is
decoded and run; with no method presented the unit waits (log 9). -/
def acceptMethod (s : State) : Result :=
  match s.active.port with
  | [] => .next s
  | m :: rest => exec (decode m) (s.accept m rest)

/-- The step of the unit whose turn it is (R8(a)). While words it issued are in flight it accepts no
method (spec/10_state.md R57), and the oldest of them is written (log 10). In SEM_WAIT and
SYNCPT_WAIT no method is accepted; in FATAL nothing is done until Reset (spec/60_exceptions.md R251).
Acceptance is decided here, not in `exec` (log 20). -/
def unitStep (s : State) : Result :=
  match s.inFlight.findIdx? (fun w => w.chan == s.active.chan) with
  | some k => .next (s.land k)
  | none =>
    match s.active.fsm with
    | .idle => acceptMethod s
    | .semWait => .next s.poll
    | .syncptWait => .next s.test
    | .fatal => .next s

/-- The owner's action `f` on the unit of channel `c`, answering what `done` makes of it. -/
def ownerStep (s : State) (c : Nat) (f : ChannelUnit → ChannelUnit) (done : State → State) :
    Result :=
  if s.hasChannel c then .next (done (s.onChannel c f)) else .fault (.noSuchChannel c)

/-- One input performed (R8). Cancel and Reset enter the event history (spec/10_state.md R47). -/
def performInput (a : Input) (s : State) : Result :=
  match a with
  | .turn c =>
    match s.giveTurn c with
    | some t => unitStep t
    | none => .fault (.noSuchChannel c)
  | .offer c m => ownerStep s c (fun u => u.offer m) id
  | .withdraw c => ownerStep s c ChannelUnit.withdraw id
  | .cancel c => ownerStep s c ChannelUnit.cancel (fun t => t.record c .cancel)
  | .reset c => ownerStep s c ChannelUnit.resetUnit (fun t => t.record c .reset)
  | .memPerform k =>
    if k < s.inFlight.length then .next (s.land k) else .fault (.noSuchWord k)
  | .envWrite a v => .next { s with mem := s.mem.writeByte a v }
  | .envWriteWord n e v => .next { s with mem := s.mem.writeEnabled n e v }
  | .envIncr i =>
    if s.syncptExists i then .next { s with syncpts := s.syncpts.incr i }
    else .fault (.noSuchCounter i)

/-- A step: the first input, or, when there is none, the step of the unit that has waited longest. -/
def systemStep (s : State) : Result :=
  match s.inputs with
  | [] => unitStep s.nextTurn
  | a :: rest => performInput a { s with inputs := rest }

/-- A method put at the head of the active unit's port, the unit in IDLE with no word in flight, and
its turn put first among the inputs: what it takes for the next step to accept exactly that method. -/
def State.presenting (s : State) (m : Method) : State :=
  { s with
    active := (s.active.withFsm .idle).withPort (m :: s.active.port.drop 1)
    inFlight := s.inFlight.filter fun w => w.chan != s.active.chan
    inputs := .turn s.active.chan :: s.inputs }

end Sys2Proof.Machine
end

