-- ==== Sys2Proof/Machine/Step.lean ====
section
/-! DEFINITION. One step of the system, and the placing of one method where the next step accepts
it (logs 7, 8). -/

namespace Sys2Proof.Machine

/-- One step of one agent. -/
def step : State → Host.Outcome State Fault Refusal := systemStep

/-- `s` with the method whose transaction is the low `nbits` bits of `w` on the active unit's port,
so that the very next step accepts and runs it. -/
def State.withFetchWord (s : State) (nbits w : Nat) : State :=
  s.presenting (BitVec.ofNat 44 (w % 2 ^ nbits))

end Sys2Proof.Machine
end

