-- ==== Sys2Proof/Safety.lean ====
section
/-! DEFINITION. The terms the statements use: what a step leaves alone, what a method's effect is,
and the invariant of the system. -/

namespace Sys2Proof.Machine

/-! ## Transactions -/

/-- The transaction `index ‖ argument` as a number (spec/30_encoding.md R90), written without the
encoder. -/
def methodWord (index : Nat) (arg : Word) : Method := BitVec.ofNat 44 (index * 2 ^ 32 + arg.toNat)

/-! ## Frames -/

/-- Every unit of the system. -/
def State.units (s : State) : List ChannelUnit := s.active :: s.parked

/-- No slot of the active unit changes. -/
def SlotsKept (s t : State) : Prop := ∀ j, t.slot j = s.slot j

/-- Slot `i` of the active unit holds `v`, every other slot its old word. -/
def SlotWritten (s t : State) (i : SlotIndex) (v : Word) : Prop :=
  t.slot i = v ∧ ∀ j, j ≠ i → t.slot j = s.slot j

/-- The active unit appended these events, in this order, and nothing else. -/
def Emitted (s t : State) (ks : List EventKind) : Prop :=
  t.events = s.events ++ ks.map fun k => { chan := s.active.chan, kind := k }

/-- Every byte of memory reads as before, and the same words are in flight. -/
def MemoryKept (s t : State) : Prop :=
  (∀ a, t.mem.readByte a = s.mem.readByte a) ∧ t.inFlight = s.inFlight

/-- Every byte of memory outside the `n` bytes at `a` reads as before. -/
def MemoryKeptOutside (s t : State) (a : Address) (n : Nat) : Prop :=
  ∀ b, n ≤ (b - a).toNat → t.mem.readByte b = s.mem.readByte b

/-- Every syncpoint counter reads as before. -/
def CountersKept (s t : State) : Prop := ∀ i, t.syncpts.read i = s.syncpts.read i

/-- What no action of a method touches: the unit's number and port, the other units, the
parameters and the inputs still to come. -/
def SurroundingsKept (s t : State) : Prop :=
  t.active.chan = s.active.chan ∧ t.active.port = s.active.port ∧ t.parked = s.parked ∧
    t.params = s.params ∧ t.inputs = s.inputs

/-- The effect of a method that touches its own slot, `fsm` and the event history only: slot `i`
holds `v`, `fsm` is `f`, the events `ks` are appended, everything else is as before. -/
structure RegisterOnly (s t : State) (i : SlotIndex) (v : Word) (f : Fsm) (ks : List EventKind) :
    Prop where
  slots : SlotWritten s t i v
  fsm : t.active.fsm = f
  events : Emitted s t ks
  memory : MemoryKept s t
  counters : CountersKept s t
  draws : t.draws = s.draws
  surroundings : SurroundingsKept s t

/-- A 16-byte access is allowed at this address: `raw[5][3:2] = 0` (spec/20_memory.md R65). -/
def SizeAllowed (s : State) (c : SemControl) : Prop :=
  c.releaseSize = .fourBytes ∨ (s.slot 5).extractLsb' 2 2 = 0

/-- The effect of a Reduction that runs (spec/42_semaphore.md R167, R168): the word at the address
becomes `new` of what it was; a 16-byte one then issues the write of 0 and the timestamp behind it,
whose three words are in flight (spec/20_memory.md R68(d)). -/
structure Reduced (s t : State) (op : ReductionOp) (c : SemControl) (arg : Word)
    (new : Word → Word) : Prop where
  slots : SlotWritten s t 7 arg
  fsm : t.active.fsm = s.active.fsm
  word : t.mem.readWord s.semAddress = new (s.mem.readWord s.semAddress)
  outside : MemoryKeptOutside s t s.semAddress 4
  fourBytes : c.releaseSize = .fourBytes → t.inFlight = s.inFlight ∧ t.draws = s.draws ∧
    Emitted s t [.memReduce s.semAddress op c.format (s.slot 6) (c.releaseWfi == .enabled)]
  sixteenBytes : c.releaseSize = .sixteenBytes →
    t.inFlight = s.inFlight ++
      [⟨s.active.chan, s.semAddress + 4, 0⟩,
       ⟨s.active.chan, s.semAddress + 8, s.nextTimestamp.extractLsb' 0 32⟩,
       ⟨s.active.chan, s.semAddress + 12, s.nextTimestamp.extractLsb' 32 32⟩] ∧
    t.draws = s.draws + 1 ∧
    Emitted s t
      [.memReduce s.semAddress op c.format (s.slot 6) (c.releaseWfi == .enabled),
       .memWrite (s.semAddress + 4)
        [0, s.nextTimestamp.extractLsb' 0 32, s.nextTimestamp.extractLsb' 32 32]
        (c.releaseWfi == .enabled)]
  counters : CountersKept s t
  surroundings : SurroundingsKept s t

/-! ## Who moves -/

/-- The unit that moves in the next step, if one does: when no input is left the one that has waited
longest, else the one the first input gives the turn to (log 7). -/
def State.mover (s : State) : Option ChannelUnit :=
  match s.inputs with
  | [] => some (s.parked.headD s.active)
  | .turn c :: _ => s.units.find? fun u => u.chan == c
  | .offer .. :: _ | .withdraw _ :: _ | .cancel _ :: _ | .reset _ :: _ | .memPerform _ :: _
  | .envWrite .. :: _ | .envWriteWord .. :: _ | .envIncr _ :: _ => none

/-- `u` is the unit that moves in the next step. -/
def Moves (s : State) (u : ChannelUnit) : Prop := s.mover = some u

/-- `v` is `s` as the unit `u` finds it when it moves: `u` has the turn, every other unit waits, the
input that gave the turn is used up, nothing else differs. -/
structure TurnTaken (s : State) (u : ChannelUnit) (v : State) : Prop where
  active : v.active = u
  units : (u :: v.parked).Perm s.units
  mem : v.mem = s.mem
  inFlight : v.inFlight = s.inFlight
  syncpts : v.syncpts = s.syncpts
  events : v.events = s.events
  params : v.params = s.params
  draws : v.draws = s.draws
  inputs : v.inputs = s.inputs.tail

/-- What no turn of the unit `u` touches: its number, the other units, the parameters and the inputs
still to come. -/
structure TurnKept (s : State) (u : ChannelUnit) (t : State) : Prop where
  chan : t.active.chan = u.chan
  units : (u :: t.parked).Perm s.units
  params : t.params = s.params
  inputs : t.inputs = s.inputs.tail

/-- What a turn leaves as it was that ends or continues the wait of `u`: the words and the port of
`u`, memory, the counters and the draws; one event `k` is appended. -/
structure WaitStep (s : State) (u : ChannelUnit) (k : EventKind) (t : State) : Prop where
  turn : TurnKept s u t
  slots : ∀ j, t.active.peek j = u.peek j
  port : t.active.port = u.port
  events : t.events = s.events ++ [{ chan := u.chan, kind := k }]
  memory : MemoryKept s t
  counters : CountersKept s t
  draws : t.draws = s.draws

/-- The word `w`, at place `k` of those in flight, has been written: the four bytes at its address hold
it, it is no longer in flight, and nothing else of what the units share differs. -/
structure Landed (s t : State) (k : Nat) (w : WordWrite) : Prop where
  inFlight : t.inFlight = s.inFlight.eraseIdx k
  word : t.mem.readWord w.addr = w.value
  outside : MemoryKeptOutside s t w.addr 4
  counters : CountersKept s t
  events : t.events = s.events
  params : t.params = s.params
  draws : t.draws = s.draws

/-- The owner's step on channel `c`: the units of that channel are related by `R`, every other unit
is the same. -/
def OnChannelOnly (c : Nat) (R : ChannelUnit → ChannelUnit → Prop) (s t : State) : Prop :=
  List.Forall₂ (fun u w => (u.chan = c → R u w) ∧ (u.chan ≠ c → w = u)) s.units t.units

/-- The fault records among these events, oldest first (spec/60_exceptions.md R255). -/
def faultRecords (es : List Event) : List (FaultKind × MethodIndex × Word) :=
  es.filterMap fun e =>
    match e.kind with
    | .fault k i a => some (k, i, a)
    | _ => none

/-- The one fault a method raises in the unit `u`, or none, by the fixed order of checks of
spec/60_exceptions.md R253. -/
def expectedFaults (p : Params) (u : ChannelUnit) (index : MethodIndex) (arg : Word) :
    List (FaultKind × MethodIndex × Word) :=
  let op : BitVec 5 := arg.extractLsb' 0 5
  if 64 ≤ index.toNat then [(.outOfRangeMethod, index, arg)]
  else if index = 1 then [(.illegalMethod, 1, arg)]
  else if index = 7 ∧ (op.toNat ∉ [1, 2, 4, 8, 16] ∨ 8 ≤ (arg.extractLsb' 27 4).toNat) then
    [(.unsupportedOperation, 7, arg)]
  else if index = 7 ∧ op.toNat ∈ [2, 16] ∧ arg.extractLsb' 24 1 = 0 ∧
      (u.peek 5).extractLsb' 2 2 ≠ 0 then
    [(.unsupportedOperation, 7, arg)]
  else if index = 29 ∧ p.numSyncpt ≤ (arg.extractLsb' 8 12).toNat then
    [(.unsupportedOperation, 29, arg)]
  else []

/-! ## Waits, and the fairness of runs (spec/70_reset_and_hazards.md R304) -/

/-- The predicate of an acquire, operation 1, 4 or 8, on the value read and the payload
(spec/42_semaphore.md R160 to R162), written without the poll. -/
def PollSatisfied (order : AcqGeqOrder) (op : BitVec 5) (v p : Word) : Prop :=
  (op = 1 ∧ v = p) ∨
  (op = 4 ∧ match order with
    | .unsigned => p.toNat ≤ v.toNat
    | .signed => p.toInt ≤ v.toInt
    | .circular => (v - p).toNat < 2 ^ 31) ∨
  (op = 8 ∧ v &&& p ≠ 0)

/-- The condition of the wait that pends in `w`, if one does, is true. -/
def WaitSatisfied (s : State) (w : ChannelUnit) : Prop :=
  (w.fsm = .semWait → PollSatisfied s.params.acqGeqOrder ((w.peek 7).extractLsb' 0 5)
    (s.mem.readWord w.semAddress) (w.peek 6)) ∧
  (w.fsm = .syncptWait →
    (w.peek 28).toNat ≤ (s.syncpts.read ((w.peek 29).extractLsb' 8 12)).toNat)

/-- A step of the unit is enabled: the writing of a word it issued, a poll, a test, or the acceptance of
a presented method (R8(a)). -/
def TurnEnabled (s : State) (u : ChannelUnit) : Prop :=
  s.awaitsMemory u.chan = true ∨ u.fsm = .semWait ∨ u.fsm = .syncptWait ∨
    (u.fsm = .idle ∧ u.port ≠ [])

/-- An endless run: in the state `σ n` the agents do `choice n` next. -/
def IsRun (σ : Nat → State) (choice : Nat → Input) : Prop :=
  ∀ n, step { σ n with inputs := [choice n] } = .next (σ (n + 1))

/-- Weak fairness of the units' own steps (R304): a unit of which a step stays enabled from some
point on takes a step after that point. -/
def WeaklyFair (σ : Nat → State) (choice : Nat → Input) : Prop :=
  ∀ c n, (∀ k, n ≤ k → ∃ u ∈ (σ k).units, u.chan = c ∧ TurnEnabled (σ k) u) →
    ∃ k, n ≤ k ∧ choice k = .turn c

/-! ## The invariant -/

/-- A wait that pends is one a method began (spec/10_state.md R50): in SEM_WAIT the stored control
word is an acquire with a defined reduction; in SYNCPT_WAIT it is a Wait on a counter that exists,
with the switch enabled unless `WAIT_DIS_BLOCKS`. -/
def WaitLegal (p : Params) (u : ChannelUnit) : Prop :=
  (u.fsm = .semWait →
    (u.semOperation = 1 ∨ u.semOperation = 4 ∨ u.semOperation = 8) ∧
      (u.peek 7).extractLsb' 30 1 = 0) ∧
  (u.fsm = .syncptWait →
    (u.peek 29).extractLsb' 0 1 = 0 ∧ u.waitIndex.toNat < p.numSyncpt ∧
      ((u.peek 29).extractLsb' 4 1 = 1 ∨ p.waitDisBlocks = true))

/-- The invariant every step keeps. -/
structure Inv (s : State) : Prop where
  /-- The memory is in its canonical form. -/
  memory : s.mem.wf
  /-- The bank is in its canonical form: only counters that exist are listed. -/
  counters : s.syncpts.wf s.params.numSyncpt
  /-- `NUM_SYNCPT` is 1 to 4096 (spec/00_scope.md R5). -/
  numSyncpt : 1 ≤ s.params.numSyncpt ∧ s.params.numSyncpt ≤ 4096
  /-- No two units have the same channel number. -/
  channels : (s.units.map (·.chan)).Nodup
  /-- Every pending wait is one a method began. -/
  waits : ∀ u ∈ s.units, WaitLegal s.params u
  /-- Every word in flight is aligned, and the unit that issued it is IDLE: it accepts nothing. -/
  inFlight : ∀ w ∈ s.inFlight, w.addr.extractLsb' 0 2 = 0 ∧
    ∃ u ∈ s.units, u.chan = w.chan ∧ u.fsm = .idle

end Sys2Proof.Machine
end

