-- ==== Sys2Proof/Certificates/Slice0/Obligations.lean ====
section
/-! DEFINITION. The statements for the provers. Indices, field positions and values are written as
the numbers of spec/10_state.md and spec/30_encoding.md, not by the model's own names. -/

open Sys2Proof Sys2Proof.Machine

/-! ## Encoding -/

/-- Every method is read back from its own transaction (spec/30_encoding.md R90, R94). -/
def Obligations.DecodeInvertsEncode : Prop :=
  ∀ i : Instr, i.wellFormed = true → decode (encode i) = i

/-- Every transaction is the transaction of the method read from it: no bit of the index or of the
argument is dropped, and what is read is a method of the map (R90, R91). -/
def Obligations.EncodeInvertsDecode : Prop :=
  ∀ m : Method, (decode m).wellFormed = true ∧ encode (decode m) = m

/-- R94: the map has 33 mnemonics; its 76 rows are disjoint and cover every transaction, and the row
a transaction selects names the method the decoder reads. -/
def Obligations.EachTransactionSelectsOneRow : Prop :=
  (∀ m : Method,
    (opcodeTable.filter fun r => r.selects m).map (·.mnemonic) = [(decode m).mnemonic]) ∧
  opcodeTable.length = 76 ∧ (opcodeTable.map (·.mnemonic)).dedup.length = 33 ∧
  opcodeTable.countP (fun r => r.mnemonic == "UNIMPL") = 12 ∧
  opcodeTable.countP (fun r => r.mnemonic == "OOR") = 6 ∧
  opcodeTable.countP (fun r => r.mnemonic == "SEM_RESERVED") = 28

/-- Transactions of spec/95_test_vectors.md and the methods they stand for. -/
def Obligations.SampleTransactionsDecode : Prop :=
  decode 0x000001CB197 = .setObject 0xB197 28 0 ∧
  decode 0x00534567890 = .semaphoreB 0x0D159E24 0 ∧
  decode 0x00781100002 =
    .semRelease .min ⟨0, .disabled, 0, .disabled, 0, .fourBytes, 0, .unsigned⟩ ∧
  decode 0x007B1100010 = .semRedInc ⟨0, .disabled, 0, .disabled, 0, .fourBytes, 0, .unsigned⟩ ∧
  decode 0x00D08000000 = .memOpD 0x08000000 ∧
  decode 0x01D000FFF01 = .syncptIncr .disabled ⟨0, 0, 4095, 0⟩ ∧
  decode 0x01EFFFFFFFE = .wfi .currentScgType 0x7FFFFFFF ∧
  decode 0x03F12345678 = .unimpl 63 0x12345678 ∧
  decode 0x040DEADBEEF = .oor 64 0xDEADBEEF

/-- R28: where each field of a SEMAPHORE_D argument lies and the value of each member, those of
`operation` and `reduction` as the arguments of the methods they belong to. -/
def Obligations.SemaphoreControlFieldPositions : Prop :=
  (∀ (op : BitVec 5) (red : BitVec 4) (c : SemControl),
    let w := semaphoreDWord op red c
    w.extractLsb' 0 5 = op ∧ w.extractLsb' 27 4 = red ∧
    w.extractLsb' 12 1 = (if c.acquireSwitch = .enabled then 1 else 0) ∧
    w.extractLsb' 20 1 = (if c.releaseWfi = .disabled then 1 else 0) ∧
    w.extractLsb' 24 1 = (if c.releaseSize = .fourBytes then 1 else 0) ∧
    w.extractLsb' 31 1 = (if c.format = .unsigned then 1 else 0) ∧
    w.extractLsb' 5 7 = c.padLow ∧ w.extractLsb' 13 7 = c.padMid ∧
    w.extractLsb' 21 3 = c.padHigh ∧ w.extractLsb' 25 2 = c.padTop) ∧
  (∀ (red : ReductionOp) (c : SemControl),
    let number : BitVec 4 := match red with
      | .min => 0 | .max => 1 | .xor => 2 | .and => 3 | .or => 4 | .add => 5 | .inc => 6 | .dec => 7
    (Instr.semAcquire red c).argument = semaphoreDWord 1 number c ∧
    (Instr.semRelease red c).argument = semaphoreDWord 2 number c ∧
    (Instr.semAcqGeq red c).argument = semaphoreDWord 4 number c ∧
    (Instr.semAcqAnd red c).argument = semaphoreDWord 8 number c) ∧
  ∀ c : SemControl,
    (Instr.semRedMin c).argument = semaphoreDWord 16 0 c ∧
    (Instr.semRedMax c).argument = semaphoreDWord 16 1 c ∧
    (Instr.semRedXor c).argument = semaphoreDWord 16 2 c ∧
    (Instr.semRedAnd c).argument = semaphoreDWord 16 3 c ∧
    (Instr.semRedOr c).argument = semaphoreDWord 16 4 c ∧
    (Instr.semRedAdd c).argument = semaphoreDWord 16 5 c ∧
    (Instr.semRedInc c).argument = semaphoreDWord 16 6 c ∧
    (Instr.semRedDec c).argument = semaphoreDWord 16 7 c

/-- R33: where each field of a SYNCPOINT_B argument lies and the value of each member, those of
`operation` and `waitSwitch` as the arguments of the three methods too. -/
def Obligations.SyncpointControlFieldPositions : Prop :=
  (∀ (op : BitVec 1) (sw : Switch) (c : SyncptControl),
    let w := syncpointBWord op sw c
    w.extractLsb' 0 1 = op ∧ w.extractLsb' 4 1 = (if sw = .enabled then 1 else 0) ∧
    w.extractLsb' 8 12 = c.index ∧
    w.extractLsb' 1 3 = c.padLow ∧ w.extractLsb' 5 3 = c.padMid ∧ w.extractLsb' 20 12 = c.padHigh) ∧
  ∀ (sw : Switch) (c : SyncptControl),
    (Instr.syncptIncr sw c).argument = syncpointBWord 1 sw c ∧
    (Instr.syncptWait c).argument = syncpointBWord 0 .enabled c ∧
    (Instr.syncptWaitNoswitch c).argument = syncpointBWord 0 .disabled c

/-! ## The step and the dispatcher -/

/-- A step in which a ready unit moves with a method presented is the execution of the decoded
method, by that unit, once it has the turn. Three points are the model's own, not the spec's: the unit
moves when the first input gives it the turn, or, with no input left, when it has waited longest
(log 7); the presented methods are a list, of which the rest stays presented (log 8); the Write is
recorded before the events of its method (log 11). -/
def Obligations.StepRunsDecodedMethod : Prop :=
  ∀ (s : State) (u : ChannelUnit) (m : Method) (rest : List Method) (i : Instr),
    Moves s u → s.methodReady u = true → u.port = m :: rest → decode m = i →
    ∃ v, TurnTaken s u v ∧ step s = exec i { v with
      active := { u with port := rest }
      events := s.events ++
        [⟨u.chan, .write (m.extractLsb' 32 12) (m.extractLsb' 0 32)⟩] }

/-- `mthd_ready` is true exactly in IDLE with no word of an earlier write of the unit in flight; a unit
that is not IDLE accepts nothing when it moves: its port and its words, memory, the counters and the
other units stay, and no Write is recorded; a FATAL unit does nothing at all (R51, R57, R120, R251).
That no other request outlives its step is the model's choice (log 10); that a FATAL unit can have the
turn is too (log 9). The turn of a unit with words in flight is WordsInFlightAreWrittenOneByOne. -/
def Obligations.BlockedUnitHoldsItsMethod : Prop :=
  (∀ (s : State) (u : ChannelUnit), s.methodReady u = true ↔
    u.fsm = .idle ∧ ∀ w ∈ s.inFlight, w.chan ≠ u.chan) ∧
  ∀ (s : State) (u : ChannelUnit), Moves s u → u.fsm ≠ .idle →
    (∀ w ∈ s.inFlight, w.chan ≠ u.chan) →
    ∃ t, step s = .next t ∧ TurnKept s u t ∧ t.active.port = u.port ∧
      (∀ j, t.active.peek j = u.peek j) ∧ MemoryKept s t ∧ CountersKept s t ∧ t.draws = s.draws ∧
      (∀ e ∈ t.events, (∃ i a, e.kind = .write i a) → e ∈ s.events) ∧
      (u.fsm = .fatal → t.active = u ∧ t.events = s.events)

/-- R122: every accepted Write with an index below 64 stores its argument in the word addressed and
changes no other word, of its own unit or of another, whatever the slot and whatever the argument. -/
def Obligations.AcceptedMethodStoresItsArgument : Prop :=
  ∀ (s : State) (u : ChannelUnit) (m : Method) (rest : List Method),
    Moves s u → s.methodReady u = true → u.port = m :: rest → (m.extractLsb' 32 12).toNat < 64 →
    ∃ t, step s = .next t ∧ t.active.chan = u.chan ∧ (u :: t.parked).Perm s.units ∧
      t.active.peek (m.extractLsb' 32 6) = m.extractLsb' 0 32 ∧
      ∀ j, j ≠ m.extractLsb' 32 6 → t.active.peek j = u.peek j

/-- R121: an out-of-range index reports the fatal fault, stores nothing and stops the unit. -/
def Obligations.OutOfRangeMethodIsFatal : Prop :=
  ∀ (index : MethodIndex) (arg : Word) (s : State),
    (64 ≤ index.toNat → decode (methodWord index.toNat arg) = .oor index arg) ∧
    ∃ t, exec (.oor index arg) s = .next t ∧ SlotsKept s t ∧ t.active.fsm = .fatal ∧
      Emitted s t [.fault .outOfRangeMethod index arg] ∧ MemoryKept s t ∧ CountersKept s t ∧
      t.draws = s.draws ∧ SurroundingsKept s t

/-- A unit in FATAL keeps its words and stays in FATAL at every step but a Reset of its channel
(R40, R251). -/
def Obligations.FatalUnitLeftOnlyByReset : Prop :=
  ∀ (s t : State) (u : ChannelUnit), u ∈ s.units → u.fsm = .fatal → step s = .next t →
    (∃ later, s.inputs = .reset u.chan :: later) ∨
    ∃ w ∈ t.units, w.chan = u.chan ∧ w.raw = u.raw ∧ w.fsm = .fatal

/-- R125: a write to one of the 47 unimplemented slots stores and does nothing else. -/
def Obligations.UnimplementedSlotStoresOnly : Prop :=
  ∀ (slot : SlotIndex) (arg : Word) (s : State),
    slot.toNat ∈ [3, 10, 11, 14, 15, 16, 17, 18, 19, 21, 22, 23, 24, 25, 26, 27] ∨
      33 ≤ slot.toNat →
    decode (methodWord slot.toNat arg) = .unimpl slot arg ∧
    ∃ t, exec (.unimpl slot arg) s = .next t ∧ RegisterOnly s t slot arg s.active.fsm []

/-! ## SET_OBJECT, ILLEGAL, NOP -/

/-- R140: the argument is stored, no event, and the status outputs show class and engine. -/
def Obligations.SetObjectBindsClassAndEngine : Prop :=
  ∀ (nvClass : BitVec 16) (engine : BitVec 5) (pad : BitVec 11) (s : State),
    let i := Instr.setObject nvClass engine pad
    i.argument.toNat = pad.toNat * 2 ^ 21 + engine.toNat * 2 ^ 16 + nvClass.toNat ∧
    decode (methodWord 0 i.argument) = i ∧
    ∃ t, exec i s = .next t ∧ RegisterOnly s t 0 i.argument s.active.fsm [] ∧
      t.active.boundClass = nvClass ∧ t.active.boundEngine = engine

/-- R141: the argument is stored and exactly one IllegalMethod fault is reported. -/
def Obligations.IllegalReportsOneFault : Prop :=
  ∀ (arg : Word) (s : State), decode (methodWord 1 arg) = .illegal arg ∧
    ∃ t, exec (.illegal arg) s = .next t ∧
      RegisterOnly s t 1 arg s.active.fsm [.fault .illegalMethod 1 arg]

/-- R142: the store and nothing else. -/
def Obligations.NopStoresOnly : Prop :=
  ∀ (arg : Word) (s : State), decode (methodWord 2 arg) = .nop arg ∧
    ∃ t, exec (.nop arg) s = .next t ∧ RegisterOnly s t 2 arg s.active.fsm []

/-! ## The semaphore descriptor -/

/-- R150 to R152: SEMAPHORE_A, SEMAPHORE_B and SEMAPHORE_C store their word and do nothing else. -/
def Obligations.SemaphoreOperandWordsStoreOnly : Prop :=
  (∀ (upper : BitVec 8) (pad : BitVec 24) (s : State),
    let i := Instr.semaphoreA upper pad
    i.argument.toNat = pad.toNat * 2 ^ 8 + upper.toNat ∧ decode (methodWord 4 i.argument) = i ∧
    ∃ t, exec i s = .next t ∧ RegisterOnly s t 4 i.argument s.active.fsm []) ∧
  (∀ (lower : BitVec 30) (pad : BitVec 2) (s : State),
    let i := Instr.semaphoreB lower pad
    i.argument.toNat = lower.toNat * 4 + pad.toNat ∧ decode (methodWord 5 i.argument) = i ∧
    ∃ t, exec i s = .next t ∧ RegisterOnly s t 5 i.argument s.active.fsm []) ∧
  (∀ (payload : Word) (s : State), decode (methodWord 6 payload) = .semaphoreC payload ∧
    ∃ t, exec (.semaphoreC payload) s = .next t ∧ RegisterOnly s t 6 payload s.active.fsm [])

/-- R61: the address is offsetUpper, offsetLower and two zero bits; no other bit of the two slots
enters it. -/
def Obligations.SemaphoreAddressFormation : Prop :=
  ∀ s : State, s.semAddress.toNat =
    (s.slot 4).toNat % 2 ^ 8 * 2 ^ 32 + (s.slot 5).toNat / 4 * 4

/-- The three acquires store the control word and suspend the channel; no event, no memory access;
the outputs show the wait and its switch (R160, R161, R162, R169, R44). -/
def Obligations.AcquireSuspendsTheChannel : Prop :=
  ∀ (red : ReductionOp) (c : SemControl) (s : State),
    ∀ i ∈ [Instr.semAcquire red c, Instr.semAcqGeq red c, Instr.semAcqAnd red c],
      decode (methodWord 7 i.argument) = i ∧
      ∃ t, exec i s = .next t ∧ RegisterOnly s t 7 i.argument .semWait [] ∧
        t.active.blocked = true ∧ t.active.waitKind = some .sem ∧
        t.active.switchHint = (if c.acquireSwitch = .enabled then 1 else 0)

/-- One poll of a pending acquire, by whichever unit moves, reads the word once and writes nothing but
`fsm`, which becomes IDLE exactly when the value read satisfies the predicate of the pending operation,
in the order of the parameter for AcqGeq (R160 to R163). No word of a waiting unit is in flight in a
state that meets the invariant. -/
def Obligations.PollEndsWaitExactlyWhenSatisfied : Prop :=
  ∀ (s : State) (u : ChannelUnit), Moves s u → u.fsm = .semWait →
    (∀ w ∈ s.inFlight, w.chan ≠ u.chan) →
    let v := s.mem.readWord u.semAddress
    let p := u.peek 6
    let op : BitVec 5 := (u.peek 7).extractLsb' 0 5
    ∃ t, step s = .next t ∧ WaitStep s u (.memRead u.semAddress v) t ∧
      (t.active.fsm = .idle ∨ t.active.fsm = .semWait) ∧
      (op = 1 → (t.active.fsm = .idle ↔ v = p)) ∧
      (op = 4 → s.params.acqGeqOrder = .unsigned → (t.active.fsm = .idle ↔ p.toNat ≤ v.toNat)) ∧
      (op = 4 → s.params.acqGeqOrder = .signed → (t.active.fsm = .idle ↔ p.toInt ≤ v.toInt)) ∧
      (op = 4 → s.params.acqGeqOrder = .circular →
        (t.active.fsm = .idle ↔ (v - p).toNat < 2 ^ 31)) ∧
      (op = 8 → (t.active.fsm = .idle ↔ v &&& p ≠ 0))

/-- The three orders of AcqGeq agree on values below 2^31, so a claim about such values need not
name the parameter (R161 and the note after vector Q-13). -/
def Obligations.AcqGeqOrdersAgreeBelowSignBit : Prop :=
  ∀ v p : Word, v.toNat < 2 ^ 31 → p.toNat < 2 ^ 31 →
    geq .signed v p = geq .unsigned v p ∧ geq .circular v p = geq .unsigned v p

/-- A 4-byte release writes the payload to the address, once, and nothing else; it reads nothing and
does not block, whatever `acquireSwitch`, `reduction` and `format` (R165, R154, R169). -/
def Obligations.ReleaseFourBytesWritesPayload : Prop :=
  ∀ (red : ReductionOp) (c : SemControl) (s : State), c.releaseSize = .fourBytes →
    let i := Instr.semRelease red c
    decode (methodWord 7 i.argument) = i ∧
    ∃ t, exec i s = .next t ∧ SlotWritten s t 7 i.argument ∧ t.active.fsm = s.active.fsm ∧
      t.mem.readWord s.semAddress = s.slot 6 ∧ MemoryKeptOutside s t s.semAddress 4 ∧
      t.inFlight = s.inFlight ∧
      Emitted s t [.memWrite s.semAddress [s.slot 6] (c.releaseWfi == .enabled)] ∧
      CountersKept s t ∧ t.draws = s.draws ∧ SurroundingsKept s t

/-- An aligned 16-byte release issues one request of four words, the payload, 0 and a 64-bit timestamp,
low word first, and writes none of them yet; the timestamp is the free value of log 3, a new one each
time. Written in any order, the four words stand at the address, and no other byte has changed (R165,
R67, R68(c)). That the words are in flight as data of the state is the model's form (log 10). -/
def Obligations.ReleaseSixteenBytesWritesFourWords : Prop :=
  ∀ (red : ReductionOp) (c : SemControl) (s : State),
    c.releaseSize = .sixteenBytes → (s.slot 5).extractLsb' 2 2 = 0 →
    let i := Instr.semRelease red c
    let a := s.semAddress
    let lo : Word := s.nextTimestamp.extractLsb' 0 32
    let hi : Word := s.nextTimestamp.extractLsb' 32 32
    decode (methodWord 7 i.argument) = i ∧
    ∃ t, exec i s = .next t ∧ SlotWritten s t 7 i.argument ∧ t.active.fsm = s.active.fsm ∧
      (∀ b, t.mem.readByte b = s.mem.readByte b) ∧
      t.inFlight = s.inFlight ++
        [⟨s.active.chan, a, s.slot 6⟩, ⟨s.active.chan, a + 4, 0⟩, ⟨s.active.chan, a + 8, lo⟩,
         ⟨s.active.chan, a + 12, hi⟩] ∧
      Emitted s t [.memWrite a [s.slot 6, 0, lo, hi] (c.releaseWfi == .enabled)] ∧
      CountersKept s t ∧ t.draws = s.draws + 1 ∧ SurroundingsKept s t ∧
      ∀ j k l, j < 4 → k < 3 → l < 2 → s.inFlight = [] →
        s.inputs = [.memPerform j, .memPerform k, .memPerform l, .memPerform 0] →
        ∃ r : State, Host.Core.run Sys2Proof.core 4 t = .next r ∧ r.inFlight = [] ∧
          r.mem.readWord a = s.slot 6 ∧ r.mem.readWord (a + 4) = 0 ∧
          r.mem.readWord (a + 8) = lo ∧ r.mem.readWord (a + 12) = hi ∧ MemoryKeptOutside s r a 16

/-- R166: a 16-byte release or reduction at an address that is not a multiple of 16 stores the
control word, makes no memory access and reports one UnsupportedOperation fault. -/
def Obligations.MisalignedSixteenByteAccessFaults : Prop :=
  ∀ (red : ReductionOp) (c : SemControl) (s : State),
    c.releaseSize = .sixteenBytes → (s.slot 5).extractLsb' 2 2 ≠ 0 →
    ∀ i ∈ [Instr.semRelease red c, Instr.semRedMin c, Instr.semRedMax c, Instr.semRedXor c,
        Instr.semRedAnd c, Instr.semRedOr c, Instr.semRedAdd c, Instr.semRedInc c,
        Instr.semRedDec c],
      ∃ t, exec i s = .next t ∧ RegisterOnly s t 7 i.argument s.active.fsm
        [.fault .unsupportedOperation 7 i.argument]

/-- SEM_RED_MIN and SEM_RED_MAX: the smaller and the larger of the old word and the payload, in the
order `format` selects (R167, R168, R170, R171). -/
def Obligations.MinMaxReductions : Prop :=
  ∀ (c : SemControl) (s : State), SizeAllowed s c →
    let p := s.slot 6
    (decode (methodWord 7 (Instr.semRedMin c).argument) = .semRedMin c ∧
      ∃ t, exec (.semRedMin c) s = .next t ∧
        Reduced s t .min c (Instr.semRedMin c).argument fun old =>
          if c.format = .unsigned then (if old.toNat ≤ p.toNat then old else p)
          else (if old.toInt ≤ p.toInt then old else p)) ∧
    (decode (methodWord 7 (Instr.semRedMax c).argument) = .semRedMax c ∧
      ∃ t, exec (.semRedMax c) s = .next t ∧
        Reduced s t .max c (Instr.semRedMax c).argument fun old =>
          if c.format = .unsigned then (if p.toNat ≤ old.toNat then old else p)
          else (if p.toInt ≤ old.toInt then old else p))

/-- SEM_RED_XOR, SEM_RED_AND, SEM_RED_OR and SEM_RED_ADD, whatever `format` (R167, R168, R172 to
R175). -/
def Obligations.BitwiseAndAddReductions : Prop :=
  ∀ (c : SemControl) (s : State), SizeAllowed s c →
    let p := s.slot 6
    (decode (methodWord 7 (Instr.semRedXor c).argument) = .semRedXor c ∧
      ∃ t, exec (.semRedXor c) s = .next t ∧
        Reduced s t .xor c (Instr.semRedXor c).argument fun old => old ^^^ p) ∧
    (decode (methodWord 7 (Instr.semRedAnd c).argument) = .semRedAnd c ∧
      ∃ t, exec (.semRedAnd c) s = .next t ∧
        Reduced s t .and c (Instr.semRedAnd c).argument fun old => old &&& p) ∧
    (decode (methodWord 7 (Instr.semRedOr c).argument) = .semRedOr c ∧
      ∃ t, exec (.semRedOr c) s = .next t ∧
        Reduced s t .or c (Instr.semRedOr c).argument fun old => old ||| p) ∧
    (decode (methodWord 7 (Instr.semRedAdd c).argument) = .semRedAdd c ∧
      ∃ t, exec (.semRedAdd c) s = .next t ∧
        Reduced s t .add c (Instr.semRedAdd c).argument fun old =>
          BitVec.ofNat 32 ((old.toNat + p.toNat) % 2 ^ 32))

/-- SEM_RED_INC wraps to 0 after reaching the payload, SEM_RED_DEC wraps to the payload after
reaching 0; the comparisons are unsigned whatever `format` (R167, R168, R176, R177). -/
def Obligations.IncDecReductions : Prop :=
  ∀ (c : SemControl) (s : State), SizeAllowed s c →
    let p := s.slot 6
    (decode (methodWord 7 (Instr.semRedInc c).argument) = .semRedInc c ∧
      ∃ t, exec (.semRedInc c) s = .next t ∧
        Reduced s t .inc c (Instr.semRedInc c).argument fun old =>
          if p.toNat ≤ old.toNat then 0 else BitVec.ofNat 32 (old.toNat + 1)) ∧
    (decode (methodWord 7 (Instr.semRedDec c).argument) = .semRedDec c ∧
      ∃ t, exec (.semRedDec c) s = .next t ∧
        Reduced s t .dec c (Instr.semRedDec c).argument fun old =>
          if old.toNat = 0 ∨ p.toNat < old.toNat then p else BitVec.ofNat 32 (old.toNat - 1))

/-- R155: a reserved operation or a reserved reduction is stored, reports exactly one
UnsupportedOperation fault, makes no memory access and leaves `fsm` alone. -/
def Obligations.ReservedControlReportsOneFault : Prop :=
  ∀ (op : BitVec 5) (red : BitVec 4) (c : SemControl) (s : State),
    op.toNat ∉ [1, 2, 4, 8, 16] ∨ 8 ≤ red.toNat →
    let i := Instr.semReserved op red c
    decode (methodWord 7 i.argument) = i ∧
    ∃ t, exec i s = .next t ∧ RegisterOnly s t 7 i.argument s.active.fsm
      [.fault .unsupportedOperation 7 i.argument]

/-! ## Triggers, the memory-operation pair, the reference value -/

/-- NON_STALL_INTERRUPT and FB_FLUSH store and emit one notification, which does not carry the
argument, and do not wait (R190, R191). -/
def Obligations.InterruptAndFlushNotifyOnly : Prop :=
  ∀ (arg : Word) (s : State),
    (decode (methodWord 8 arg) = .nonStallInterrupt arg ∧
      ∃ t, exec (.nonStallInterrupt arg) s = .next t ∧
        RegisterOnly s t 8 arg s.active.fsm [.nonStallInterrupt]) ∧
    (decode (methodWord 9 arg) = .fbFlush arg ∧
      ∃ t, exec (.fbFlush arg) s = .next t ∧ RegisterOnly s t 9 arg s.active.fsm [.fbFlush])

/-- MEM_OP_C stores only; every MEM_OP_D stores and forwards one invalidation request with the scope
in bit 0 of slot 12 and both raw words (R192, R193). -/
def Obligations.MemOpPairForwardsInvalidation : Prop :=
  (∀ (scope : TlbScope) (rest : BitVec 31) (s : State),
    let i := Instr.memOpC scope rest
    i.argument.toNat = rest.toNat * 2 + (if scope = .all then 1 else 0) ∧
    decode (methodWord 12 i.argument) = i ∧
    ∃ t, exec i s = .next t ∧ RegisterOnly s t 12 i.argument s.active.fsm []) ∧
  (∀ (arg : Word) (s : State), decode (methodWord 13 arg) = .memOpD arg ∧
    ∃ t, exec (.memOpD arg) s = .next t ∧ RegisterOnly s t 13 arg s.active.fsm
      [.tlbInvalidate (if (s.slot 12).toNat % 2 = 1 then .all else .one) (s.slot 12) arg])

/-- R194: the marker is stored, no event, and the status output shows it. -/
def Obligations.SetReferenceShowsOnOutput : Prop :=
  ∀ (reference : Word) (s : State), decode (methodWord 20 reference) = .setReference reference ∧
    ∃ t, exec (.setReference reference) s = .next t ∧
      RegisterOnly s t 20 reference s.active.fsm [] ∧ t.active.reference = reference

/-! ## The syncpoint descriptor -/

/-- R210: the threshold is stored; no action. -/
def Obligations.SyncpointPayloadStoresOnly : Prop :=
  ∀ (payload : Word) (s : State), decode (methodWord 28 payload) = .syncpointA payload ∧
    ∃ t, exec (.syncpointA payload) s = .next t ∧ RegisterOnly s t 28 payload s.active.fsm []

/-- SYNCPT_INCR on a counter that exists adds 1 modulo 2^32 to that counter and changes no other; it
never blocks, whatever `waitSwitch` (R213). -/
def Obligations.SyncptIncrAddsOne : Prop :=
  ∀ (sw : Switch) (c : SyncptControl) (s : State), c.index.toNat < s.params.numSyncpt →
    let i := Instr.syncptIncr sw c
    decode (methodWord 29 i.argument) = i ∧
    ∃ t, exec i s = .next t ∧ SlotWritten s t 29 i.argument ∧ t.active.fsm = s.active.fsm ∧
      (t.syncpts.read c.index).toNat = ((s.syncpts.read c.index).toNat + 1) % 2 ^ 32 ∧
      (∀ j, j ≠ c.index → t.syncpts.read j = s.syncpts.read j) ∧
      Emitted s t [.syncptIncr c.index] ∧ MemoryKept s t ∧ t.draws = s.draws ∧
      SurroundingsKept s t

/-- R212: a syncpoint control word whose index names no counter is stored, reports one
UnsupportedOperation fault, reads and changes no counter, and begins no wait. -/
def Obligations.SyncptIndexOutOfRangeFaults : Prop :=
  ∀ (sw : Switch) (c : SyncptControl) (s : State), s.params.numSyncpt ≤ c.index.toNat →
    ∀ i ∈ [Instr.syncptIncr sw c, Instr.syncptWait c, Instr.syncptWaitNoswitch c],
      ∃ t, exec i s = .next t ∧ RegisterOnly s t 29 i.argument s.active.fsm
        [.fault .unsupportedOperation 29 i.argument]

/-- SYNCPT_WAIT on a counter that exists stores the control word and suspends the channel; the
outputs show the wait (R214, R218, R44). -/
def Obligations.SyncptWaitSuspendsTheChannel : Prop :=
  ∀ (c : SyncptControl) (s : State), c.index.toNat < s.params.numSyncpt →
    let i := Instr.syncptWait c
    decode (methodWord 29 i.argument) = i ∧
    ∃ t, exec i s = .next t ∧ RegisterOnly s t 29 i.argument .syncptWait [] ∧
      t.active.blocked = true ∧ t.active.waitKind = some .syncpt ∧ t.active.switchHint = 1

/-- SYNCPT_WAIT_NOSWITCH on a counter that exists blocks exactly when the parameter
`WAIT_DIS_BLOCKS` is true; otherwise it only stores. No counter is read either way (R215). -/
def Obligations.NoswitchWaitFollowsParameter : Prop :=
  ∀ (c : SyncptControl) (s : State), c.index.toNat < s.params.numSyncpt →
    let i := Instr.syncptWaitNoswitch c
    decode (methodWord 29 i.argument) = i ∧
    (s.params.waitDisBlocks = true → ∃ t, exec i s = .next t ∧
      RegisterOnly s t 29 i.argument .syncptWait [] ∧ t.active.switchHint = 0) ∧
    (s.params.waitDisBlocks = false → ∃ t, exec i s = .next t ∧
      RegisterOnly s t 29 i.argument s.active.fsm [])

/-- R216: one test of a pending wait, by whichever unit moves, reads the counter once and writes
nothing but `fsm`, which becomes IDLE exactly when the counter has reached the threshold, as unsigned
numbers. No word of a waiting unit is in flight in a state that meets the invariant. -/
def Obligations.TestEndsWaitExactlyWhenReached : Prop :=
  ∀ (s : State) (u : ChannelUnit), Moves s u → u.fsm = .syncptWait →
    (∀ w ∈ s.inFlight, w.chan ≠ u.chan) →
    let i : SyncptIndex := (u.peek 29).extractLsb' 8 12
    ∃ t, step s = .next t ∧ WaitStep s u (.syncptRead i (s.syncpts.read i)) t ∧
      ((u.peek 28).toNat ≤ (s.syncpts.read i).toNat → t.active.fsm = .idle) ∧
      ((s.syncpts.read i).toNat < (u.peek 28).toNat → t.active.fsm = .syncptWait)

/-! ## WFI, CRC_CHECK, YIELD -/

/-- WFI, CRC_CHECK and YIELD store and forward one request; none makes the unit wait, and pad bits
do not change the request (R230, R231, R232). -/
def Obligations.WfiCrcYieldForwardRequests : Prop :=
  (∀ (scope : WfiScope) (pad : BitVec 31) (s : State),
    let i := Instr.wfi scope pad
    i.argument.toNat = pad.toNat * 2 + (if scope = .all then 1 else 0) ∧
    decode (methodWord 30 i.argument) = i ∧
    ∃ t, exec i s = .next t ∧ RegisterOnly s t 30 i.argument s.active.fsm [.waitForIdle scope]) ∧
  (∀ (crc : Word) (s : State), decode (methodWord 31 crc) = .crcCheck crc ∧
    ∃ t, exec (.crcCheck crc) s = .next t ∧
      RegisterOnly s t 31 crc s.active.fsm [.crcCheck crc]) ∧
  (∀ (op : YieldOp) (pad : BitVec 30) (s : State),
    let i := Instr.yield op pad
    i.argument.toNat = pad.toNat * 4 +
      (match op with | .nop => 0 | .pbdmaTimeslice => 1 | .runlistTimeslice => 2 | .tsg => 3) ∧
    decode (methodWord 32 i.argument) = i ∧
    ∃ t, exec i s = .next t ∧ RegisterOnly s t 32 i.argument s.active.fsm [.yield op])

/-! ## Writes of several words -/

/-- The words of a 16-byte or 12-byte write are written one at a time: the memory collaborator writes
any of those in flight, and the turn of a unit that has issued some writes the oldest of its own and
accepts no method (R57, R68(c), R68(d)). So accesses of other agents fall between them, and two units
that write one block may leave words of both (R301). That a unit's turn stands for the collaborator,
and that its words stay in flight over a Reset, is the model's (log 10). -/
def Obligations.WordsInFlightAreWrittenOneByOne : Prop :=
  ∀ (s : State) (before after : List WordWrite) (w : WordWrite),
    s.inFlight = before ++ w :: after →
    (∀ later, s.inputs = .memPerform before.length :: later →
      ∃ t, step s = .next t ∧ Landed s t before.length w ∧ t.inFlight = before ++ after ∧
        t.active = s.active ∧ t.parked = s.parked ∧ t.inputs = later) ∧
    (∀ u, Moves s u → w.chan = u.chan → (∀ x ∈ before, x.chan ≠ u.chan) →
      ∃ t, step s = .next t ∧ Landed s t before.length w ∧ t.inFlight = before ++ after ∧
        TurnKept s u t ∧ t.active = u)

/-! ## Reset, Cancel, the other inputs -/

/-- R49: after Reset every word is 0 and the unit is IDLE, and the status outputs are 0, none or
false. That the event history of the machine at launch is empty is the model's choice (log 21). -/
def Obligations.ResetStateIsZeroAndIdle : Prop :=
  (∀ i, State.reset.slot i = 0) ∧ State.reset.active.fsm = .idle ∧ State.reset.events = [] ∧
  State.reset.active.boundClass = 0 ∧ State.reset.active.boundEngine = 0 ∧
  State.reset.active.reference = 0 ∧ State.reset.active.blocked = false ∧
  State.reset.active.waitKind = none ∧ State.reset.active.switchHint = 0 ∧
  State.reset.active.fatal = false

/-- Reset of a channel, in every control state: its 64 words become 0 and it is IDLE; memory, the
counters and every other unit stay, the past of the history stays and the Reset is recorded (R290,
R291). That the methods presented stay presented is the model's choice (log 8), and so is that words in
flight stay in flight (log 10). -/
def Obligations.ResetInputClearsOneUnit : Prop :=
  ∀ (s : State) (c : Nat) (later : List Input), s.inputs = .reset c :: later →
    (∃ u ∈ s.units, u.chan = c) →
    ∃ t, step s = .next t ∧
      OnChannelOnly c (fun u w => (∀ j, w.peek j = 0) ∧ w.fsm = .idle ∧ w.chan = u.chan ∧
        w.port = u.port) s t ∧
      MemoryKept s t ∧ CountersKept s t ∧ t.events = s.events ++ [⟨c, .reset⟩] ∧
      t.params = s.params ∧ t.draws = s.draws ∧ t.inputs = later

/-- Cancel of a channel: a pending wait ends, in IDLE and FATAL nothing happens; no register, no byte
of memory and no counter changes, and nothing but the Cancel itself is recorded (R262). That words in
flight stay in flight is the model's choice (log 10), and that the port stays is too (log 8). -/
def Obligations.CancelEndsPendingWaitOnly : Prop :=
  ∀ (s : State) (c : Nat) (later : List Input), s.inputs = .cancel c :: later →
    (∃ u ∈ s.units, u.chan = c) →
    ∃ t, step s = .next t ∧
      OnChannelOnly c (fun u w => w.raw = u.raw ∧ w.chan = u.chan ∧ w.port = u.port ∧
        (u.fsm = .fatal → w.fsm = .fatal) ∧ (u.fsm ≠ .fatal → w.fsm = .idle)) s t ∧
      MemoryKept s t ∧ CountersKept s t ∧ t.events = s.events ++ [⟨c, .cancel⟩] ∧
      t.params = s.params ∧ t.draws = s.draws ∧ t.inputs = later

/-- The owner presents a method behind those already presented and withdraws the one on the port;
nothing else changes (R51; that the port is a list is the model's, log 8). -/
def Obligations.PortInputsChangeOnePort : Prop :=
  ∀ (s : State) (c : Nat) (later : List Input), (∃ u ∈ s.units, u.chan = c) →
    (∀ m, s.inputs = .offer c m :: later → ∃ t, step s = .next t ∧
      OnChannelOnly c (fun u w => w = { u with port := u.port ++ [m] }) s t ∧
      MemoryKept s t ∧ CountersKept s t ∧ t.events = s.events ∧ t.params = s.params ∧
      t.draws = s.draws ∧ t.inputs = later) ∧
    (s.inputs = .withdraw c :: later → ∃ t, step s = .next t ∧
      OnChannelOnly c (fun u w => w = { u with port := u.port.tail }) s t ∧
      MemoryKept s t ∧ CountersKept s t ∧ t.events = s.events ∧ t.params = s.params ∧
      t.draws = s.draws ∧ t.inputs = later)

/-- The environment writes one byte of memory, or in one access those bytes of an aligned word whose
enables are set (all four: a 4-byte write, R68(a), R73), or increments one counter that exists, and
changes nothing else (R45, R46). That its accesses come one input at a time is the model's (log 7). -/
def Obligations.EnvironmentChangesOnePlace : Prop :=
  ∀ (s : State) (later : List Input),
    (∀ a v, s.inputs = .envWrite a v :: later → ∃ t, step s = .next t ∧
      t.mem.readByte a = v ∧ (∀ b, b ≠ a → t.mem.readByte b = s.mem.readByte b) ∧
      t.inFlight = s.inFlight ∧
      CountersKept s t ∧ t.units = s.units ∧ t.events = s.events ∧ t.params = s.params ∧
      t.draws = s.draws ∧ t.inputs = later) ∧
    (∀ n enables v, s.inputs = .envWriteWord n enables v :: later → ∃ t, step s = .next t ∧
      (∀ b : Address, t.mem.readByte b =
        if b.extractLsb' 2 38 = n ∧ enables.getLsbD (b.toNat % 4) = true
        then v.extractLsb' (8 * (b.toNat % 4)) 8 else s.mem.readByte b) ∧
      (∀ a : Address, a.toNat = 4 * n.toNat → enables = 15 → t.mem.readWord a = v) ∧
      t.inFlight = s.inFlight ∧
      CountersKept s t ∧ t.units = s.units ∧ t.events = s.events ∧ t.params = s.params ∧
      t.draws = s.draws ∧ t.inputs = later) ∧
    (∀ i, s.inputs = .envIncr i :: later → i.toNat < s.params.numSyncpt →
      ∃ t, step s = .next t ∧
      (t.syncpts.read i).toNat = ((s.syncpts.read i).toNat + 1) % 2 ^ 32 ∧
      (∀ j, j ≠ i → t.syncpts.read j = s.syncpts.read j) ∧
      MemoryKept s t ∧ t.units = s.units ∧ t.events = s.events ∧ t.params = s.params ∧
      t.draws = s.draws ∧ t.inputs = later)

/-- An input that names a channel no unit has, a counter at or above NUM_SYNCPT, or a word that is not
in flight, is none of the interface: the step stops with a fault that names it. The spec gives no such
input; that the model stops is its own choice (log 14). -/
def Obligations.InputsNamingNothingStop : Prop :=
  ∀ (s : State) (later : List Input),
    (∀ c, (∀ u ∈ s.units, u.chan ≠ c) →
      ∀ a, a = .turn c ∨ (∃ m, a = .offer c m) ∨ a = .withdraw c ∨ a = .cancel c ∨ a = .reset c →
        s.inputs = a :: later → step s = .fault (.noSuchChannel c)) ∧
    (∀ i, s.params.numSyncpt ≤ i.toNat → s.inputs = .envIncr i :: later →
      step s = .fault (.noSuchCounter i)) ∧
    (∀ k, s.inFlight.length ≤ k → s.inputs = .memPerform k :: later →
      step s = .fault (.noSuchWord k))

/-! ## Rules about the whole machine -/

/-- R253: an accepted Write raises at most one fault, decided by the first check that fires; the kinds
of its record have the codes 1, 2 and 3, never 0 (R250). -/
def Obligations.OneFaultPerMethodInFixedOrder : Prop :=
  (∀ (s : State) (u : ChannelUnit) (m : Method) (rest : List Method),
    Moves s u → s.methodReady u = true → u.port = m :: rest →
    ∃ t added, step s = .next t ∧ t.events = s.events ++ added ∧
      faultRecords added = expectedFaults s.params u (m.extractLsb' 32 12) (m.extractLsb' 0 32)) ∧
  FaultKind.outOfRangeMethod.code = 1 ∧ FaultKind.illegalMethod.code = 2 ∧
  FaultKind.unsupportedOperation.code = 3 ∧ ∀ k : FaultKind, k.code ≠ 0

/-- No step removes or changes an event once appended (R47, R255). -/
def Obligations.EventHistoryOnlyGrows : Prop :=
  ∀ s t : State, step s = .next t → s.events <+: t.events

/-- No step changes a parameter, and the channels of the system stay the same (R5, R48). -/
def Obligations.ParametersAndChannelsNeverChange : Prop :=
  ∀ s t : State, step s = .next t →
    t.params = s.params ∧ (t.units.map (·.chan)).Perm (s.units.map (·.chan))

/-- The machine after reset meets the invariant. -/
def Obligations.ResetMeetsInvariant : Prop := Inv State.reset

/-- Every step keeps the invariant, from every state that meets it, reached or not: memory and bank
in canonical form, NUM_SYNCPT in its range, distinct channels, every pending wait one that a method
began (R50), and every word in flight aligned and issued by a unit that is IDLE (R57, R61). -/
def Obligations.StepKeepsInvariant : Prop :=
  ∀ s t : State, Inv s → step s = .next t → Inv t

/-- A byte of memory changes only when the environment writes it, when a word in flight that holds it is
written, or when a unit accepts a release or a reduction at slot 7 (R60(b), R66, R68, R127). -/
def Obligations.MemoryChangesOnlyBySemaphoreOrEnvironment : Prop :=
  ∀ (s t : State) (a : Address), step s = .next t → t.mem.readByte a ≠ s.mem.readByte a →
    (∃ v later, s.inputs = .envWrite a v :: later) ∨
    (∃ enables v later, s.inputs = .envWriteWord (a.extractLsb' 2 38) enables v :: later ∧
      enables.getLsbD (a.toNat % 4) = true) ∨
    (∃ w ∈ s.inFlight, (a - w.addr).toNat < 4 ∧
      ((∃ k later, s.inputs = .memPerform k :: later ∧ s.inFlight[k]? = some w) ∨
        ∃ u, Moves s u ∧ u.chan = w.chan)) ∨
    ∃ u m rest, Moves s u ∧ s.methodReady u = true ∧ u.port = m :: rest ∧
      m.extractLsb' 32 12 = 7#12 ∧ (m.extractLsb' 0 5 = 2#5 ∨ m.extractLsb' 0 5 = 16#5)

/-- A counter changes only when the environment increments it or a unit accepts an Incr of it at
slot 29, and then by exactly 1 modulo 2^32 (R45, R60(c), R213). -/
def Obligations.CountersChangeOnlyByIncrement : Prop :=
  ∀ (s t : State) (i : SyncptIndex), step s = .next t → t.syncpts.read i ≠ s.syncpts.read i →
    t.syncpts.read i = s.syncpts.read i + 1 ∧
    ((∃ later, s.inputs = .envIncr i :: later) ∨
      ∃ u m rest, Moves s u ∧ u.fsm = .idle ∧ u.port = m :: rest ∧ m.extractLsb' 32 12 = 29#12 ∧
        m.extractLsb' 0 1 = 1#1 ∧ m.extractLsb' 8 12 = i)

/-- The step of one unit leaves every unit of another channel exactly as it was (R48, R127). -/
def Obligations.TurnChangesOneUnitOnly : Prop :=
  ∀ (s t : State) (u w : ChannelUnit), Moves s u → step s = .next t → w ∈ s.units →
    w.chan ≠ u.chan → w ∈ t.units

/-- A method's effect on its unit's words and control state depends on nothing outside the unit but
the parameters: not on memory, not on the counters, not on the other units (R79, R127). -/
def Obligations.RegistersDoNotDependOnSharedState : Prop :=
  ∀ (i : Instr) (s s' t t' : State), s.active = s'.active → s.params = s'.params →
    exec i s = .next t → exec i s' = .next t' → t.active = t'.active

/-- A release of a value that satisfies an acquire pending in another unit at the same address ends that
wait at the unit's next poll: at once after a release of 4 bytes, and after the payload word is written,
whether or not the other three are, after one of 16 bytes (R73(b), R160 to R163, R165, R68(c), R301).
That a 4-byte release is seen at once, with `releaseWfi` Enabled too, is the model's (log 12). -/
def Obligations.ReleaseEndsSatisfiedAcquireElsewhere : Prop :=
  ∀ (s : State) (red : ReductionOp) (c : SemControl) (w : ChannelUnit) (later : List Input),
    Inv s → SizeAllowed s c → w ∈ s.parked → w.fsm = .semWait → w.semAddress = s.semAddress →
    PollSatisfied s.params.acqGeqOrder ((w.peek 7).extractLsb' 0 5) (s.slot 6) (w.peek 6) →
    (c.releaseSize = .fourBytes → s.inputs = .turn w.chan :: later →
      ∃ t r, exec (.semRelease red c) s = .next t ∧ step t = .next r ∧
        r.active = { w with fsm := .idle }) ∧
    (c.releaseSize = .sixteenBytes →
      s.inputs = .memPerform s.inFlight.length :: .turn w.chan :: later →
      ∃ t q r, exec (.semRelease red c) s = .next t ∧ step t = .next q ∧ step q = .next r ∧
        r.active = { w with fsm := .idle } ∧ r.inFlight.length = s.inFlight.length + 3)

/-- An increment that brings a counter to a waiting unit's threshold ends that wait at the unit's
next test: no missed wakeup (R213, R216, R219). -/
def Obligations.IncrementEndsReachedWaitElsewhere : Prop :=
  ∀ (s : State) (sw : Switch) (c : SyncptControl) (w : ChannelUnit) (later : List Input),
    Inv s → c.index.toNat < s.params.numSyncpt → w ∈ s.parked → w.fsm = .syncptWait →
    (w.peek 29).extractLsb' 8 12 = c.index →
    (w.peek 28).toNat ≤ ((s.syncpts.read c.index).toNat + 1) % 2 ^ 32 →
    s.inputs = .turn w.chan :: later →
    ∃ t r, exec (.syncptIncr sw c) s = .next t ∧ step t = .next r ∧
      r.active = { w with fsm := .idle }

/-- Two increments of one counter by two units are both counted, in either order: no lost increment
(R45, R219). -/
def Obligations.IncrementsOfTwoUnitsBothCount : Prop :=
  ∀ (s : State) (w : ChannelUnit) (m m' : Method) (rest rest' : List Method) (i : SyncptIndex),
    Inv s → w ∈ s.parked → s.methodReady s.active = true → s.methodReady w = true →
    s.active.port = m :: rest → w.port = m' :: rest' →
    m.extractLsb' 32 12 = 29#12 → m'.extractLsb' 32 12 = 29#12 →
    m.extractLsb' 0 1 = 1#1 → m'.extractLsb' 0 1 = 1#1 →
    m.extractLsb' 8 12 = i → m'.extractLsb' 8 12 = i → i.toNat < s.params.numSyncpt →
    ∀ order ∈ [[Input.turn s.active.chan, .turn w.chan], [.turn w.chan, .turn s.active.chan]],
      s.inputs = order →
      ∃ t, Host.Core.run Sys2Proof.core 2 s = .next t ∧
        (t.syncpts.read i).toNat = ((s.syncpts.read i).toNat + 2) % 2 ^ 32

/-! ## Fairness (spec/70_reset_and_hazards.md R304) -/

/-- With no input left every unit takes a step within as many steps as there are units, in the order
in which they have waited. R304 asks for finitely many steps; the order is the model's (log 7). -/
def Obligations.RoundGivesEveryUnitItsTurn : Prop :=
  ∀ (s : State) (k : Nat), s.inputs = [] → k < s.units.length →
    ∃ (t : State) (u : ChannelUnit), Host.Core.run Sys2Proof.core k s = .next t ∧
      t.inputs = [] ∧ Moves t u ∧
      ((s.parked ++ [s.active]).map (·.chan))[k]? = some u.chan

/-- With no input left, a pending wait whose condition is and stays true ends, and leaves its unit's
words and port as they were, within as many steps as there are units (R75, R304; the bound is the
model's, log 7). -/
def Obligations.TrueConditionEndsWaitWithinOneRound : Prop :=
  ∀ (s : State) (u : ChannelUnit), Inv s → s.inputs = [] → u ∈ s.units → u.blocked = true →
    (∀ (k : Nat) (t : State), k ≤ s.units.length →
      Host.Core.run Sys2Proof.core k s = .next t → WaitSatisfied t u) →
    ∃ (k : Nat) (t : State), k ≤ s.units.length ∧ Host.Core.run Sys2Proof.core k s = .next t ∧
      { u with fsm := .idle } ∈ t.units

/-- With no input left, a method presented to an IDLE unit is accepted within one round of the units,
and one more for each word of the unit that is in flight (R304, R57). The bound is the model's (log 7),
and so are the list of methods (log 8) and that the Write is recorded before the other events of its
method (log 11). -/
def Obligations.PresentedMethodAcceptedWithinRounds : Prop :=
  ∀ (s : State) (u : ChannelUnit) (m : Method) (rest : List Method),
    Inv s → s.inputs = [] → u ∈ s.units → u.fsm = .idle → u.port = m :: rest →
    ∃ (k : Nat) (t t' : State) (added : List Event),
      k < ((s.inFlight.filter fun w => w.chan == u.chan).length + 1) * s.units.length ∧
      Host.Core.run Sys2Proof.core k s = .next t ∧ step t = .next t' ∧
      t'.active.chan = u.chan ∧ t'.active.port = rest ∧
      t'.events = t.events ++
        ⟨u.chan, .write (m.extractLsb' 32 12) (m.extractLsb' 0 32)⟩ :: added

/-- In every weakly fair run, whatever the owner and the environment do in it, a wait whose condition
stays true does not pend for ever, and a method presented to an IDLE unit is accepted if the owner
never withdraws one from that unit (R75, R304). Three points are the model's own: the list of methods
(log 8); that a presented method survives a Reset of its unit, which the run may hold, DEDUCED in the
same log; that the Write is recorded before the other events of its method (log 11). -/
def Obligations.WeaklyFairRunsEndWaitsAndAcceptMethods : Prop :=
  ∀ (σ : Nat → State) (choice : Nat → Input), Inv (σ 0) → IsRun σ choice → WeaklyFair σ choice →
    (∀ c n, (∀ k, n ≤ k → ∀ w ∈ (σ k).units, w.chan = c → WaitSatisfied (σ k) w) →
      ∃ k, n ≤ k ∧ ∀ w ∈ (σ k).units, w.chan = c → w.blocked = false) ∧
    (∀ n u m rest, u ∈ (σ n).units → u.fsm = .idle → u.port = m :: rest →
      (∀ k, n ≤ k → choice k ≠ .withdraw u.chan) →
      ∃ k added, n ≤ k ∧ (σ (k + 1)).events = (σ k).events ++
        ⟨u.chan, .write (m.extractLsb' 32 12) (m.extractLsb' 0 32)⟩ :: added)
end

