-- ==== Sys2Proof/Laws/Bits.lean ====
section
/-! SUPPORT. The fields of an assembled argument are the fields it was assembled from, and an
argument is assembled from its fields (spec/10_state.md R24 to R36). -/

namespace Sys2Proof

/-! ## Small fields -/

@[simp] theorem Switch.ofBits_toBits (x : Switch) : Switch.ofBits x.toBits = x := by
  cases x <;> rfl
@[simp] theorem ReleaseWfi.ofBits_toBits (x : ReleaseWfi) : ReleaseWfi.ofBits x.toBits = x := by
  cases x <;> rfl
@[simp] theorem ReleaseSize.ofBits_toBits (x : ReleaseSize) : ReleaseSize.ofBits x.toBits = x := by
  cases x <;> rfl
@[simp] theorem Format.ofBits_toBits (x : Format) : Format.ofBits x.toBits = x := by
  cases x <;> rfl
@[simp] theorem TlbScope.ofBits_toBits (x : TlbScope) : TlbScope.ofBits x.toBits = x := by
  cases x <;> rfl
@[simp] theorem WfiScope.ofBits_toBits (x : WfiScope) : WfiScope.ofBits x.toBits = x := by
  cases x <;> rfl
@[simp] theorem YieldOp.ofBits_toBits (x : YieldOp) : YieldOp.ofBits x.toBits = x := by
  cases x <;> rfl
@[simp] theorem ReductionOp.ofBits_toBits (x : ReductionOp) :
    ReductionOp.ofBits x.toBits = some x := by
  cases x <;> rfl

@[simp] theorem Switch.toBits_ofBits (b : BitVec 1) : (Switch.ofBits b).toBits = b := by
  revert b; decide
@[simp] theorem ReleaseWfi.toBits_ofBits (b : BitVec 1) : (ReleaseWfi.ofBits b).toBits = b := by
  revert b; decide
@[simp] theorem ReleaseSize.toBits_ofBits (b : BitVec 1) : (ReleaseSize.ofBits b).toBits = b := by
  revert b; decide
@[simp] theorem Format.toBits_ofBits (b : BitVec 1) : (Format.ofBits b).toBits = b := by
  revert b; decide
@[simp] theorem TlbScope.toBits_ofBits (b : BitVec 1) : (TlbScope.ofBits b).toBits = b := by
  revert b; decide
@[simp] theorem WfiScope.toBits_ofBits (b : BitVec 1) : (WfiScope.ofBits b).toBits = b := by
  revert b; decide
@[simp] theorem YieldOp.toBits_ofBits (b : BitVec 2) : (YieldOp.ofBits b).toBits = b := by
  revert b; decide

/-- A defined `reduction` decodes to the operation with that value. -/
theorem ReductionOp.ofBits_eq_some {b : BitVec 4} {r : ReductionOp}
    (h : ReductionOp.ofBits b = some r) : r.toBits = b := by
  revert b r; decide

/-- A `reduction` is reserved exactly when it is 8 or more (R95). -/
theorem ReductionOp.ofBits_eq_none (b : BitVec 4) :
    ReductionOp.ofBits b = none ↔ reductionDefined b = false := by
  revert b; decide

/-! ## Placed fields -/

theorem getLsbD_place {n : Nat} (w lo i : Nat) (x : BitVec n) :
    (place w lo x).getLsbD i = (decide (i < w) && decide (lo ≤ i) && x.getLsbD (i - lo)) := by
  simp only [place, BitVec.getLsbD_shiftLeft, BitVec.getLsbD_setWidth]
  by_cases h1 : i < w <;> by_cases h2 : i < lo
  · simp [h1, h2, show ¬ lo ≤ i by omega]
  · simp [h1, h2, show lo ≤ i by omega, show i - lo < w by omega]
  · simp [h1]
  · simp [h1]

theorem extract_or {w : Nat} (x y : BitVec w) (lo k : Nat) :
    (x ||| y).extractLsb' lo k = x.extractLsb' lo k ||| y.extractLsb' lo k := by
  apply BitVec.eq_of_getLsbD_eq
  intro i hi
  simp [hi]

/-- A placed field, taken out where it was placed. -/
theorem extract_place_same {n : Nat} (w lo : Nat) (x : BitVec n) (h : lo + n ≤ w) :
    (place w lo x).extractLsb' lo n = x := by
  apply BitVec.eq_of_getLsbD_eq
  intro i hi
  simp only [BitVec.getLsbD_extractLsb', getLsbD_place, hi, decide_true, Bool.true_and,
    show lo + i < w by omega, Nat.le_add_right, Nat.add_sub_cancel_left]

/-- A field taken out elsewhere is 0. -/
theorem extract_place_other {n : Nat} (w lo lo' k : Nat) (x : BitVec n)
    (h : lo' + k ≤ lo ∨ lo + n ≤ lo') : (place w lo x).extractLsb' lo' k = 0 := by
  apply BitVec.eq_of_getLsbD_eq
  intro i hi
  simp only [BitVec.getLsbD_extractLsb', getLsbD_place, hi, decide_true, Bool.true_and]
  rcases h with h | h
  · simp [show ¬ lo ≤ lo' + i by omega]
  · simp [BitVec.getLsbD_of_ge x (lo' + i - lo) (by omega)]

/-- A bit of a field put back where it was taken out. -/
theorem getLsbD_place_extract {w : Nat} (x : BitVec w) (lo k i : Nat) :
    (place w lo (x.extractLsb' lo k)).getLsbD i =
      (decide (lo ≤ i) && decide (i < lo + k) && x.getLsbD i) := by
  by_cases h : i < w
  · simp only [getLsbD_place, BitVec.getLsbD_extractLsb', h, decide_true, Bool.true_and]
    by_cases h1 : lo ≤ i
    · simp only [h1, decide_true, Bool.true_and, show lo + (i - lo) = i by omega]
      congr 1
      simp only [decide_eq_decide]
      omega
    · simp [h1]
  · simp [getLsbD_place, h, BitVec.getLsbD_of_ge x i (by omega)]

end Sys2Proof
end

