-- ==== Sys2Proof/Laws/Flags.lean ====
section
/-! SUPPORT. The comparisons and the reductions as statements about numbers (spec/42_semaphore.md
R160 to R163, R170 to R177, spec/44_syncpoint.md R216). -/

namespace Sys2Proof.Machine

/-! ## Comparisons -/

theorem geq_unsigned_iff (v p : Word) : geq .unsigned v p = true ↔ p.toNat ≤ v.toNat := by
  simp [geq]

theorem geq_signed_iff (v p : Word) : geq .signed v p = true ↔ p.toInt ≤ v.toInt := by
  simp [geq]

theorem geq_circular_iff (v p : Word) : geq .circular v p = true ↔ (v - p).toNat < 2 ^ 31 := by
  have h := (v - p).isLt
  have h0 : (0#1).toNat = 0 := rfl
  simp only [geq, beq_iff_eq, ← BitVec.toNat_inj, BitVec.extractLsb'_toNat,
    Nat.shiftRight_eq_div_pow]
  omega

theorem thresholdReached_iff (c t : Word) : thresholdReached c t = true ↔ t.toNat ≤ c.toNat := by
  simp [thresholdReached]

/-- The predicate of SEM_ACQUIRE (R160). -/
theorem acquireSatisfied_acquire (order : AcqGeqOrder) (v p : Word) :
    acquireSatisfied order opAcquire v p = true ↔ v = p := by
  simp [acquireSatisfied]

/-- The predicate of SEM_ACQ_GEQ (R161). -/
theorem acquireSatisfied_acqGeq (order : AcqGeqOrder) (v p : Word) :
    acquireSatisfied order opAcqGeq v p = geq order v p := by
  simp [acquireSatisfied, opAcquire, opAcqGeq]

/-- The predicate of SEM_ACQ_AND (R162). -/
theorem acquireSatisfied_acqAnd (order : AcqGeqOrder) (v p : Word) :
    acquireSatisfied order opAcqAnd v p = true ↔ v &&& p ≠ 0 := by
  simp [acquireSatisfied, opAcquire, opAcqGeq, opAcqAnd]

theorem formatLe_unsigned_iff (a b : Word) :
    formatLe .unsigned a b = true ↔ a.toNat ≤ b.toNat := by
  simp [formatLe]

theorem formatLe_signed_iff (a b : Word) : formatLe .signed a b = true ↔ a.toInt ≤ b.toInt := by
  simp [formatLe]

/-- Of two words one is at most the other, in either format. -/
theorem formatLe_total (fmt : Format) (a b : Word) :
    formatLe fmt a b = true ∨ formatLe fmt b a = true := by
  cases fmt <;> simp only [formatLe_unsigned_iff, formatLe_signed_iff] <;> omega

/-- Two words each at most the other are the same word, in either format. -/
theorem formatLe_antisymm {fmt : Format} {a b : Word} (h : formatLe fmt a b = true)
    (h' : formatLe fmt b a = true) : a = b := by
  cases fmt with
  | unsigned =>
    rw [formatLe_unsigned_iff] at h h'
    exact BitVec.eq_of_toNat_eq (by omega)
  | signed =>
    rw [formatLe_signed_iff] at h h'
    exact BitVec.eq_of_toInt_eq (by omega)

/-! ## Reductions -/

theorem reduce_min (fmt : Format) (old p : Word) :
    reduce .min fmt old p = if formatLe fmt old p then old else p := rfl

/-- Max keeps the old word when the payload is at most the old word: the two orders of the test
agree, because words that are each at most the other are the same (R171). -/
theorem reduce_max (fmt : Format) (old p : Word) :
    reduce .max fmt old p = if formatLe fmt p old then old else p := by
  simp only [reduce]
  split
  · next h =>
    split
    · next h' => exact formatLe_antisymm h' h
    · rfl
  · next h => rw [if_pos ((formatLe_total fmt old p).resolve_left h)]

theorem reduce_add (fmt : Format) (old p : Word) :
    (reduce .add fmt old p).toNat = (old.toNat + p.toNat) % 2 ^ 32 :=
  BitVec.toNat_add old p

/-- Inc below the payload does not wrap (R176). -/
theorem reduce_inc (fmt : Format) (old p : Word) :
    (reduce .inc fmt old p).toNat = if p.toNat ≤ old.toNat then 0 else old.toNat + 1 := by
  have := p.isLt
  simp only [reduce]
  split
  · rfl
  · rw [BitVec.toNat_add]
    have h1 : (1 : Word).toNat = 1 := rfl
    omega

/-- Dec above 0 and at most the payload does not wrap (R177). -/
theorem reduce_dec (fmt : Format) (old p : Word) :
    (reduce .dec fmt old p).toNat =
      if old.toNat = 0 ∨ p.toNat < old.toNat then p.toNat else old.toNat - 1 := by
  have h0 : old = 0 ↔ old.toNat = 0 := by
    rw [← BitVec.toNat_inj]
    rfl
  have h1 : (1 : Word).toNat = 1 := rfl
  have := old.isLt
  simp only [reduce, h0]
  split
  · rfl
  · rw [BitVec.toNat_sub]
    omega

end Sys2Proof.Machine
end

