-- ==== Sys2Proof/Laws/Memory.lean ====
section
/-! SUPPORT. Reading after writing, what a write leaves alone, and that every operation keeps the
canonical form, for the cells, the semaphore memory and the syncpoint bank. -/

namespace Sys2Proof.Machine

/-! ## Cells -/

theorem cellRead_cellErase {n : Nat} (d : BitVec n) (m : List (Nat × BitVec n)) (a b : Nat) :
    cellRead d (cellErase a m) b = if b = a then d else cellRead d m b := by
  induction m with
  | nil => simp [cellErase, cellRead]
  | cons c m ih =>
    by_cases hca : c.1 = a <;> by_cases hcb : c.1 = b <;> simp_all [cellErase, cellRead]

theorem cellRead_cellInsert {n : Nat} (d : BitVec n) (m : List (Nat × BitVec n)) (a b : Nat)
    (v : BitVec n) (h : ∀ c ∈ m, c.1 ≠ a) :
    cellRead d (cellInsert a v m) b = if b = a then v else cellRead d m b := by
  induction m with
  | nil => simp [cellInsert, cellRead, eq_comm]
  | cons c m ih =>
    have hc : c.1 ≠ a := h c (by simp)
    have ih' := ih fun x hx => h x (by simp [hx])
    by_cases hlt : a < c.1
    · simp only [cellInsert, hlt, if_true, cellRead]
      grind
    · simp only [cellInsert, hlt, if_false, cellRead, ih']
      grind

theorem cellErase_ne {n : Nat} (m : List (Nat × BitVec n)) (a : Nat) :
    ∀ c ∈ cellErase a m, c.1 ≠ a := by
  induction m with
  | nil => simp [cellErase]
  | cons c m ih => by_cases h : c.1 = a <;> grind [cellErase]

/-- Reading after writing: the place written reads the value, every other place as before. -/
theorem cellRead_cellWrite {n : Nat} (d : BitVec n) (m : List (Nat × BitVec n)) (a b : Nat)
    (v : BitVec n) : cellRead d (cellWrite d m a v) b = if b = a then v else cellRead d m b := by
  unfold cellWrite
  split
  · next h => rw [cellRead_cellErase, h]
  · rw [cellRead_cellInsert _ _ _ _ _ (cellErase_ne m a), cellRead_cellErase]
    grind

theorem mem_cellErase {n : Nat} {m : List (Nat × BitVec n)} {a : Nat} {c : Nat × BitVec n}
    (h : c ∈ cellErase a m) : c ∈ m := by
  induction m with
  | nil => simp [cellErase] at h
  | cons x m ih => by_cases hx : x.1 = a <;> grind [cellErase]

theorem mem_cellInsert {n : Nat} {m : List (Nat × BitVec n)} {a : Nat} {v : BitVec n}
    {c : Nat × BitVec n} (h : c ∈ cellInsert a v m) : c = (a, v) ∨ c ∈ m := by
  induction m with
  | nil => simpa [cellInsert] using h
  | cons x m ih => by_cases hx : a < x.1 <;> grind [cellInsert]

theorem cellErase_pairwise {n : Nat} {m : List (Nat × BitVec n)} (a : Nat)
    (h : m.Pairwise fun x y => x.1 < y.1) : (cellErase a m).Pairwise fun x y => x.1 < y.1 := by
  induction m with
  | nil => simp [cellErase]
  | cons x m ih =>
    rw [List.pairwise_cons] at h
    by_cases hx : x.1 = a
    · simpa [cellErase, hx] using ih h.2
    · simp only [cellErase, hx, if_false, List.pairwise_cons]
      exact ⟨fun y hy => h.1 y (mem_cellErase hy), ih h.2⟩

theorem cellInsert_pairwise {n : Nat} {m : List (Nat × BitVec n)} {a : Nat} (v : BitVec n)
    (h : m.Pairwise fun x y => x.1 < y.1) (ha : ∀ c ∈ m, c.1 ≠ a) :
    (cellInsert a v m).Pairwise fun x y => x.1 < y.1 := by
  induction m with
  | nil => simp [cellInsert]
  | cons x m ih =>
    rw [List.pairwise_cons] at h
    by_cases hx : a < x.1
    · simp only [cellInsert, hx, if_true, List.pairwise_cons]
      refine ⟨fun y hy => ?_, h⟩
      rcases List.mem_cons.mp hy with rfl | hy
      · exact hx
      · exact hx.trans (h.1 y hy)
    · simp only [cellInsert, hx, if_false, List.pairwise_cons]
      refine ⟨fun y hy => ?_, ih h.2 fun c hc => ha c (by simp [hc])⟩
      rcases mem_cellInsert hy with rfl | hy
      · exact lt_of_le_of_ne (not_lt.mp hx) (ha x (by simp))
      · exact h.1 y hy

/-- A write keeps the canonical form. -/
theorem cellWrite_wf {n : Nat} {d : BitVec n} {bound : Nat} {m : List (Nat × BitVec n)} {a : Nat}
    (v : BitVec n) (h : cellsWf d bound m) (ha : a < bound) :
    cellsWf d bound (cellWrite d m a v) := by
  unfold cellWrite
  split
  · exact ⟨cellErase_pairwise a h.1, fun c hc => h.2 c (mem_cellErase hc)⟩
  · next hv =>
    refine ⟨cellInsert_pairwise v (cellErase_pairwise a h.1) (cellErase_ne m a), fun c hc => ?_⟩
    rcases mem_cellInsert hc with rfl | hc
    · exact ⟨ha, hv⟩
    · exact h.2 c (mem_cellErase hc)

/-! ## Semaphore memory -/

theorem Memory.readByte_writeByte (m : Memory) (a b : Address) (v : Byte) :
    (m.writeByte a v).readByte b = if b = a then v else m.readByte b := by
  simp [Memory.readByte, Memory.writeByte, cellRead_cellWrite, BitVec.toNat_inj]

@[simp] theorem Memory.readByte_writeByte_same (m : Memory) (a : Address) (v : Byte) :
    (m.writeByte a v).readByte a = v := by
  simp [Memory.readByte_writeByte]

theorem Memory.readByte_writeByte_other (m : Memory) {a b : Address} (v : Byte) (h : b ≠ a) :
    (m.writeByte a v).readByte b = m.readByte b := by
  simp [Memory.readByte_writeByte, h]

theorem Memory.writeByte_wf {m : Memory} (a : Address) (v : Byte) (h : m.wf) :
    (m.writeByte a v).wf := cellWrite_wf v h a.isLt

/-- A byte outside the four bytes of a word write reads as before. -/
theorem Memory.readByte_writeWord_other (m : Memory) {a b : Address} (v : Word)
    (h : b ≠ a ∧ b ≠ a + 1 ∧ b ≠ a + 2 ∧ b ≠ a + 3) :
    (m.writeWord a v).readByte b = m.readByte b := by
  obtain ⟨h0, h1, h2, h3⟩ := h
  simp only [Memory.writeWord, Memory.readByte_writeByte, h0, h1, h2, h3, if_false]

/-- A word read after a word write at the same address gives the value written (R64). -/
@[simp] theorem Memory.readWord_writeWord (m : Memory) (a : Address) (v : Word) :
    (m.writeWord a v).readWord a = v := by
  have h1 : a ≠ a + 1 := by bv_omega
  have h2 : a ≠ a + 2 := by bv_omega
  have h3 : a ≠ a + 3 := by bv_omega
  have h4 : a + 1 ≠ a + 2 := by bv_omega
  have h5 : a + 1 ≠ a + 3 := by bv_omega
  have h6 : a + 2 ≠ a + 3 := by bv_omega
  simp only [Memory.readWord, Memory.writeWord, Memory.readByte_writeByte, if_true, h1, h2, h3, h4,
    h5, h6, if_false]
  apply BitVec.eq_of_getLsbD_eq
  intro i hi
  simp only [BitVec.getLsbD_append, BitVec.getLsbD_extractLsb']
  rcases (by omega : i < 8 ∨ (8 ≤ i ∧ i < 16) ∨ (16 ≤ i ∧ i < 24) ∨ (24 ≤ i)) with h | h | h | h <;>
    simp_all <;> grind

/-- A word whose four bytes lie outside the write reads as before. -/
theorem Memory.readWord_congr {m m' : Memory} {a : Address}
    (h0 : m'.readByte a = m.readByte a) (h1 : m'.readByte (a + 1) = m.readByte (a + 1))
    (h2 : m'.readByte (a + 2) = m.readByte (a + 2)) (h3 : m'.readByte (a + 3) = m.readByte (a + 3)) :
    m'.readWord a = m.readWord a := by
  simp only [Memory.readWord, h0, h1, h2, h3]

theorem Memory.writeWord_wf {m : Memory} (a : Address) (v : Word) (h : m.wf) :
    (m.writeWord a v).wf :=
  writeByte_wf _ _ (writeByte_wf _ _ (writeByte_wf _ _ (writeByte_wf _ _ h)))

/-! ### One access of the environment to an aligned word, and the contents at launch -/

theorem Memory.readByte_writeByteIf (m : Memory) (e : Bool) (a b : Address) (v : Byte) :
    (m.writeByteIf e a v).readByte b = if e = true ∧ b = a then v else m.readByte b := by
  cases e <;> simp [Memory.writeByteIf, Memory.readByte_writeByte]

theorem Memory.writeByteIf_wf {m : Memory} (e : Bool) (a : Address) (v : Byte) (h : m.wf) :
    (m.writeByteIf e a v).wf := by
  cases e
  · exact h
  · exact writeByte_wf a v h

theorem Memory.writeEnabled_wf {m : Memory} (n : WordNumber) (e : BitVec 4) (v : Word) (h : m.wf) :
    (m.writeEnabled n e v).wf :=
  writeByteIf_wf _ _ _ (writeByteIf_wf _ _ _ (writeByteIf_wf _ _ _ (writeByteIf_wf _ _ _ h)))

theorem wordAddress_toNat (n : WordNumber) : (wordAddress n).toNat = 4 * n.toNat := by
  have h : (n ++ 0#2 : BitVec (38 + 2)).toNat = 4 * n.toNat := by
    rw [BitVec.toNat_append, BitVec.toNat_ofNat, Nat.zero_mod, Nat.or_zero, Nat.shiftLeft_eq]
    omega
  exact h

/-- The bytes of an aligned word: word number `n` and distance `k`. -/
theorem eq_wordAddress_add (b : Address) (n : WordNumber) {k : Nat} (hk : k < 4) :
    b = wordAddress n + BitVec.ofNat 40 k ↔ b.extractLsb' 2 38 = n ∧ b.toNat % 4 = k := by
  have hw := wordAddress_toNat n
  have hn := n.isLt
  have hb := b.isLt
  simp only [← BitVec.toNat_inj, BitVec.toNat_add, hw, BitVec.toNat_ofNat, BitVec.extractLsb'_toNat,
    Nat.shiftRight_eq_div_pow]
  omega

/-- What one access to an aligned word does: the bytes of that word whose enables are set read the
value's bytes, every other byte as before. -/
theorem Memory.readByte_writeEnabled (m : Memory) (n : WordNumber) (e : BitVec 4) (v : Word)
    (b : Address) : (m.writeEnabled n e v).readByte b =
      if b.extractLsb' 2 38 = n ∧ e.getLsbD (b.toNat % 4) = true
      then v.extractLsb' (8 * (b.toNat % 4)) 8 else m.readByte b := by
  have h0 := eq_wordAddress_add b n (k := 0) (by decide)
  have h1 : b = wordAddress n + 1 ↔ _ := eq_wordAddress_add b n (k := 1) (by decide)
  have h2 : b = wordAddress n + 2 ↔ _ := eq_wordAddress_add b n (k := 2) (by decide)
  have h3 : b = wordAddress n + 3 ↔ _ := eq_wordAddress_add b n (k := 3) (by decide)
  rw [BitVec.add_zero] at h0
  simp only [Memory.writeEnabled, Memory.readByte_writeByteIf, h0, h1, h2, h3]
  by_cases hn : b.extractLsb' 2 38 = n
  · rcases (by omega : b.toNat % 4 = 0 ∨ b.toNat % 4 = 1 ∨ b.toNat % 4 = 2 ∨ b.toNat % 4 = 3)
      with h | h | h | h <;> simp [h, hn]
  · simp [hn]

/-- A word written with every enable set reads back whole (R68(a)). -/
theorem Memory.readWord_writeEnabled (m : Memory) (n : WordNumber) (v : Word) :
    (m.writeEnabled n 15 v).readWord (wordAddress n) = v := by
  have : m.writeEnabled n 15 v = m.writeWord (wordAddress n) v := rfl
  rw [this, Memory.readWord_writeWord]

theorem Memory.ofBytes_wf (l : List (Address × Byte)) : (Memory.ofBytes l).wf := by
  induction l with
  | nil => exact ⟨List.Pairwise.nil, by simp [Memory.ofBytes]⟩
  | cons x l ih => exact writeByte_wf x.1 x.2 ih

/-- Any contents whatever are those of some list of bytes. -/
theorem Memory.readByte_ofBytes (l : List (Address × Byte)) (a : Address) :
    (Memory.ofBytes l).readByte a = (l.lookup a).getD Config.unlistedByte := by
  induction l with
  | nil => rfl
  | cons x l ih =>
    rw [Memory.ofBytes, Memory.readByte_writeByte, ih, List.lookup_cons]
    cases h : a == x.1
    · rw [if_neg (by simpa using h)]
    · rw [if_pos (by simpa using h), Option.getD_some]

/-! ## The syncpoint bank -/

/-- An increment adds 1 modulo 2^32 to its own counter and changes no other (R45). -/
theorem SyncptBank.read_incr (b : SyncptBank) (i j : SyncptIndex) :
    (b.incr i).read j = if j = i then b.read i + 1 else b.read j := by
  simp [SyncptBank.read, SyncptBank.incr, cellRead_cellWrite, BitVec.toNat_inj]

theorem SyncptBank.incr_wf {b : SyncptBank} {n : Nat} {i : SyncptIndex} (h : b.wf n)
    (hi : i.toNat < n) : (b.incr i).wf n := cellWrite_wf _ h hi

/-- The bank at launch lists only counters that a 12-bit index names (R45). -/
theorem SyncptBank.ofCounters_wf (l : List (SyncptIndex × Word)) :
    (SyncptBank.ofCounters l).wf 4096 := by
  induction l with
  | nil => exact ⟨List.Pairwise.nil, by simp [SyncptBank.ofCounters]⟩
  | cons x l ih => exact cellWrite_wf x.2 ih x.1.isLt

end Sys2Proof.Machine
end

