-- ==== Sys2Proof/Laws/State.lean ====
section
/-! SUPPORT. One lemma per field per update of the state: no later proof unfolds a record update. -/

namespace Sys2Proof.Machine

/-! ## Units -/

@[simp] theorem ChannelUnit.store_chan (u : ChannelUnit) (i : SlotIndex) (v : Word) :
    (u.store i v).chan = u.chan := rfl
@[simp] theorem ChannelUnit.store_raw (u : ChannelUnit) (i : SlotIndex) (v : Word) :
    (u.store i v).raw = u.raw.set i.toNat v i.isLt := rfl
@[simp] theorem ChannelUnit.store_fsm (u : ChannelUnit) (i : SlotIndex) (v : Word) :
    (u.store i v).fsm = u.fsm := rfl
@[simp] theorem ChannelUnit.store_port (u : ChannelUnit) (i : SlotIndex) (v : Word) :
    (u.store i v).port = u.port := rfl

@[simp] theorem ChannelUnit.withFsm_chan (u : ChannelUnit) (f : Fsm) :
    (u.withFsm f).chan = u.chan := rfl
@[simp] theorem ChannelUnit.withFsm_raw (u : ChannelUnit) (f : Fsm) :
    (u.withFsm f).raw = u.raw := rfl
@[simp] theorem ChannelUnit.withFsm_fsm (u : ChannelUnit) (f : Fsm) :
    (u.withFsm f).fsm = f := rfl
@[simp] theorem ChannelUnit.withFsm_port (u : ChannelUnit) (f : Fsm) :
    (u.withFsm f).port = u.port := rfl
@[simp] theorem ChannelUnit.withFsm_peek (u : ChannelUnit) (f : Fsm) (i : SlotIndex) :
    (u.withFsm f).peek i = u.peek i := rfl
@[simp] theorem ChannelUnit.withPort_chan (u : ChannelUnit) (p : List Method) :
    (u.withPort p).chan = u.chan := rfl
@[simp] theorem ChannelUnit.withPort_raw (u : ChannelUnit) (p : List Method) :
    (u.withPort p).raw = u.raw := rfl
@[simp] theorem ChannelUnit.withPort_fsm (u : ChannelUnit) (p : List Method) :
    (u.withPort p).fsm = u.fsm := rfl
@[simp] theorem ChannelUnit.withPort_port (u : ChannelUnit) (p : List Method) :
    (u.withPort p).port = p := rfl
@[simp] theorem ChannelUnit.withPort_peek (u : ChannelUnit) (p : List Method) (i : SlotIndex) :
    (u.withPort p).peek i = u.peek i := rfl

@[simp] theorem ChannelUnit.resetUnit_chan (u : ChannelUnit) :
    (u.resetUnit).chan = u.chan := rfl
@[simp] theorem ChannelUnit.resetUnit_raw (u : ChannelUnit) :
    (u.resetUnit).raw = Vector.replicate 64 0 := rfl
@[simp] theorem ChannelUnit.resetUnit_fsm (u : ChannelUnit) :
    (u.resetUnit).fsm = .idle := rfl
@[simp] theorem ChannelUnit.resetUnit_port (u : ChannelUnit) :
    (u.resetUnit).port = u.port := rfl

@[simp] theorem ChannelUnit.offer_chan (u : ChannelUnit) (m : Method) :
    (u.offer m).chan = u.chan := rfl
@[simp] theorem ChannelUnit.offer_raw (u : ChannelUnit) (m : Method) :
    (u.offer m).raw = u.raw := rfl
@[simp] theorem ChannelUnit.offer_fsm (u : ChannelUnit) (m : Method) :
    (u.offer m).fsm = u.fsm := rfl
@[simp] theorem ChannelUnit.offer_port (u : ChannelUnit) (m : Method) :
    (u.offer m).port = u.port ++ [m] := rfl

@[simp] theorem ChannelUnit.withdraw_chan (u : ChannelUnit) :
    (u.withdraw).chan = u.chan := rfl
@[simp] theorem ChannelUnit.withdraw_raw (u : ChannelUnit) :
    (u.withdraw).raw = u.raw := rfl
@[simp] theorem ChannelUnit.withdraw_fsm (u : ChannelUnit) :
    (u.withdraw).fsm = u.fsm := rfl
@[simp] theorem ChannelUnit.withdraw_port (u : ChannelUnit) :
    (u.withdraw).port = u.port.drop 1 := rfl

@[simp] theorem ChannelUnit.cancel_chan (u : ChannelUnit) : u.cancel.chan = u.chan := by
  unfold ChannelUnit.cancel; split <;> rfl
@[simp] theorem ChannelUnit.cancel_raw (u : ChannelUnit) : u.cancel.raw = u.raw := by
  unfold ChannelUnit.cancel; split <;> rfl
@[simp] theorem ChannelUnit.cancel_port (u : ChannelUnit) : u.cancel.port = u.port := by
  unfold ChannelUnit.cancel; split <;> rfl
theorem ChannelUnit.cancel_fsm (u : ChannelUnit) :
    u.cancel.fsm = if u.fsm = .fatal then .fatal else .idle := by
  unfold ChannelUnit.cancel; split <;> simp_all

/-! ## The register file -/

@[simp] theorem ChannelUnit.store_peek_same (u : ChannelUnit) (i : SlotIndex) (v : Word) :
    (u.store i v).peek i = v := by
  simp [ChannelUnit.peek, ChannelUnit.store]

theorem ChannelUnit.store_peek_other (u : ChannelUnit) {i j : SlotIndex} (v : Word) (h : j ≠ i) :
    (u.store i v).peek j = u.peek j := by
  have hij : i.toNat ≠ j.toNat := fun e => h (BitVec.eq_of_toNat_eq e).symm
  simp [ChannelUnit.peek, ChannelUnit.store, hij]

theorem ChannelUnit.store_peek (u : ChannelUnit) (i j : SlotIndex) (v : Word) :
    (u.store i v).peek j = if j = i then v else u.peek j := by
  split
  · next h => subst h; simp
  · next h => exact u.store_peek_other v h

@[simp] theorem ChannelUnit.resetUnit_peek (u : ChannelUnit) (i : SlotIndex) :
    u.resetUnit.peek i = 0 := by
  simp [ChannelUnit.peek, ChannelUnit.resetUnit]

theorem ChannelUnit.peek_congr {u w : ChannelUnit} (h : u.raw = w.raw) (i : SlotIndex) :
    u.peek i = w.peek i := by
  simp [ChannelUnit.peek, h]

/-! ## The state -/

@[simp] theorem State.store_active (s : State) (i : SlotIndex) (v : Word) :
    (s.store i v).active = s.active.store i v := rfl
@[simp] theorem State.store_parked (s : State) (i : SlotIndex) (v : Word) :
    (s.store i v).parked = s.parked := rfl
@[simp] theorem State.store_mem (s : State) (i : SlotIndex) (v : Word) :
    (s.store i v).mem = s.mem := rfl
@[simp] theorem State.store_syncpts (s : State) (i : SlotIndex) (v : Word) :
    (s.store i v).syncpts = s.syncpts := rfl
@[simp] theorem State.store_events (s : State) (i : SlotIndex) (v : Word) :
    (s.store i v).events = s.events := rfl
@[simp] theorem State.store_params (s : State) (i : SlotIndex) (v : Word) :
    (s.store i v).params = s.params := rfl
@[simp] theorem State.store_draws (s : State) (i : SlotIndex) (v : Word) :
    (s.store i v).draws = s.draws := rfl
@[simp] theorem State.store_inFlight (s : State) (i : SlotIndex) (v : Word) :
    (s.store i v).inFlight = s.inFlight := rfl
@[simp] theorem State.store_inputs (s : State) (i : SlotIndex) (v : Word) :
    (s.store i v).inputs = s.inputs := rfl

@[simp] theorem State.setFsm_active (s : State) (f : Fsm) :
    (s.setFsm f).active = s.active.withFsm f := rfl
@[simp] theorem State.setFsm_parked (s : State) (f : Fsm) :
    (s.setFsm f).parked = s.parked := rfl
@[simp] theorem State.setFsm_mem (s : State) (f : Fsm) :
    (s.setFsm f).mem = s.mem := rfl
@[simp] theorem State.setFsm_syncpts (s : State) (f : Fsm) :
    (s.setFsm f).syncpts = s.syncpts := rfl
@[simp] theorem State.setFsm_events (s : State) (f : Fsm) :
    (s.setFsm f).events = s.events := rfl
@[simp] theorem State.setFsm_params (s : State) (f : Fsm) :
    (s.setFsm f).params = s.params := rfl
@[simp] theorem State.setFsm_draws (s : State) (f : Fsm) :
    (s.setFsm f).draws = s.draws := rfl
@[simp] theorem State.setFsm_inFlight (s : State) (f : Fsm) :
    (s.setFsm f).inFlight = s.inFlight := rfl
@[simp] theorem State.setFsm_inputs (s : State) (f : Fsm) :
    (s.setFsm f).inputs = s.inputs := rfl

@[simp] theorem State.record_active (s : State) (c : Nat) (k : EventKind) :
    (s.record c k).active = s.active := rfl
@[simp] theorem State.record_parked (s : State) (c : Nat) (k : EventKind) :
    (s.record c k).parked = s.parked := rfl
@[simp] theorem State.record_mem (s : State) (c : Nat) (k : EventKind) :
    (s.record c k).mem = s.mem := rfl
@[simp] theorem State.record_syncpts (s : State) (c : Nat) (k : EventKind) :
    (s.record c k).syncpts = s.syncpts := rfl
@[simp] theorem State.record_events (s : State) (c : Nat) (k : EventKind) :
    (s.record c k).events = s.events ++ [{ chan := c, kind := k }] := rfl
@[simp] theorem State.record_params (s : State) (c : Nat) (k : EventKind) :
    (s.record c k).params = s.params := rfl
@[simp] theorem State.record_draws (s : State) (c : Nat) (k : EventKind) :
    (s.record c k).draws = s.draws := rfl
@[simp] theorem State.record_inFlight (s : State) (c : Nat) (k : EventKind) :
    (s.record c k).inFlight = s.inFlight := rfl
@[simp] theorem State.record_inputs (s : State) (c : Nat) (k : EventKind) :
    (s.record c k).inputs = s.inputs := rfl

@[simp] theorem State.emit_active (s : State) (k : EventKind) :
    (s.emit k).active = s.active := rfl
@[simp] theorem State.emit_parked (s : State) (k : EventKind) :
    (s.emit k).parked = s.parked := rfl
@[simp] theorem State.emit_mem (s : State) (k : EventKind) :
    (s.emit k).mem = s.mem := rfl
@[simp] theorem State.emit_syncpts (s : State) (k : EventKind) :
    (s.emit k).syncpts = s.syncpts := rfl
@[simp] theorem State.emit_events (s : State) (k : EventKind) :
    (s.emit k).events = s.events ++ [{ chan := s.active.chan, kind := k }] := rfl
@[simp] theorem State.emit_params (s : State) (k : EventKind) :
    (s.emit k).params = s.params := rfl
@[simp] theorem State.emit_draws (s : State) (k : EventKind) :
    (s.emit k).draws = s.draws := rfl
@[simp] theorem State.emit_inFlight (s : State) (k : EventKind) :
    (s.emit k).inFlight = s.inFlight := rfl
@[simp] theorem State.emit_inputs (s : State) (k : EventKind) :
    (s.emit k).inputs = s.inputs := rfl

@[simp] theorem State.raiseFault_active (s : State) (k : FaultKind) (i : MethodIndex) (a : Word) :
    (s.raiseFault k i a).active = s.active := rfl
@[simp] theorem State.raiseFault_parked (s : State) (k : FaultKind) (i : MethodIndex) (a : Word) :
    (s.raiseFault k i a).parked = s.parked := rfl
@[simp] theorem State.raiseFault_mem (s : State) (k : FaultKind) (i : MethodIndex) (a : Word) :
    (s.raiseFault k i a).mem = s.mem := rfl
@[simp] theorem State.raiseFault_syncpts (s : State) (k : FaultKind) (i : MethodIndex) (a : Word) :
    (s.raiseFault k i a).syncpts = s.syncpts := rfl
@[simp] theorem State.raiseFault_events (s : State) (k : FaultKind) (i : MethodIndex) (a : Word) :
    (s.raiseFault k i a).events =
      s.events ++ [{ chan := s.active.chan, kind := .fault k i a }] := rfl
@[simp] theorem State.raiseFault_params (s : State) (k : FaultKind) (i : MethodIndex) (a : Word) :
    (s.raiseFault k i a).params = s.params := rfl
@[simp] theorem State.raiseFault_draws (s : State) (k : FaultKind) (i : MethodIndex) (a : Word) :
    (s.raiseFault k i a).draws = s.draws := rfl
@[simp] theorem State.raiseFault_inFlight (s : State) (k : FaultKind) (i : MethodIndex) (a : Word) :
    (s.raiseFault k i a).inFlight = s.inFlight := rfl
@[simp] theorem State.raiseFault_inputs (s : State) (k : FaultKind) (i : MethodIndex) (a : Word) :
    (s.raiseFault k i a).inputs = s.inputs := rfl

@[simp] theorem State.fatalFault_active (s : State) (i : MethodIndex) (a : Word) :
    (s.fatalFault i a).active = s.active.withFsm .fatal := rfl
@[simp] theorem State.fatalFault_parked (s : State) (i : MethodIndex) (a : Word) :
    (s.fatalFault i a).parked = s.parked := rfl
@[simp] theorem State.fatalFault_mem (s : State) (i : MethodIndex) (a : Word) :
    (s.fatalFault i a).mem = s.mem := rfl
@[simp] theorem State.fatalFault_syncpts (s : State) (i : MethodIndex) (a : Word) :
    (s.fatalFault i a).syncpts = s.syncpts := rfl
@[simp] theorem State.fatalFault_events (s : State) (i : MethodIndex) (a : Word) :
    (s.fatalFault i a).events =
      s.events ++ [{ chan := s.active.chan, kind := .fault .outOfRangeMethod i a }] := rfl
@[simp] theorem State.fatalFault_params (s : State) (i : MethodIndex) (a : Word) :
    (s.fatalFault i a).params = s.params := rfl
@[simp] theorem State.fatalFault_draws (s : State) (i : MethodIndex) (a : Word) :
    (s.fatalFault i a).draws = s.draws := rfl
@[simp] theorem State.fatalFault_inFlight (s : State) (i : MethodIndex) (a : Word) :
    (s.fatalFault i a).inFlight = s.inFlight := rfl
@[simp] theorem State.fatalFault_inputs (s : State) (i : MethodIndex) (a : Word) :
    (s.fatalFault i a).inputs = s.inputs := rfl

@[simp] theorem State.memRead_active (s : State) (a : Address) :
    (s.memRead a).active = s.active := rfl
@[simp] theorem State.memRead_parked (s : State) (a : Address) :
    (s.memRead a).parked = s.parked := rfl
@[simp] theorem State.memRead_mem (s : State) (a : Address) :
    (s.memRead a).mem = s.mem := rfl
@[simp] theorem State.memRead_syncpts (s : State) (a : Address) :
    (s.memRead a).syncpts = s.syncpts := rfl
@[simp] theorem State.memRead_events (s : State) (a : Address) :
    (s.memRead a).events =
      s.events ++ [{ chan := s.active.chan, kind := .memRead a (s.mem.readWord a) }] := rfl
@[simp] theorem State.memRead_params (s : State) (a : Address) :
    (s.memRead a).params = s.params := rfl
@[simp] theorem State.memRead_draws (s : State) (a : Address) :
    (s.memRead a).draws = s.draws := rfl
@[simp] theorem State.memRead_inFlight (s : State) (a : Address) :
    (s.memRead a).inFlight = s.inFlight := rfl
@[simp] theorem State.memRead_inputs (s : State) (a : Address) :
    (s.memRead a).inputs = s.inputs := rfl

@[simp] theorem State.memWrite_active (s : State) (a : Address) (v : Word) (w : Bool) :
    (s.memWrite a v w).active = s.active := rfl
@[simp] theorem State.memWrite_parked (s : State) (a : Address) (v : Word) (w : Bool) :
    (s.memWrite a v w).parked = s.parked := rfl
@[simp] theorem State.memWrite_mem (s : State) (a : Address) (v : Word) (w : Bool) :
    (s.memWrite a v w).mem = s.mem.writeWord a v := rfl
@[simp] theorem State.memWrite_syncpts (s : State) (a : Address) (v : Word) (w : Bool) :
    (s.memWrite a v w).syncpts = s.syncpts := rfl
@[simp] theorem State.memWrite_events (s : State) (a : Address) (v : Word) (w : Bool) :
    (s.memWrite a v w).events =
      s.events ++ [{ chan := s.active.chan, kind := .memWrite a [v] w }] := rfl
@[simp] theorem State.memWrite_params (s : State) (a : Address) (v : Word) (w : Bool) :
    (s.memWrite a v w).params = s.params := rfl
@[simp] theorem State.memWrite_draws (s : State) (a : Address) (v : Word) (w : Bool) :
    (s.memWrite a v w).draws = s.draws := rfl
@[simp] theorem State.memWrite_inFlight (s : State) (a : Address) (v : Word) (w : Bool) :
    (s.memWrite a v w).inFlight = s.inFlight := rfl
@[simp] theorem State.memWrite_inputs (s : State) (a : Address) (v : Word) (w : Bool) :
    (s.memWrite a v w).inputs = s.inputs := rfl

@[simp] theorem State.issueWrite_active (s : State) (a : Address) (d : List Word) (w : Bool) :
    (s.issueWrite a d w).active = s.active := rfl
@[simp] theorem State.issueWrite_parked (s : State) (a : Address) (d : List Word) (w : Bool) :
    (s.issueWrite a d w).parked = s.parked := rfl
@[simp] theorem State.issueWrite_mem (s : State) (a : Address) (d : List Word) (w : Bool) :
    (s.issueWrite a d w).mem = s.mem := rfl
@[simp] theorem State.issueWrite_syncpts (s : State) (a : Address) (d : List Word) (w : Bool) :
    (s.issueWrite a d w).syncpts = s.syncpts := rfl
@[simp] theorem State.issueWrite_events (s : State) (a : Address) (d : List Word) (w : Bool) :
    (s.issueWrite a d w).events =
      s.events ++ [{ chan := s.active.chan, kind := .memWrite a d w }] := rfl
@[simp] theorem State.issueWrite_params (s : State) (a : Address) (d : List Word) (w : Bool) :
    (s.issueWrite a d w).params = s.params := rfl
@[simp] theorem State.issueWrite_draws (s : State) (a : Address) (d : List Word) (w : Bool) :
    (s.issueWrite a d w).draws = s.draws := rfl
@[simp] theorem State.issueWrite_inFlight (s : State) (a : Address) (d : List Word) (w : Bool) :
    (s.issueWrite a d w).inFlight = s.inFlight ++ wordWrites s.active.chan a d := rfl
@[simp] theorem State.issueWrite_inputs (s : State) (a : Address) (d : List Word) (w : Bool) :
    (s.issueWrite a d w).inputs = s.inputs := rfl

@[simp] theorem State.memReduce_active (s : State) (a : Address) (o : ReductionOp) (f : Format) (p : Word)
    (w : Bool) :
    (s.memReduce a o f p w).active = s.active := rfl
@[simp] theorem State.memReduce_parked (s : State) (a : Address) (o : ReductionOp) (f : Format) (p : Word)
    (w : Bool) :
    (s.memReduce a o f p w).parked = s.parked := rfl
@[simp] theorem State.memReduce_mem (s : State) (a : Address) (o : ReductionOp) (f : Format) (p : Word)
    (w : Bool) :
    (s.memReduce a o f p w).mem = s.mem.writeWord a (reduce o f (s.mem.readWord a) p) := rfl
@[simp] theorem State.memReduce_syncpts (s : State) (a : Address) (o : ReductionOp) (f : Format) (p : Word)
    (w : Bool) :
    (s.memReduce a o f p w).syncpts = s.syncpts := rfl
@[simp] theorem State.memReduce_events (s : State) (a : Address) (o : ReductionOp) (f : Format) (p : Word)
    (w : Bool) :
    (s.memReduce a o f p w).events =
      s.events ++ [{ chan := s.active.chan, kind := .memReduce a o f p w }] := rfl
@[simp] theorem State.memReduce_params (s : State) (a : Address) (o : ReductionOp) (f : Format) (p : Word)
    (w : Bool) :
    (s.memReduce a o f p w).params = s.params := rfl
@[simp] theorem State.memReduce_draws (s : State) (a : Address) (o : ReductionOp) (f : Format) (p : Word)
    (w : Bool) :
    (s.memReduce a o f p w).draws = s.draws := rfl
@[simp] theorem State.memReduce_inFlight (s : State) (a : Address) (o : ReductionOp) (f : Format) (p : Word)
    (w : Bool) :
    (s.memReduce a o f p w).inFlight = s.inFlight := rfl
@[simp] theorem State.memReduce_inputs (s : State) (a : Address) (o : ReductionOp) (f : Format) (p : Word)
    (w : Bool) :
    (s.memReduce a o f p w).inputs = s.inputs := rfl

@[simp] theorem State.drawn_active (s : State) :
    (s.drawn).active = s.active := rfl
@[simp] theorem State.drawn_parked (s : State) :
    (s.drawn).parked = s.parked := rfl
@[simp] theorem State.drawn_mem (s : State) :
    (s.drawn).mem = s.mem := rfl
@[simp] theorem State.drawn_syncpts (s : State) :
    (s.drawn).syncpts = s.syncpts := rfl
@[simp] theorem State.drawn_events (s : State) :
    (s.drawn).events = s.events := rfl
@[simp] theorem State.drawn_params (s : State) :
    (s.drawn).params = s.params := rfl
@[simp] theorem State.drawn_draws (s : State) :
    (s.drawn).draws = s.draws + 1 := rfl
@[simp] theorem State.drawn_inFlight (s : State) :
    (s.drawn).inFlight = s.inFlight := rfl
@[simp] theorem State.drawn_inputs (s : State) :
    (s.drawn).inputs = s.inputs := rfl

@[simp] theorem State.syncptIncr_active (s : State) (i : SyncptIndex) :
    (s.syncptIncr i).active = s.active := rfl
@[simp] theorem State.syncptIncr_parked (s : State) (i : SyncptIndex) :
    (s.syncptIncr i).parked = s.parked := rfl
@[simp] theorem State.syncptIncr_mem (s : State) (i : SyncptIndex) :
    (s.syncptIncr i).mem = s.mem := rfl
@[simp] theorem State.syncptIncr_syncpts (s : State) (i : SyncptIndex) :
    (s.syncptIncr i).syncpts = s.syncpts.incr i := rfl
@[simp] theorem State.syncptIncr_events (s : State) (i : SyncptIndex) :
    (s.syncptIncr i).events = s.events ++ [{ chan := s.active.chan, kind := .syncptIncr i }] := rfl
@[simp] theorem State.syncptIncr_params (s : State) (i : SyncptIndex) :
    (s.syncptIncr i).params = s.params := rfl
@[simp] theorem State.syncptIncr_draws (s : State) (i : SyncptIndex) :
    (s.syncptIncr i).draws = s.draws := rfl
@[simp] theorem State.syncptIncr_inFlight (s : State) (i : SyncptIndex) :
    (s.syncptIncr i).inFlight = s.inFlight := rfl
@[simp] theorem State.syncptIncr_inputs (s : State) (i : SyncptIndex) :
    (s.syncptIncr i).inputs = s.inputs := rfl

@[simp] theorem State.syncptRead_active (s : State) (i : SyncptIndex) :
    (s.syncptRead i).active = s.active := rfl
@[simp] theorem State.syncptRead_parked (s : State) (i : SyncptIndex) :
    (s.syncptRead i).parked = s.parked := rfl
@[simp] theorem State.syncptRead_mem (s : State) (i : SyncptIndex) :
    (s.syncptRead i).mem = s.mem := rfl
@[simp] theorem State.syncptRead_syncpts (s : State) (i : SyncptIndex) :
    (s.syncptRead i).syncpts = s.syncpts := rfl
@[simp] theorem State.syncptRead_events (s : State) (i : SyncptIndex) :
    (s.syncptRead i).events =
      s.events ++ [{ chan := s.active.chan, kind := .syncptRead i (s.syncpts.read i) }] := rfl
@[simp] theorem State.syncptRead_params (s : State) (i : SyncptIndex) :
    (s.syncptRead i).params = s.params := rfl
@[simp] theorem State.syncptRead_draws (s : State) (i : SyncptIndex) :
    (s.syncptRead i).draws = s.draws := rfl
@[simp] theorem State.syncptRead_inFlight (s : State) (i : SyncptIndex) :
    (s.syncptRead i).inFlight = s.inFlight := rfl
@[simp] theorem State.syncptRead_inputs (s : State) (i : SyncptIndex) :
    (s.syncptRead i).inputs = s.inputs := rfl

@[simp] theorem State.beginAcquire_active (s : State) :
    (s.beginAcquire).active = s.active.withFsm .semWait := rfl
@[simp] theorem State.beginAcquire_parked (s : State) :
    (s.beginAcquire).parked = s.parked := rfl
@[simp] theorem State.beginAcquire_mem (s : State) :
    (s.beginAcquire).mem = s.mem := rfl
@[simp] theorem State.beginAcquire_syncpts (s : State) :
    (s.beginAcquire).syncpts = s.syncpts := rfl
@[simp] theorem State.beginAcquire_events (s : State) :
    (s.beginAcquire).events = s.events := rfl
@[simp] theorem State.beginAcquire_params (s : State) :
    (s.beginAcquire).params = s.params := rfl
@[simp] theorem State.beginAcquire_draws (s : State) :
    (s.beginAcquire).draws = s.draws := rfl
@[simp] theorem State.beginAcquire_inFlight (s : State) :
    (s.beginAcquire).inFlight = s.inFlight := rfl
@[simp] theorem State.beginAcquire_inputs (s : State) :
    (s.beginAcquire).inputs = s.inputs := rfl

@[simp] theorem State.beginSyncptWait_active (s : State) :
    (s.beginSyncptWait).active = s.active.withFsm .syncptWait := rfl
@[simp] theorem State.beginSyncptWait_parked (s : State) :
    (s.beginSyncptWait).parked = s.parked := rfl
@[simp] theorem State.beginSyncptWait_mem (s : State) :
    (s.beginSyncptWait).mem = s.mem := rfl
@[simp] theorem State.beginSyncptWait_syncpts (s : State) :
    (s.beginSyncptWait).syncpts = s.syncpts := rfl
@[simp] theorem State.beginSyncptWait_events (s : State) :
    (s.beginSyncptWait).events = s.events := rfl
@[simp] theorem State.beginSyncptWait_params (s : State) :
    (s.beginSyncptWait).params = s.params := rfl
@[simp] theorem State.beginSyncptWait_draws (s : State) :
    (s.beginSyncptWait).draws = s.draws := rfl
@[simp] theorem State.beginSyncptWait_inFlight (s : State) :
    (s.beginSyncptWait).inFlight = s.inFlight := rfl
@[simp] theorem State.beginSyncptWait_inputs (s : State) :
    (s.beginSyncptWait).inputs = s.inputs := rfl

@[simp] theorem State.onChannel_active (s : State) (c : Nat) (f : ChannelUnit → ChannelUnit) :
    (s.onChannel c f).active = s.active.changedIf c f := rfl
@[simp] theorem State.onChannel_parked (s : State) (c : Nat) (f : ChannelUnit → ChannelUnit) :
    (s.onChannel c f).parked = s.parked.map (fun u => u.changedIf c f) := rfl
@[simp] theorem State.onChannel_mem (s : State) (c : Nat) (f : ChannelUnit → ChannelUnit) :
    (s.onChannel c f).mem = s.mem := rfl
@[simp] theorem State.onChannel_syncpts (s : State) (c : Nat) (f : ChannelUnit → ChannelUnit) :
    (s.onChannel c f).syncpts = s.syncpts := rfl
@[simp] theorem State.onChannel_events (s : State) (c : Nat) (f : ChannelUnit → ChannelUnit) :
    (s.onChannel c f).events = s.events := rfl
@[simp] theorem State.onChannel_params (s : State) (c : Nat) (f : ChannelUnit → ChannelUnit) :
    (s.onChannel c f).params = s.params := rfl
@[simp] theorem State.onChannel_draws (s : State) (c : Nat) (f : ChannelUnit → ChannelUnit) :
    (s.onChannel c f).draws = s.draws := rfl
@[simp] theorem State.onChannel_inFlight (s : State) (c : Nat) (f : ChannelUnit → ChannelUnit) :
    (s.onChannel c f).inFlight = s.inFlight := rfl
@[simp] theorem State.onChannel_inputs (s : State) (c : Nat) (f : ChannelUnit → ChannelUnit) :
    (s.onChannel c f).inputs = s.inputs := rfl

@[simp] theorem State.withTurn_active (s : State) (u : ChannelUnit) (us : List ChannelUnit) :
    (s.withTurn u us).active = u := rfl
@[simp] theorem State.withTurn_parked (s : State) (u : ChannelUnit) (us : List ChannelUnit) :
    (s.withTurn u us).parked = us := rfl
@[simp] theorem State.withTurn_mem (s : State) (u : ChannelUnit) (us : List ChannelUnit) :
    (s.withTurn u us).mem = s.mem := rfl
@[simp] theorem State.withTurn_syncpts (s : State) (u : ChannelUnit) (us : List ChannelUnit) :
    (s.withTurn u us).syncpts = s.syncpts := rfl
@[simp] theorem State.withTurn_events (s : State) (u : ChannelUnit) (us : List ChannelUnit) :
    (s.withTurn u us).events = s.events := rfl
@[simp] theorem State.withTurn_params (s : State) (u : ChannelUnit) (us : List ChannelUnit) :
    (s.withTurn u us).params = s.params := rfl
@[simp] theorem State.withTurn_draws (s : State) (u : ChannelUnit) (us : List ChannelUnit) :
    (s.withTurn u us).draws = s.draws := rfl
@[simp] theorem State.withTurn_inFlight (s : State) (u : ChannelUnit) (us : List ChannelUnit) :
    (s.withTurn u us).inFlight = s.inFlight := rfl
@[simp] theorem State.withTurn_inputs (s : State) (u : ChannelUnit) (us : List ChannelUnit) :
    (s.withTurn u us).inputs = s.inputs := rfl

@[simp] theorem State.accept_active (s : State) (m : Method) (r : List Method) :
    (s.accept m r).active = s.active.withPort r := rfl
@[simp] theorem State.accept_parked (s : State) (m : Method) (r : List Method) :
    (s.accept m r).parked = s.parked := rfl
@[simp] theorem State.accept_mem (s : State) (m : Method) (r : List Method) :
    (s.accept m r).mem = s.mem := rfl
@[simp] theorem State.accept_syncpts (s : State) (m : Method) (r : List Method) :
    (s.accept m r).syncpts = s.syncpts := rfl
@[simp] theorem State.accept_events (s : State) (m : Method) (r : List Method) :
    (s.accept m r).events =
      s.events ++ [{ chan := s.active.chan, kind := .write (Method.index m) (Method.argument m) }] := rfl
@[simp] theorem State.accept_params (s : State) (m : Method) (r : List Method) :
    (s.accept m r).params = s.params := rfl
@[simp] theorem State.accept_draws (s : State) (m : Method) (r : List Method) :
    (s.accept m r).draws = s.draws := rfl
@[simp] theorem State.accept_inFlight (s : State) (m : Method) (r : List Method) :
    (s.accept m r).inFlight = s.inFlight := rfl
@[simp] theorem State.accept_inputs (s : State) (m : Method) (r : List Method) :
    (s.accept m r).inputs = s.inputs := rfl

@[simp] theorem State.slot_eq_peek (s : State) (i : SlotIndex) : s.slot i = s.active.peek i := rfl

end Sys2Proof.Machine
end

