-- ==== Sys2Proof/Laws/Words.lean ====
section
/-! SUPPORT. The fields of each assembled argument, the arguments assembled from their own fields
(spec/10_state.md R24 to R36), and the two fields of a transaction (spec/30_encoding.md R90). -/

namespace Sys2Proof

/-! ## Fields of an assembled argument -/

theorem setObjectWord_fields (c : BitVec 16) (e : BitVec 5) (p : BitVec 11) :
    (setObjectWord c e p).extractLsb' 0 16 = c ∧ (setObjectWord c e p).extractLsb' 16 5 = e ∧
      (setObjectWord c e p).extractLsb' 21 11 = p := by
  simp [setObjectWord, extract_or, extract_place_same, extract_place_other]

theorem semaphoreAWord_fields (u : BitVec 8) (p : BitVec 24) :
    (semaphoreAWord u p).extractLsb' 0 8 = u ∧ (semaphoreAWord u p).extractLsb' 8 24 = p := by
  simp [semaphoreAWord, extract_or, extract_place_same, extract_place_other]

theorem semaphoreBWord_fields (l : BitVec 30) (p : BitVec 2) :
    (semaphoreBWord l p).extractLsb' 2 30 = l ∧ (semaphoreBWord l p).extractLsb' 0 2 = p := by
  simp [semaphoreBWord, extract_or, extract_place_same, extract_place_other]

@[simp] theorem semaphoreDWord_operation (op : BitVec 5) (red : BitVec 4) (c : SemControl) :
    (semaphoreDWord op red c).extractLsb' 0 5 = op := by
  simp [semaphoreDWord, extract_or, extract_place_same, extract_place_other]

@[simp] theorem semaphoreDWord_reduction (op : BitVec 5) (red : BitVec 4) (c : SemControl) :
    (semaphoreDWord op red c).extractLsb' 27 4 = red := by
  simp [semaphoreDWord, extract_or, extract_place_same, extract_place_other]

/-- Bit 30 of an argument at slot 7 is the top bit of the reduction. -/
theorem semaphoreDWord_bit30 (op : BitVec 5) (red : BitVec 4) (c : SemControl) :
    (semaphoreDWord op red c).extractLsb' 30 1 = red.extractLsb' 3 1 := by
  conv_rhs => rw [← semaphoreDWord_reduction op red c]
  apply BitVec.eq_of_getLsbD_eq
  intro i hi
  simp only [BitVec.getLsbD_extractLsb', ← Nat.add_assoc]
  simp [show 3 + i < 4 by omega]

@[simp] theorem semaphoreDWord_acquireSwitch (op : BitVec 5) (red : BitVec 4) (c : SemControl) :
    (semaphoreDWord op red c).extractLsb' 12 1 = c.acquireSwitch.toBits := by
  simp [semaphoreDWord, extract_or, extract_place_same, extract_place_other]

@[simp] theorem semaphoreDWord_releaseSize (op : BitVec 5) (red : BitVec 4) (c : SemControl) :
    (semaphoreDWord op red c).extractLsb' 24 1 = c.releaseSize.toBits := by
  simp [semaphoreDWord, extract_or, extract_place_same, extract_place_other]

@[simp] theorem semControl_ofWord (op : BitVec 5) (red : BitVec 4) (c : SemControl) :
    SemControl.ofWord (semaphoreDWord op red c) = c := by
  cases c
  simp [SemControl.ofWord, semaphoreDWord, extract_or, extract_place_same, extract_place_other]

theorem memOpCWord_fields (s : TlbScope) (r : BitVec 31) :
    (memOpCWord s r).extractLsb' 0 1 = s.toBits ∧ (memOpCWord s r).extractLsb' 1 31 = r := by
  simp [memOpCWord, extract_or, extract_place_same, extract_place_other]

@[simp] theorem syncpointBWord_operation (op : BitVec 1) (sw : Switch) (c : SyncptControl) :
    (syncpointBWord op sw c).extractLsb' 0 1 = op := by
  simp [syncpointBWord, extract_or, extract_place_same, extract_place_other]

@[simp] theorem syncpointBWord_waitSwitch (op : BitVec 1) (sw : Switch) (c : SyncptControl) :
    (syncpointBWord op sw c).extractLsb' 4 1 = sw.toBits := by
  simp [syncpointBWord, extract_or, extract_place_same, extract_place_other]

@[simp] theorem syncpointBWord_index (op : BitVec 1) (sw : Switch) (c : SyncptControl) :
    (syncpointBWord op sw c).extractLsb' 8 12 = c.index := by
  simp [syncpointBWord, extract_or, extract_place_same, extract_place_other]

@[simp] theorem syncptControl_ofWord (op : BitVec 1) (sw : Switch) (c : SyncptControl) :
    SyncptControl.ofWord (syncpointBWord op sw c) = c := by
  cases c
  simp [SyncptControl.ofWord, syncpointBWord, extract_or, extract_place_same, extract_place_other]

theorem wfiWord_fields (s : WfiScope) (p : BitVec 31) :
    (wfiWord s p).extractLsb' 0 1 = s.toBits ∧ (wfiWord s p).extractLsb' 1 31 = p := by
  simp [wfiWord, extract_or, extract_place_same, extract_place_other]

theorem yieldWord_fields (o : YieldOp) (p : BitVec 30) :
    (yieldWord o p).extractLsb' 0 2 = o.toBits ∧ (yieldWord o p).extractLsb' 2 30 = p := by
  simp [yieldWord, extract_or, extract_place_same, extract_place_other]

/-! ## An argument is assembled from its own fields -/

theorem setObjectWord_extract (w : Word) :
    setObjectWord (w.extractLsb' 0 16) (w.extractLsb' 16 5) (w.extractLsb' 21 11) = w := by
  apply BitVec.eq_of_getLsbD_eq
  intro i hi
  simp only [setObjectWord, BitVec.getLsbD_or, getLsbD_place_extract]
  interval_cases i <;> simp

theorem semaphoreAWord_extract (w : Word) :
    semaphoreAWord (w.extractLsb' 0 8) (w.extractLsb' 8 24) = w := by
  apply BitVec.eq_of_getLsbD_eq
  intro i hi
  simp only [semaphoreAWord, BitVec.getLsbD_or, getLsbD_place_extract]
  interval_cases i <;> simp

theorem semaphoreBWord_extract (w : Word) :
    semaphoreBWord (w.extractLsb' 2 30) (w.extractLsb' 0 2) = w := by
  apply BitVec.eq_of_getLsbD_eq
  intro i hi
  simp only [semaphoreBWord, BitVec.getLsbD_or, getLsbD_place_extract]
  interval_cases i <;> simp

theorem semaphoreDWord_extract (w : Word) :
    semaphoreDWord (w.extractLsb' 0 5) (w.extractLsb' 27 4) (SemControl.ofWord w) = w := by
  apply BitVec.eq_of_getLsbD_eq
  intro i hi
  simp only [semaphoreDWord, SemControl.ofWord, Switch.toBits_ofBits, ReleaseWfi.toBits_ofBits,
    ReleaseSize.toBits_ofBits, Format.toBits_ofBits, BitVec.getLsbD_or, getLsbD_place_extract]
  interval_cases i <;> simp

theorem memOpCWord_extract (w : Word) :
    memOpCWord (TlbScope.ofBits (w.extractLsb' 0 1)) (w.extractLsb' 1 31) = w := by
  apply BitVec.eq_of_getLsbD_eq
  intro i hi
  simp only [memOpCWord, TlbScope.toBits_ofBits, BitVec.getLsbD_or, getLsbD_place_extract]
  interval_cases i <;> simp

theorem syncpointBWord_extract (w : Word) :
    syncpointBWord (w.extractLsb' 0 1) (Switch.ofBits (w.extractLsb' 4 1)) (SyncptControl.ofWord w) =
      w := by
  apply BitVec.eq_of_getLsbD_eq
  intro i hi
  simp only [syncpointBWord, SyncptControl.ofWord, Switch.toBits_ofBits, BitVec.getLsbD_or,
    getLsbD_place_extract]
  interval_cases i <;> simp

theorem wfiWord_extract (w : Word) :
    wfiWord (WfiScope.ofBits (w.extractLsb' 0 1)) (w.extractLsb' 1 31) = w := by
  apply BitVec.eq_of_getLsbD_eq
  intro i hi
  simp only [wfiWord, WfiScope.toBits_ofBits, BitVec.getLsbD_or, getLsbD_place_extract]
  interval_cases i <;> simp

theorem yieldWord_extract (w : Word) :
    yieldWord (YieldOp.ofBits (w.extractLsb' 0 2)) (w.extractLsb' 2 30) = w := by
  apply BitVec.eq_of_getLsbD_eq
  intro i hi
  simp only [yieldWord, YieldOp.toBits_ofBits, BitVec.getLsbD_or, getLsbD_place_extract]
  interval_cases i <;> simp

/-! ## Transactions -/

@[simp] theorem method_index_encode (i : Instr) : Method.index (encode i) = i.index := by
  simp [Method.index, encode, extract_or, extract_place_same, extract_place_other]

@[simp] theorem method_argument_encode (i : Instr) : Method.argument (encode i) = i.argument := by
  simp [Method.argument, encode, extract_or, extract_place_same, extract_place_other]

/-- A transaction is its index and its argument, no bit more. -/
theorem method_eq_place (m : Method) :
    place 44 32 (Method.index m) ||| place 44 0 (Method.argument m) = m := by
  apply BitVec.eq_of_getLsbD_eq
  intro i hi
  simp only [Method.index, Method.argument, BitVec.getLsbD_or, getLsbD_place_extract]
  by_cases h : i < 32 <;> simp [h]
  omega

theorem method_index_toNat (m : Method) : (Method.index m).toNat = m.toNat / 2 ^ 32 := by
  have := m.isLt
  rw [Method.index, BitVec.extractLsb'_toNat, Nat.shiftRight_eq_div_pow]
  omega

theorem method_argument_toNat (m : Method) : (Method.argument m).toNat = m.toNat % 2 ^ 32 := by
  rw [Method.argument, BitVec.extractLsb'_toNat, Nat.shiftRight_zero]

@[simp] theorem slotMethodIndex_toNat (i : SlotIndex) : (slotMethodIndex i).toNat = i.toNat := by
  simp only [slotMethodIndex, BitVec.toNat_setWidth]
  omega

@[simp] theorem slotMethodIndex_setWidth (i : SlotIndex) : (slotMethodIndex i).setWidth 6 = i := by
  apply BitVec.eq_of_toNat_eq
  simp only [BitVec.toNat_setWidth, slotMethodIndex_toNat]
  omega

/-- An index below 64 is the index of the slot with its low six bits (R91). -/
theorem slotMethodIndex_of_lt {i : MethodIndex} (h : i.toNat < 64) :
    slotMethodIndex (i.setWidth 6) = i := by
  apply BitVec.eq_of_toNat_eq
  simp only [slotMethodIndex_toNat, BitVec.toNat_setWidth]
  omega

/-- Every slot index is in range. -/
theorem slotMethodIndex_lt (i : SlotIndex) : (slotMethodIndex i).toNat < regCount := by
  simpa [regCount] using i.isLt

namespace Machine

theorem methodWord_toNat {index : Nat} (h : index < 2 ^ 12) (arg : Word) :
    (methodWord index arg).toNat = index * 2 ^ 32 + arg.toNat := by
  simp only [methodWord, BitVec.toNat_ofNat]
  omega

/-- The index field of a transaction written as a number. -/
theorem method_index_methodWord {index : Nat} (h : index < 2 ^ 12) (arg : Word) :
    (Method.index (methodWord index arg)).toNat = index := by
  rw [method_index_toNat, methodWord_toNat h]
  have := arg.isLt
  omega

/-- The argument field of a transaction written as a number. -/
theorem method_argument_methodWord {index : Nat} (h : index < 2 ^ 12) (arg : Word) :
    Method.argument (methodWord index arg) = arg := by
  apply BitVec.eq_of_toNat_eq
  rw [method_argument_toNat, methodWord_toNat h]
  have := arg.isLt
  omega

end Machine

/-! ## Decoding by stage (R91) -/

/-- Stages 2 and 3 decide a transaction whose index is that of a slot. -/
theorem decode_of_slot {m : Method} {i : SlotIndex} (h : Method.index m = slotMethodIndex i) :
    decode m = decodeSlot i (Method.argument m) := by
  rw [decode, h, if_neg (Nat.not_le.mpr (slotMethodIndex_lt i)), slotMethodIndex_setWidth]

/-- Stage 1 decides a transaction whose index no slot has. -/
theorem decode_of_outOfRange {m : Method} (h : 64 ≤ (Method.index m).toNat) :
    decode m = .oor (Method.index m) (Method.argument m) := by
  simp [decode, regCount, h]

/-- A transaction written as a number, with the number of a slot for its index. -/
theorem decode_methodWord (i : SlotIndex) (arg : Word) :
    decode (Machine.methodWord i.toNat arg) = decodeSlot i arg := by
  have h : i.toNat < 2 ^ 12 := by omega
  rw [decode_of_slot (i := i), Machine.method_argument_methodWord h]
  apply BitVec.eq_of_toNat_eq
  rw [Machine.method_index_methodWord h, slotMethodIndex_toNat]

/-- Stage 2 at one of the 47 slots with no named view (R91). -/
theorem decodeSlot_unimplemented {i : SlotIndex} (arg : Word) (h : slotUnimplemented i = true) :
    decodeSlot i arg = .unimpl i arg := by
  simp only [slotUnimplemented, namedSlots, List.contains_cons, Bool.not_eq_true',
    Bool.or_eq_false_iff, beq_eq_false_iff_ne] at h
  simp [decodeSlot, h]

/-- Every slot is one of the 17 named ones or one of the 47 others (R22, R38). -/
theorem slot_cases (i : SlotIndex) : i ∈ namedSlots ∨ slotUnimplemented i = true := by
  revert i; decide

/-- The transaction of a method whose index is that of a slot. -/
theorem decode_encode_slot {i : Instr} (k : SlotIndex) (h : i.index = slotMethodIndex k) :
    decode (encode i) = decodeSlot k i.argument := by
  rw [decode_of_slot (i := k) (by simp [h]), method_argument_encode]

/-- Stage 3 at slot 7 for a control word with a defined reduction (R94). -/
theorem decodeSemaphoreD_word (op : BitVec 5) (red : ReductionOp) (c : SemControl) :
    decodeSemaphoreD (semaphoreDWord op red.toBits c) =
      if op = opAcquire then .semAcquire red c
      else if op = opRelease then .semRelease red c
      else if op = opAcqGeq then .semAcqGeq red c
      else if op = opAcqAnd then .semAcqAnd red c
      else if op = opReduction then reductionMethod red c
      else .semReserved op red.toBits c := by
  simp [decodeSemaphoreD]

/-- Stage 3 at slot 7 for a reserved control word (R95). -/
theorem decodeSemaphoreD_reserved {op : BitVec 5} {red : BitVec 4} (c : SemControl)
    (h : controlReserved op red = true) :
    decodeSemaphoreD (semaphoreDWord op red c) = .semReserved op red c := by
  simp only [decodeSemaphoreD, semaphoreDWord_operation, semaphoreDWord_reduction,
    semControl_ofWord]
  cases hr : ReductionOp.ofBits red with
  | none => rfl
  | some r =>
    have hd : reductionDefined red = true := by
      by_contra hn
      rw [(ReductionOp.ofBits_eq_none red).mpr (by simpa using hn)] at hr
      cases hr
    simp only [controlReserved, operationDefined, hd] at h
    simp_all [opAcquire, opRelease, opAcqGeq, opAcqAnd, opReduction]

/-- Stage 3 at slot 29 (R94). -/
theorem decodeSyncpointB_word (op : BitVec 1) (sw : Switch) (c : SyncptControl) :
    decodeSyncpointB (syncpointBWord op sw c) =
      if op = opIncr then .syncptIncr sw c
      else match sw with
        | .enabled => .syncptWait c
        | .disabled => .syncptWaitNoswitch c := by
  cases sw <;> simp [decodeSyncpointB]

end Sys2Proof
end

