-- ==== Sys2Proof/Laws/Ops.lean ====
section
/-! SUPPORT. What each shared operation can do, said once: the word and byte accesses of memory, the
semaphore and syncpoint actions, the steps of a pending wait, and the steps of the agents. -/

namespace Sys2Proof.Machine

/-! ## Memory at a distance -/

/-- Four bytes further on, an address has the same distance from a word boundary. -/
theorem extractLsb'_two_add_four (a : Address) :
    (a + 4).extractLsb' 0 2 = a.extractLsb' 0 2 := by
  apply BitVec.eq_of_toNat_eq
  have h4 : (4 : Address).toNat = 4 := rfl
  simp only [BitVec.extractLsb'_toNat, BitVec.toNat_add, h4, Nat.shiftRight_zero]
  omega

/-- The distance from `a` to `a + k`. -/
theorem address_add_sub (a : Address) (k : Nat) (h : k < 2 ^ 40) :
    (a + BitVec.ofNat 40 k - a).toNat = k := by
  bv_omega

/-- A byte at distance 4 or more is outside a word write. -/
theorem Memory.readByte_writeWord_far (m : Memory) {a b : Address} (v : Word)
    (h : 4 ≤ (b - a).toNat) : (m.writeWord a v).readByte b = m.readByte b := by
  apply Memory.readByte_writeWord_other
  refine ⟨?_, ?_, ?_, ?_⟩ <;> bv_omega

/-- A word at distance 4 or more, before the write's own distance from behind, reads as before. -/
theorem Memory.readWord_writeWord_far (m : Memory) {a b : Address} (v : Word)
    (h : 4 ≤ (b - a).toNat) (h' : (b - a).toNat ≤ 2 ^ 40 - 4) :
    (m.writeWord a v).readWord b = m.readWord b := by
  apply Memory.readWord_congr <;> apply Memory.readByte_writeWord_far <;> bv_omega

/-! ## Storing a control word (R153) -/

@[simp] theorem State.storeControl_active (s : State) (op : BitVec 5) (red : BitVec 4)
    (c : SemControl) : (s.storeControl op red c).active =
      s.active.store Slot.semaphoreD (semaphoreDWord op red c) := rfl
@[simp] theorem State.storeControl_parked (s : State) (op : BitVec 5) (red : BitVec 4)
    (c : SemControl) : (s.storeControl op red c).parked = s.parked := rfl
@[simp] theorem State.storeControl_mem (s : State) (op : BitVec 5) (red : BitVec 4)
    (c : SemControl) : (s.storeControl op red c).mem = s.mem := rfl
@[simp] theorem State.storeControl_syncpts (s : State) (op : BitVec 5) (red : BitVec 4)
    (c : SemControl) : (s.storeControl op red c).syncpts = s.syncpts := rfl
@[simp] theorem State.storeControl_events (s : State) (op : BitVec 5) (red : BitVec 4)
    (c : SemControl) : (s.storeControl op red c).events = s.events := rfl
@[simp] theorem State.storeControl_params (s : State) (op : BitVec 5) (red : BitVec 4)
    (c : SemControl) : (s.storeControl op red c).params = s.params := rfl
@[simp] theorem State.storeControl_draws (s : State) (op : BitVec 5) (red : BitVec 4)
    (c : SemControl) : (s.storeControl op red c).draws = s.draws := rfl
@[simp] theorem State.storeControl_inFlight (s : State) (op : BitVec 5) (red : BitVec 4)
    (c : SemControl) : (s.storeControl op red c).inFlight = s.inFlight := rfl
@[simp] theorem State.storeControl_inputs (s : State) (op : BitVec 5) (red : BitVec 4)
    (c : SemControl) : (s.storeControl op red c).inputs = s.inputs := rfl

theorem State.nextTimestamp_congr {s t : State} (h : t.draws = s.draws) :
    t.nextTimestamp = s.nextTimestamp := by
  simp [State.nextTimestamp, h]

@[simp] theorem State.storeControl_nextTimestamp (s : State) (op : BitVec 5) (red : BitVec 4)
    (c : SemControl) : (s.storeControl op red c).nextTimestamp = s.nextTimestamp := rfl
@[simp] theorem State.memReduce_nextTimestamp (s : State) (a : Address) (o : ReductionOp)
    (f : Format) (p : Word) (w : Bool) : (s.memReduce a o f p w).nextTimestamp = s.nextTimestamp :=
  rfl

/-- What the trailer of a 16-byte reduction leaves: its three words in flight (R168, R68(d)). -/
@[simp] theorem State.trailer_inFlight (s : State) (a : Address) (w : Bool) :
    (s.trailer a w).inFlight = s.inFlight ++
      wordWrites s.active.chan (a + 4) (trailerWords s.nextTimestamp) := rfl
@[simp] theorem State.trailer_mem (s : State) (a : Address) (w : Bool) :
    (s.trailer a w).mem = s.mem := rfl
@[simp] theorem State.trailer_active (s : State) (a : Address) (w : Bool) :
    (s.trailer a w).active = s.active := rfl
@[simp] theorem State.trailer_events (s : State) (a : Address) (w : Bool) :
    (s.trailer a w).events = s.events ++
      [{ chan := s.active.chan, kind := .memWrite (a + 4) (trailerWords s.nextTimestamp) w }] := rfl
@[simp] theorem State.trailer_draws (s : State) (a : Address) (w : Bool) :
    (s.trailer a w).draws = s.draws + 1 := rfl
@[simp] theorem State.trailer_parked (s : State) (a : Address) (w : Bool) :
    (s.trailer a w).parked = s.parked := rfl
@[simp] theorem State.trailer_syncpts (s : State) (a : Address) (w : Bool) :
    (s.trailer a w).syncpts = s.syncpts := rfl
@[simp] theorem State.trailer_params (s : State) (a : Address) (w : Bool) :
    (s.trailer a w).params = s.params := rfl
@[simp] theorem State.trailer_inputs (s : State) (a : Address) (w : Bool) :
    (s.trailer a w).inputs = s.inputs := rfl

/-! ## Words in flight -/

/-- The words of one write all belong to its unit, and where the write is aligned so is each. -/
theorem wordWrites_spec {c : Nat} {a : Address} {ds : List Word} (ha : a.extractLsb' 0 2 = 0) :
    ∀ w ∈ wordWrites c a ds, w.chan = c ∧ w.addr.extractLsb' 0 2 = 0 := by
  induction ds generalizing a with
  | nil => simp [wordWrites]
  | cons d ds ih =>
    rintro w (_ | ⟨_, hw⟩)
    · exact ⟨rfl, ha⟩
    · exact ih (a := a + 4) (by rw [extractLsb'_two_add_four, ha]) w hw

/-- The addresses of the words of a 16-byte write: 4 bytes apart (R64). -/
theorem wordWrites_four (c : Nat) (a : Address) (w0 w1 w2 w3 : Word) :
    wordWrites c a [w0, w1, w2, w3] =
      [⟨c, a, w0⟩, ⟨c, a + 4, w1⟩, ⟨c, a + 8, w2⟩, ⟨c, a + 12, w3⟩] := by
  have e8 : a + 4 + 4 = a + 8 := by bv_omega
  have e12 : a + 8 + 4 = a + 12 := by bv_omega
  simp only [wordWrites, e8, e12]

/-- The addresses of the words of a trailer, behind the word at `a` (R168). -/
theorem wordWrites_trailer (c : Nat) (a : Address) (w1 w2 w3 : Word) :
    wordWrites c (a + 4) [w1, w2, w3] =
      [⟨c, a + 4, w1⟩, ⟨c, a + 8, w2⟩, ⟨c, a + 12, w3⟩] := by
  have e8 : a + 4 + 4 = a + 8 := by bv_omega
  have e12 : a + 8 + 4 = a + 12 := by bv_omega
  simp only [wordWrites, e8, e12]

/-- The writing of the word behind `before`: its four bytes are stored and it is no longer in flight. -/
theorem State.land_append {s : State} {before after : List WordWrite} {w : WordWrite}
    (h : s.inFlight = before ++ w :: after) : s.land before.length =
      { s with mem := s.mem.writeWord w.addr w.value, inFlight := before ++ after } := by
  simp [State.land, h, List.eraseIdx_append_of_length_le]

/-- The first element that satisfies `p`, with what stands before it and its place; or none does. -/
theorem findIdx?_split {α : Type} (p : α → Bool) (l : List α) :
    (∃ before w after, l = before ++ w :: after ∧ p w = true ∧ (∀ x ∈ before, p x = false) ∧
      l.findIdx? p = some before.length) ∨
    ((∀ x ∈ l, p x = false) ∧ l.findIdx? p = none) := by
  cases h : l.find? p with
  | none => exact .inr (by simpa using h)
  | some w =>
    obtain ⟨hw, before, after, rfl, hb⟩ := List.find?_eq_some_iff_append.mp h
    refine .inl ⟨before, w, after, rfl, hw, by simpa using hb, ?_⟩
    rw [List.findIdx?_append, List.findIdx?_eq_none_iff.mpr (by simpa using hb), List.findIdx?_cons, hw]
    simp

/-! ## The semaphore operands -/

/-- Storing into a slot other than 4 and 5 leaves the semaphore address alone (R61). -/
theorem semAddress_store {s : State} {i : SlotIndex} (v : Word) (ha : i ≠ Slot.semaphoreA)
    (hb : i ≠ Slot.semaphoreB) : (s.store i v).semAddress = s.semAddress := by
  simp [State.semAddress, ChannelUnit.semAddress, ChannelUnit.store_peek_other _ v ha.symm,
    ChannelUnit.store_peek_other _ v hb.symm]

@[simp] theorem semAddress_storeControl (s : State) (op : BitVec 5) (red : BitVec 4)
    (c : SemControl) : (s.storeControl op red c).semAddress = s.semAddress :=
  semAddress_store _ (by decide) (by decide)

@[simp] theorem semPayload_storeControl (s : State) (op : BitVec 5) (red : BitVec 4)
    (c : SemControl) : (s.storeControl op red c).semPayload = s.slot 6 :=
  s.active.store_peek_other _ (by decide)

/-- The semaphore address is word-aligned: its low two bits are 0 (R61). -/
theorem State.semAddress_aligned (s : State) : s.semAddress.extractLsb' 0 2 = 0 := by
  apply BitVec.eq_of_getLsbD_eq
  intro i hi
  simp [State.semAddress, ChannelUnit.semAddress, getLsbD_place, hi, show ¬ 2 ≤ i by omega,
    show ¬ 32 ≤ i by omega]

/-- The address is a multiple of 16 exactly when bits 3:2 of slot 5 are 0 (R65). -/
theorem aligned16_semAddress (s : State) :
    aligned16 s.semAddress = ((s.slot 5).extractLsb' 2 2 == 0) := by
  have h : s.semAddress.extractLsb' 2 2 = (s.slot 5).extractLsb' 2 2 := by
    apply BitVec.eq_of_getLsbD_eq
    intro i hi
    simp only [State.semAddress, ChannelUnit.semAddress, BitVec.getLsbD_extractLsb',
      BitVec.getLsbD_or, getLsbD_place, hi, decide_true, Bool.true_and,
      show ¬ 32 ≤ 2 + i by omega, decide_false, Bool.and_false, Bool.false_and, Bool.false_or,
      show 2 + i < 40 by omega, Nat.le_add_right, Nat.add_sub_cancel_left,
      show i < 30 by omega]
    rfl
  simp [aligned16, h]

theorem misaligned_iff (s : State) (c : SemControl) :
    misaligned c s.semAddress = true ↔
      c.releaseSize = .sixteenBytes ∧ (s.slot 5).extractLsb' 2 2 ≠ 0 := by
  simp [misaligned, aligned16_semAddress]

/-! ## The semaphore actions -/

/-- What a release does: the fault of R166, or the write of its size (R165), that of
16 bytes with its four words in flight (R68(c)). -/
theorem State.release_cases (s : State) (arg : Word) (c : SemControl) :
    (misaligned c s.semAddress = true ∧
      s.release arg c =
        s.raiseFault .unsupportedOperation (slotMethodIndex Slot.semaphoreD) arg) ∨
    (misaligned c s.semAddress = false ∧ c.releaseSize = .fourBytes ∧
      s.release arg c = s.memWrite s.semAddress s.semPayload (wfiFlag c)) ∨
    (misaligned c s.semAddress = false ∧ c.releaseSize = .sixteenBytes ∧
      s.release arg c =
        (s.issueWrite s.semAddress (releaseWords s.semPayload s.nextTimestamp) (wfiFlag c)).drawn) := by
  unfold State.release
  cases hm : misaligned c s.semAddress <;> cases hs : c.releaseSize <;> simp

/-- What a reduction does: the fault of R166, or the read-modify-write of R167, with the trailer of
R168 for the 16-byte size. -/
theorem State.reduction_cases (s : State) (op : ReductionOp) (arg : Word) (c : SemControl) :
    (misaligned c s.semAddress = true ∧
      s.reduction op arg c =
        s.raiseFault .unsupportedOperation (slotMethodIndex Slot.semaphoreD) arg) ∨
    (misaligned c s.semAddress = false ∧ c.releaseSize = .fourBytes ∧
      s.reduction op arg c =
        s.memReduce s.semAddress op c.format s.semPayload (wfiFlag c)) ∨
    (misaligned c s.semAddress = false ∧ c.releaseSize = .sixteenBytes ∧
      s.reduction op arg c =
        (s.memReduce s.semAddress op c.format s.semPayload (wfiFlag c)).trailer s.semAddress
          (wfiFlag c)) := by
  unfold State.reduction
  cases hm : misaligned c s.semAddress <;> cases hs : c.releaseSize <;> simp

/-! ## The syncpoint actions -/

/-- What the index check does: the action, or the fault of R212. -/
theorem State.checkSyncpt_cases (s t : State) (i : SyncptIndex) (arg : Word) :
    (i.toNat < s.params.numSyncpt ∧ s.checkSyncpt i arg t = t) ∨
    (s.params.numSyncpt ≤ i.toNat ∧ s.checkSyncpt i arg t =
      s.raiseFault .unsupportedOperation (slotMethodIndex Slot.syncpointB) arg) := by
  by_cases h : i.toNat < s.params.numSyncpt
  · exact .inl ⟨h, by simp [State.checkSyncpt, State.syncptExists, h]⟩
  · exact .inr ⟨Nat.not_lt.mp h, by simp [State.checkSyncpt, State.syncptExists, h]⟩

/-! ## The steps of a pending wait -/

/-- What a poll does: one read, and the return to IDLE exactly when it is satisfied (R163). -/
theorem State.poll_cases (s : State) :
    (acquireSatisfied s.params.acqGeqOrder s.active.semOperation (s.mem.readWord s.semAddress)
        s.semPayload = true ∧ s.poll = (s.memRead s.semAddress).setFsm .idle) ∨
    (acquireSatisfied s.params.acqGeqOrder s.active.semOperation (s.mem.readWord s.semAddress)
        s.semPayload = false ∧ s.poll = s.memRead s.semAddress) := by
  unfold State.poll
  cases h : acquireSatisfied s.params.acqGeqOrder s.active.semOperation
    (s.mem.readWord s.semAddress) s.semPayload <;> simp [h]

/-- What a test does: one read, and the return to IDLE exactly when the threshold is reached (R216). -/
theorem State.test_cases (s : State) :
    (thresholdReached (s.syncpts.read s.active.waitIndex) s.active.waitThreshold = true ∧
      s.test = (s.syncptRead s.active.waitIndex).setFsm .idle) ∨
    (thresholdReached (s.syncpts.read s.active.waitIndex) s.active.waitThreshold = false ∧
      s.test = s.syncptRead s.active.waitIndex) := by
  unfold State.test
  cases h : thresholdReached (s.syncpts.read s.active.waitIndex) s.active.waitThreshold <;> simp [h]

/-! ## The steps of the agents -/

theorem State.hasChannel_iff (s : State) (c : Nat) :
    s.hasChannel c = true ↔ ∃ u ∈ s.units, u.chan = c := by
  simp [State.hasChannel, State.units]

@[simp] theorem ChannelUnit.changedIf_chan (u : ChannelUnit) (c : Nat)
    (f : ChannelUnit → ChannelUnit) (h : ∀ w, (f w).chan = w.chan) :
    (u.changedIf c f).chan = u.chan := by
  unfold ChannelUnit.changedIf
  split
  · exact h u
  · rfl

/-- What the owner's step on a channel does to the units: `f` on each unit of that channel. -/
theorem State.onChannel_units (s : State) (c : Nat) (f : ChannelUnit → ChannelUnit) :
    (s.onChannel c f).units = s.units.map fun u => u.changedIf c f := rfl

/-- Passing the turn on: the unit that has waited longest has it, and the units are the same, in
another order. -/
theorem State.nextTurn_eq (s : State) : ∃ others,
    s.nextTurn = s.withTurn (s.parked.headD s.active) others ∧
      (s.parked.headD s.active :: others).Perm s.units := by
  unfold State.nextTurn
  cases hp : s.parked with
  | nil => exact ⟨s.parked, rfl, by simp [State.units, hp]⟩
  | cons u us =>
    refine ⟨us ++ [s.active], rfl, ?_⟩
    rw [State.units, hp, List.headD_cons]
    exact (List.Perm.cons u List.perm_append_comm).trans (List.Perm.swap _ _ _)

/-- Giving the turn answers a state exactly when the channel exists; the first unit of that channel
has it, and the units are the same, in another order. -/
theorem State.giveTurn_some {s t : State} {c : Nat} (h : s.giveTurn c = some t) : ∃ u others,
    t = s.withTurn u others ∧ (u :: others).Perm s.units ∧
      s.units.find? (fun w => w.chan == c) = some u := by
  unfold State.giveTurn at h
  split at h
  · next hc =>
    cases h
    exact ⟨s.active, s.parked, rfl, .refl _, by simp [State.units, hc]⟩
  · next hc =>
    split at h
    · cases h
    · next u hu =>
      cases h
      refine ⟨u, _, rfl, ?_, by simpa [State.units, hc] using hu⟩
      obtain ⟨hp, as, bs, he, hn⟩ := List.find?_eq_some_iff_append.mp hu
      have hb : (u :: bs).eraseP (fun w => w.chan == c) = bs := by simp [hp]
      rw [he, List.eraseP_append_right _ (by simpa using hn), hb, State.units, he]
      have hu' : (u :: (as ++ bs)).Perm (as ++ u :: bs) := List.perm_middle.symm
      exact (hu'.append_right [s.active]).trans List.perm_append_comm

/-- Giving the turn to a unit that waits for it, where no two units have one channel number: that
unit moves next, and the one that moved waits behind all others. -/
theorem State.giveTurn_parked {s : State} {w : ChannelUnit} (h : (s.units.map (·.chan)).Nodup)
    (hw : w ∈ s.parked) :
    s.giveTurn w.chan =
      some (s.withTurn w (s.parked.eraseP (fun u => u.chan == w.chan) ++ [s.active])) := by
  simp only [State.units, List.map_cons, List.nodup_cons, List.mem_map, not_exists, not_and] at h
  have hne : s.active.chan ≠ w.chan := fun e => h.1 w hw e.symm
  have hf : s.parked.find? (fun u => u.chan == w.chan) = some w := by
    cases hf : s.parked.find? (fun u => u.chan == w.chan) with
    | none => exact absurd (beq_self_eq_true w.chan) (List.find?_eq_none.mp hf w hw)
    | some u =>
      have hu : u.chan = w.chan := by simpa using List.find?_some hf
      rw [List.inj_on_of_nodup_map h.2 (List.mem_of_find?_eq_some hf) hw hu]
  rw [State.giveTurn, if_neg hne, hf]

/-- Giving the turn fails only where no unit has the channel number. -/
theorem State.giveTurn_none {s : State} {c : Nat} (h : s.giveTurn c = none) :
    ∀ u ∈ s.units, u.chan ≠ c := by
  unfold State.giveTurn at h
  split at h
  · cases h
  · next hc =>
    split at h
    · next hn =>
      rw [List.find?_eq_none] at hn
      simpa [State.units, hc] using hn
    · cases h

/-- What a step does: the first input, or, when there is none, the step of the unit that has waited
longest. -/
theorem step_eq (s : State) :
    (s.inputs = [] ∧ step s = unitStep s.nextTurn) ∨
    (∃ a later, s.inputs = a :: later ∧ step s = performInput a { s with inputs := later }) := by
  simp only [step, systemStep]
  cases h : s.inputs with
  | nil => simp
  | cons a later => simp

theorem State.withTurn_taken {s : State} {u : ChannelUnit} {others : List ChannelUnit}
    {later : List Input} (hp : (u :: others).Perm s.units) (hi : later = s.inputs.tail) :
    TurnTaken s u ({ s with inputs := later }.withTurn u others) where
  active := rfl
  units := hp
  mem := rfl
  inFlight := rfl
  syncpts := rfl
  events := rfl
  params := rfl
  draws := rfl
  inputs := hi

/-- The step in which a unit moves is that unit's own step, once it has the turn. -/
theorem step_of_moves {s : State} {u : ChannelUnit} (h : Moves s u) :
    ∃ v, TurnTaken s u v ∧ step s = unitStep v := by
  rcases step_eq s with ⟨hi, e⟩ | ⟨a, later, hi, e⟩
  · obtain ⟨others, hn, hp⟩ := s.nextTurn_eq
    simp only [Moves, State.mover, hi, Option.some.injEq] at h
    rw [h] at hn hp
    exact ⟨_, State.withTurn_taken (later := s.inputs) hp (by rw [hi]; rfl), by rw [e, hn]⟩
  · rw [Moves, State.mover, hi] at h
    cases a with
    | turn c =>
      rw [performInput] at e
      cases hg : State.giveTurn { s with inputs := later } c with
      | none =>
        obtain ⟨hu, -⟩ := List.find?_eq_some_iff_append.mp h
        exact absurd (by simpa using hu) (State.giveTurn_none hg u (List.mem_of_find?_eq_some h))
      | some v =>
        obtain ⟨w, others, rfl, hp, hf⟩ := State.giveTurn_some hg
        obtain rfl : w = u := Option.some.inj (hf.symm.trans h)
        exact ⟨_, State.withTurn_taken hp (by rw [hi, List.tail_cons]), by simp only [e, hg]⟩
    | _ => cases h

/-- What a unit's own step does: while a word it issued is in flight the oldest such word is written;
else it is a step of its control state (R8(a)). -/
theorem unitStep_cases (s : State) :
    (∃ before w after, s.inFlight = before ++ w :: after ∧ w.chan = s.active.chan ∧
      (∀ x ∈ before, x.chan ≠ s.active.chan) ∧
      unitStep s =
        .next { s with mem := s.mem.writeWord w.addr w.value, inFlight := before ++ after }) ∨
    (s.awaitsMemory s.active.chan = false ∧
      ((s.active.fsm = .idle ∧ s.active.port = [] ∧ unitStep s = .next s) ∨
       (s.active.fsm = .idle ∧ ∃ m rest, s.active.port = m :: rest ∧
         unitStep s = exec (decode m) (s.accept m rest)) ∨
       (s.active.fsm = .semWait ∧ unitStep s = .next s.poll) ∨
       (s.active.fsm = .syncptWait ∧ unitStep s = .next s.test) ∨
       (s.active.fsm = .fatal ∧ unitStep s = .next s))) := by
  rcases findIdx?_split (fun w : WordWrite => w.chan == s.active.chan) s.inFlight with
    ⟨before, w, after, hs, hw, hb, hk⟩ | ⟨hn, hk⟩
  · refine .inl ⟨before, w, after, hs, by simpa using hw, by simpa using hb, ?_⟩
    rw [unitStep, hk]
    exact congrArg _ (State.land_append hs)
  · refine .inr ⟨List.any_eq_false.mpr (by simpa using hn), ?_⟩
    rw [unitStep, hk]
    cases hf : s.active.fsm with
    | idle => cases hp : s.active.port <;> simp [acceptMethod, hp]
    | _ => simp

/-- No word of channel `c` is in flight. -/
theorem State.awaitsMemory_eq_false {s : State} {c : Nat} :
    s.awaitsMemory c = false ↔ ∀ w ∈ s.inFlight, w.chan ≠ c := by
  simp [State.awaitsMemory]

/-- The turn of a ready unit with a method presented is the acceptance of that method (R51, R120). -/
theorem unitStep_of_ready {v : State} {m : Method} {rest : List Method}
    (h : v.methodReady v.active = true) (hp : v.active.port = m :: rest) :
    unitStep v = exec (decode m) (v.accept m rest) := by
  simp only [State.methodReady, Bool.and_eq_true, beq_iff_eq, Bool.not_eq_true'] at h
  rcases unitStep_cases v with ⟨_, w, _, hs, hc, _⟩ |
    ⟨_, ⟨_, hn, _⟩ | ⟨_, m', rest', hm, e⟩ | ⟨hf, _⟩ | ⟨hf, _⟩ | ⟨hf, _⟩⟩
  · exact absurd hc (State.awaitsMemory_eq_false.mp h.2 w (by simp [hs]))
  · exact absurd (hp.symm.trans hn) (by simp)
  · obtain ⟨rfl, rfl⟩ := List.cons.inj (hp.symm.trans hm)
    exact e
  all_goals exact absurd (h.1.symm.trans hf) (by decide)

/-- The turn of a unit of which no word is in flight, where it waits: a poll (R163). -/
theorem unitStep_of_semWait {v : State} (h : v.awaitsMemory v.active.chan = false)
    (hf : v.active.fsm = .semWait) : unitStep v = .next v.poll := by
  have hn : v.inFlight.findIdx? (fun w => w.chan == v.active.chan) = none := by
    simpa [State.awaitsMemory] using h
  simp only [unitStep, hn, hf]

/-- The turn of a unit of which no word is in flight, where it waits: a test (R216). -/
theorem unitStep_of_syncptWait {v : State} (h : v.awaitsMemory v.active.chan = false)
    (hf : v.active.fsm = .syncptWait) : unitStep v = .next v.test := by
  have hn : v.inFlight.findIdx? (fun w => w.chan == v.active.chan) = none := by
    simpa [State.awaitsMemory] using h
  simp only [unitStep, hn, hf]

end Sys2Proof.Machine
end

