-- ==== Sys2Proof/Laws/Exec.lean ====
section
/-! SUPPORT. What every method does to the state: it answers a next state, and leaves alone what no
action touches. -/

namespace Sys2Proof.Machine

/-- What every action of a method keeps: the surroundings, the past of the event history, and the
canonical forms of memory and bank. -/
structure ActionKept (s t : State) : Prop where
  surroundings : SurroundingsKept s t
  events : s.events <+: t.events
  memory : s.mem.wf → t.mem.wf
  counters : s.syncpts.wf s.params.numSyncpt → t.syncpts.wf s.params.numSyncpt
  inFlight : ∃ ws, t.inFlight = s.inFlight ++ ws ∧
    ∀ w ∈ ws, w.chan = s.active.chan ∧ w.addr.extractLsb' 0 2 = 0

theorem ActionKept.refl (s : State) : ActionKept s s where
  surroundings := ⟨rfl, rfl, rfl, rfl, rfl⟩
  events := List.prefix_rfl
  memory := id
  counters := id
  inFlight := ⟨[], by simp⟩

theorem ActionKept.store {s t : State} (h : ActionKept s t) (i : SlotIndex) (v : Word) :
    ActionKept s (t.store i v) where
  surroundings := h.surroundings
  events := h.events
  memory := h.memory
  counters := h.counters
  inFlight := h.inFlight

theorem ActionKept.setFsm {s t : State} (h : ActionKept s t) (f : Fsm) :
    ActionKept s (t.setFsm f) where
  surroundings := h.surroundings
  events := h.events
  memory := h.memory
  counters := h.counters
  inFlight := h.inFlight

theorem ActionKept.emit {s t : State} (h : ActionKept s t) (k : EventKind) :
    ActionKept s (t.emit k) where
  surroundings := h.surroundings
  events := h.events.trans (List.prefix_append _ _)
  memory := h.memory
  counters := h.counters
  inFlight := h.inFlight

theorem ActionKept.drawn {s t : State} (h : ActionKept s t) : ActionKept s t.drawn where
  surroundings := h.surroundings
  events := h.events
  memory := h.memory
  counters := h.counters
  inFlight := h.inFlight

theorem ActionKept.memWrite {s t : State} (h : ActionKept s t) (a : Address) (v : Word)
    (w : Bool) : ActionKept s (t.memWrite a v w) where
  surroundings := h.surroundings
  events := (h.emit (.memWrite a [v] w)).events
  memory hm := Memory.writeWord_wf a v (h.memory hm)
  counters := h.counters
  inFlight := h.inFlight

/-- The words a write issues come behind those in flight; aligned where its address is. -/
theorem ActionKept.issueWrite {s t : State} (h : ActionKept s t) {a : Address} (ds : List Word)
    (w : Bool) (ha : a.extractLsb' 0 2 = 0) : ActionKept s (t.issueWrite a ds w) where
  surroundings := h.surroundings
  events := (h.emit (.memWrite a ds w)).events
  memory := h.memory
  counters := h.counters
  inFlight := by
    obtain ⟨ws, e, hws⟩ := h.inFlight
    refine ⟨ws ++ wordWrites t.active.chan a ds, by simp [e], fun x hx => ?_⟩
    rcases List.mem_append.mp hx with hx | hx
    · exact hws x hx
    · exact h.surroundings.1 ▸ wordWrites_spec ha x hx

theorem ActionKept.memReduce {s t : State} (h : ActionKept s t) (a : Address) (o : ReductionOp)
    (f : Format) (p : Word) (w : Bool) : ActionKept s (t.memReduce a o f p w) where
  surroundings := h.surroundings
  events := (h.emit (.memReduce a o f p w)).events
  memory hm := Memory.writeWord_wf a _ (h.memory hm)
  counters := h.counters
  inFlight := h.inFlight

theorem ActionKept.syncptIncr {s t : State} (h : ActionKept s t) {i : SyncptIndex}
    (hi : i.toNat < s.params.numSyncpt) : ActionKept s (t.syncptIncr i) where
  surroundings := h.surroundings
  events := (h.emit (.syncptIncr i)).events
  memory := h.memory
  counters hc := SyncptBank.incr_wf (h.counters hc) hi
  inFlight := h.inFlight

theorem ActionKept.release {s t : State} (h : ActionKept s t) (arg : Word) (c : SemControl) :
    ActionKept s (t.release arg c) := by
  rcases t.release_cases arg c with ⟨_, e⟩ | ⟨_, _, e⟩ | ⟨_, _, e⟩ <;> rw [e]
  · exact h.emit _
  · exact h.memWrite _ _ _
  · exact (h.issueWrite _ _ t.semAddress_aligned).drawn

theorem ActionKept.reductionMethod {s : State} (op : ReductionOp) (c : SemControl) :
    ActionKept s (s.reductionMethod op c) := by
  have h := (ActionKept.refl s).store Slot.semaphoreD (semaphoreDWord opReduction op.toBits c)
  unfold State.reductionMethod
  rcases (s.storeControl opReduction op.toBits c).reduction_cases op
    (semaphoreDWord opReduction op.toBits c) c with ⟨_, e⟩ | ⟨_, _, e⟩ | ⟨_, _, e⟩ <;> rw [e]
  · exact h.emit _
  · exact h.memReduce _ _ _ _ _
  · refine ((h.memReduce _ _ _ _ _).issueWrite _ _ ?_).drawn
    exact (extractLsb'_two_add_four _).trans (State.semAddress_aligned _)

theorem ActionKept.checkSyncpt {s t u : State} (h : ActionKept s t) (i : SyncptIndex) (arg : Word)
    (hu : i.toNat < t.params.numSyncpt → ActionKept s u) :
    ActionKept s (t.checkSyncpt i arg u) := by
  rcases t.checkSyncpt_cases u i arg with ⟨hi, e⟩ | ⟨_, e⟩ <;> rw [e]
  · exact hu hi
  · exact h.emit _

/-- Every method answers a next state, in every state. -/
theorem exec_next (i : Instr) (s : State) : ∃ t, exec i s = .next t := by
  cases i <;> exact ⟨_, rfl⟩

/-- What every method keeps. -/
theorem exec_kept {i : Instr} {s t : State} (h : exec i s = .next t) : ActionKept s t := by
  have h0 := ActionKept.refl s
  cases i with
  | setObject | nop | semaphoreA | semaphoreB | semaphoreC | memOpC | setReference | syncpointA
    | unimpl =>
    cases h
    exact h0.store _ _
  | illegal | semReserved | nonStallInterrupt | fbFlush | memOpD | wfi | crcCheck | yield =>
    cases h
    exact (h0.store _ _).emit _
  | semAcquire | semAcqGeq | semAcqAnd =>
    cases h
    exact (h0.store _ _).setFsm _
  | semRelease =>
    cases h
    exact (h0.store _ _).release _ _
  | semRedMin | semRedMax | semRedXor | semRedAnd | semRedOr | semRedAdd | semRedInc | semRedDec =>
    cases h
    exact ActionKept.reductionMethod _ _
  | syncptIncr sw c =>
    cases h
    exact (h0.store _ _).checkSyncpt _ _ fun hi => (h0.store _ _).syncptIncr hi
  | syncptWait c =>
    cases h
    exact (h0.store _ _).checkSyncpt _ _ fun _ => (h0.store _ _).setFsm _
  | syncptWaitNoswitch c =>
    cases h
    refine (h0.store _ _).checkSyncpt _ _ fun _ => ?_
    split
    · exact (h0.store _ _).setFsm _
    · exact h0.store _ _
  | oor =>
    cases h
    exact (h0.emit _).setFsm _

/-- A poll keeps everything but `fsm` and the event history. -/
theorem poll_kept (s : State) : ActionKept s s.poll ∧ s.poll.active.raw = s.active.raw ∧
    s.poll.mem = s.mem ∧ s.poll.syncpts = s.syncpts := by
  have h := (ActionKept.refl s).emit (.memRead s.semAddress (s.mem.readWord s.semAddress))
  rcases s.poll_cases with ⟨_, e⟩ | ⟨_, e⟩ <;> rw [e]
  · exact ⟨h.setFsm _, rfl, rfl, rfl⟩
  · exact ⟨h, rfl, rfl, rfl⟩

/-- A test keeps everything but `fsm` and the event history. -/
theorem test_kept (s : State) : ActionKept s s.test ∧ s.test.active.raw = s.active.raw ∧
    s.test.mem = s.mem ∧ s.test.syncpts = s.syncpts := by
  have h := (ActionKept.refl s).emit
    (.syncptRead s.active.waitIndex (s.syncpts.read s.active.waitIndex))
  rcases s.test_cases with ⟨_, e⟩ | ⟨_, e⟩ <;> rw [e]
  · exact ⟨h.setFsm _, rfl, rfl, rfl⟩
  · exact ⟨h, rfl, rfl, rfl⟩

/-- A unit's own step answers a next state and keeps every other unit, the channel, the parameters,
the inputs and the past of the history. -/
theorem unitStep_kept (s : State) : ∃ t, unitStep s = .next t ∧ t.active.chan = s.active.chan ∧
    t.parked = s.parked ∧ t.params = s.params ∧ t.inputs = s.inputs ∧ s.events <+: t.events ∧
    (s.mem.wf → t.mem.wf) ∧
    (s.syncpts.wf s.params.numSyncpt → t.syncpts.wf s.params.numSyncpt) := by
  have of {t : State} (h : ActionKept s t) : t.active.chan = s.active.chan ∧
      t.parked = s.parked ∧ t.params = s.params ∧ t.inputs = s.inputs ∧ s.events <+: t.events ∧
      (s.mem.wf → t.mem.wf) ∧
      (s.syncpts.wf s.params.numSyncpt → t.syncpts.wf s.params.numSyncpt) :=
    ⟨h.surroundings.1, h.surroundings.2.2.1, h.surroundings.2.2.2.1, h.surroundings.2.2.2.2,
      h.events, h.memory, h.counters⟩
  rcases unitStep_cases s with ⟨_, w, _, _, _, _, e⟩ |
    ⟨_, ⟨_, _, e⟩ | ⟨_, m, rest, _, e⟩ | ⟨_, e⟩ | ⟨_, e⟩ | ⟨_, e⟩⟩ <;> rw [e]
  · exact ⟨_, rfl, rfl, rfl, rfl, rfl, List.prefix_rfl, Memory.writeWord_wf w.addr w.value, id⟩
  · exact ⟨_, rfl, of (.refl s)⟩
  · obtain ⟨t, ht⟩ := exec_next (decode m) (s.accept m rest)
    have h := exec_kept ht
    exact ⟨t, ht, h.surroundings.1, h.surroundings.2.2.1, h.surroundings.2.2.2.1,
      h.surroundings.2.2.2.2, (List.prefix_append _ _).trans h.events, h.memory, h.counters⟩
  · exact ⟨_, rfl, of (poll_kept s).1⟩
  · exact ⟨_, rfl, of (test_kept s).1⟩
  · exact ⟨_, rfl, of (.refl s)⟩

/-! ## The step of the system, turned round -/

theorem ownerStep_of_mem {s : State} {c : Nat} (f : ChannelUnit → ChannelUnit)
    (done : State → State) (h : ∃ u ∈ s.units, u.chan = c) :
    ownerStep s c f done = .next (done (s.onChannel c f)) :=
  if_pos ((s.hasChannel_iff c).mpr h)

theorem ownerStep_next {s t : State} {c : Nat} {f : ChannelUnit → ChannelUnit}
    {done : State → State} (h : ownerStep s c f done = .next t) :
    (∃ u ∈ s.units, u.chan = c) ∧ t = done (s.onChannel c f) := by
  unfold ownerStep at h
  split at h
  · next hc =>
    cases h
    exact ⟨(s.hasChannel_iff c).mp hc, rfl⟩
  · cases h

/-- What the owner can do to a unit: its number stays, its words stay or all become 0, and its
control state stays or, but for FATAL under anything but Reset, becomes IDLE. -/
structure OwnerAction (isReset : Bool) (f : ChannelUnit → ChannelUnit) : Prop where
  chan : ∀ u, (f u).chan = u.chan
  raw : isReset = false → ∀ u, (f u).raw = u.raw
  fsm : ∀ u, (f u).fsm = u.fsm ∨ (f u).fsm = .idle
  fatal : isReset = false → ∀ u, u.fsm = .fatal → (f u).fsm = .fatal
  reset : isReset = true → ∀ u, (f u).fsm = .idle ∧ ∀ j, (f u).peek j = 0

/-- Everything a step can be: a unit's own step, an action of the owner on the units of one channel,
the writing of a word in flight, a byte or a word written or a counter incremented by the environment. -/
theorem step_cases {s t : State} (h : step s = .next t) :
    (∃ u v, Moves s u ∧ TurnTaken s u v ∧ unitStep v = .next t) ∨
    (∃ (b : Bool) (c : Nat) (f : ChannelUnit → ChannelUnit) (later : List Input),
      OwnerAction b f ∧ (b = true → s.inputs = .reset c :: later) ∧
      ((∀ u, u.port <+: (f u).port) ∨ s.inputs = .withdraw c :: later) ∧
      t.units = s.units.map (fun u => u.changedIf c f) ∧ t.mem = s.mem ∧
      t.inFlight = s.inFlight ∧ t.syncpts = s.syncpts ∧ s.events <+: t.events ∧
      t.params = s.params ∧ t.draws = s.draws) ∨
    (∃ k later, s.inputs = .memPerform k :: later ∧ k < s.inFlight.length ∧
      t = State.land { s with inputs := later } k) ∨
    (∃ a v later, s.inputs = .envWrite a v :: later ∧
      t = { s with inputs := later, mem := s.mem.writeByte a v }) ∨
    (∃ n e v later, s.inputs = .envWriteWord n e v :: later ∧
      t = { s with inputs := later, mem := s.mem.writeEnabled n e v }) ∨
    (∃ i later, s.inputs = .envIncr i :: later ∧ i.toNat < s.params.numSyncpt ∧
      t = { s with inputs := later, syncpts := s.syncpts.incr i }) := by
  have moved {t : State} (h : step s = .next t) (u : ChannelUnit) (hm : Moves s u) :
      ∃ u v, Moves s u ∧ TurnTaken s u v ∧ unitStep v = .next t := by
    obtain ⟨v, hv, e⟩ := step_of_moves hm
    exact ⟨u, v, hm, hv, e ▸ h⟩
  rcases step_eq s with ⟨hi, -⟩ | ⟨a, later, hi, e⟩
  · exact .inl (moved h _ (by rw [Moves, State.mover, hi]))
  · have h' := h
    rw [e] at h
    cases a with
    | turn c =>
      simp only [performInput] at h
      split at h
      · next v hv =>
        obtain ⟨u, -, -, -, hf⟩ := State.giveTurn_some hv
        exact .inl (moved h' u (by rw [Moves, State.mover, hi]; exact hf))
      · cases h
    | offer c m =>
      obtain ⟨-, rfl⟩ := ownerStep_next (done := id) h
      exact .inr (.inl ⟨false, c, fun u => u.offer m, later, ⟨fun _ => rfl, fun _ _ => rfl,
        fun _ => .inl rfl, fun _ _ hu => hu, by simp⟩, by simp,
        .inl fun _ => List.prefix_append _ _, rfl, rfl, rfl, rfl, List.prefix_rfl, rfl, rfl⟩)
    | withdraw c =>
      obtain ⟨-, rfl⟩ := ownerStep_next (done := id) h
      exact .inr (.inl ⟨false, c, ChannelUnit.withdraw, later, ⟨fun _ => rfl, fun _ _ => rfl,
        fun _ => .inl rfl, fun _ _ hu => hu, by simp⟩, by simp, .inr hi, rfl, rfl, rfl, rfl,
        List.prefix_rfl, rfl, rfl⟩)
    | cancel c =>
      obtain ⟨-, rfl⟩ := ownerStep_next (done := fun t => t.record c .cancel) h
      refine .inr (.inl ⟨false, c, ChannelUnit.cancel, later, ⟨fun u => u.cancel_chan,
        fun _ u => u.cancel_raw, fun u => ?_, fun _ u hu => by rw [u.cancel_fsm, if_pos hu], by simp⟩,
        by simp, .inl fun u => by rw [u.cancel_port], rfl, rfl, rfl, rfl, List.prefix_append _ _, rfl,
        rfl⟩)
      rw [u.cancel_fsm]
      split
      · next hu => exact .inl hu.symm
      · exact .inr rfl
    | reset c =>
      obtain ⟨-, rfl⟩ := ownerStep_next (done := fun t => t.record c .reset) h
      exact .inr (.inl ⟨true, c, ChannelUnit.resetUnit, later, ⟨fun _ => rfl, by simp,
        fun _ => .inr rfl, by simp, fun _ u => ⟨rfl, u.resetUnit_peek⟩⟩, fun _ => hi,
        .inl fun _ => List.prefix_rfl, rfl, rfl, rfl, rfl, List.prefix_append _ _, rfl, rfl⟩)
    | memPerform k =>
      simp only [performInput] at h
      split at h
      · next hk =>
        cases h
        exact .inr (.inr (.inl ⟨k, later, hi, hk, rfl⟩))
      · cases h
    | envWrite a v =>
      cases h
      exact .inr (.inr (.inr (.inl ⟨a, v, later, hi, rfl⟩)))
    | envWriteWord n b v =>
      cases h
      exact .inr (.inr (.inr (.inr (.inl ⟨n, b, v, later, hi, rfl⟩))))
    | envIncr i =>
      simp only [performInput] at h
      split at h
      · next hx =>
        cases h
        exact .inr (.inr (.inr (.inr (.inr ⟨i, later, hi, of_decide_eq_true hx, rfl⟩))))
      · cases h

end Sys2Proof.Machine
end

