-- ==== Sys2Proof/Laws/Effect.lean ====
section
/-! SUPPORT. What a method makes of its own unit, and which methods reach memory and the counters
(spec/40_dispatch.md R122, R127). -/

namespace Sys2Proof.Machine

/-! ## The unit -/

/-- The control state after a method: only the acquires, the two waits and an out-of-range method
change it (spec/10_state.md R40). -/
def fsmAfter (i : Instr) (p : Params) (f : Fsm) : Fsm :=
  match i with
  | .semAcquire .. | .semAcqGeq .. | .semAcqAnd .. => .semWait
  | .syncptWait c => if c.index.toNat < p.numSyncpt then .syncptWait else f
  | .syncptWaitNoswitch c =>
    if c.index.toNat < p.numSyncpt ∧ p.waitDisBlocks = true then .syncptWait else f
  | .oor .. => .fatal
  | .setObject .. | .illegal _ | .nop _ | .semaphoreA .. | .semaphoreB .. | .semaphoreC _
  | .semRelease .. | .semRedMin _ | .semRedMax _ | .semRedXor _ | .semRedAnd _ | .semRedOr _
  | .semRedAdd _ | .semRedInc _ | .semRedDec _ | .semReserved .. | .nonStallInterrupt _
  | .fbFlush _ | .memOpC .. | .memOpD _ | .setReference _ | .syncpointA _ | .syncptIncr ..
  | .wfi .. | .crcCheck _ | .yield .. | .unimpl .. => f

/-- The unit after a method: its argument stored in its slot, unless it is out of range. -/
def unitAfter (i : Instr) (p : Params) (u : ChannelUnit) : ChannelUnit :=
  if regCount ≤ i.index.toNat then u.withFsm (fsmAfter i p u.fsm)
  else (u.store (i.index.setWidth 6) i.argument).withFsm (fsmAfter i p u.fsm)

/-- The unit after a method of the slot `k`. -/
theorem unitAfter_of_slot {i : Instr} (k : SlotIndex) (p : Params) (u : ChannelUnit)
    (h : i.index = slotMethodIndex k) :
    unitAfter i p u = (u.store k i.argument).withFsm (fsmAfter i p u.fsm) := by
  rw [unitAfter, h, if_neg (Nat.not_le.mpr (slotMethodIndex_lt k)), slotMethodIndex_setWidth]

theorem State.release_active (s : State) (arg : Word) (c : SemControl) :
    (s.release arg c).active = s.active := by
  rcases s.release_cases arg c with ⟨_, e⟩ | ⟨_, _, e⟩ | ⟨_, _, e⟩ <;> rw [e] <;> rfl

theorem State.reduction_active (s : State) (op : ReductionOp) (arg : Word) (c : SemControl) :
    (s.reduction op arg c).active = s.active := by
  rcases s.reduction_cases op arg c with ⟨_, e⟩ | ⟨_, _, e⟩ | ⟨_, _, e⟩ <;> rw [e] <;> rfl

theorem State.checkSyncpt_active (s t : State) (i : SyncptIndex) (arg : Word) :
    (s.checkSyncpt i arg t).active = if i.toNat < s.params.numSyncpt then t.active else s.active := by
  rcases s.checkSyncpt_cases t i arg with ⟨hi, e⟩ | ⟨hi, e⟩ <;> rw [e]
  · rw [if_pos hi]
  · rw [if_neg (Nat.not_lt.mpr hi)]
    rfl

/-- A method's effect on its unit depends on the unit and the parameters alone. A method is
well formed here only so that an out-of-range one has an index of 64 or above. -/
theorem exec_active {i : Instr} {s t : State} (hw : i.wellFormed = true)
    (h : exec i s = .next t) : t.active = unitAfter i s.params s.active := by
  cases i
  case oor index arg =>
    cases h
    have hi : regCount ≤ (Instr.oor index arg).index.toNat := of_decide_eq_true hw
    rw [unitAfter, if_pos hi]
    rfl
  case unimpl slot arg =>
    cases h
    rw [unitAfter_of_slot slot _ _ rfl]
    rfl
  case semRelease red c =>
    cases h
    rw [unitAfter_of_slot Slot.semaphoreD _ _ rfl, State.release_active]
    rfl
  case semRedMin | semRedMax | semRedXor | semRedAnd | semRedOr | semRedAdd | semRedInc
      | semRedDec =>
    cases h
    rw [unitAfter_of_slot Slot.semaphoreD _ _ rfl]
    exact State.reduction_active _ _ _ _
  case syncptIncr sw c =>
    cases h
    rw [unitAfter_of_slot Slot.syncpointB _ _ rfl, State.checkSyncpt_active]
    simp only [fsmAfter]
    split <;> rfl
  case syncptWait c =>
    cases h
    rw [unitAfter_of_slot Slot.syncpointB _ _ rfl, State.checkSyncpt_active]
    by_cases hi : c.index.toNat < s.params.numSyncpt <;>
      simp only [fsmAfter, State.store_params, hi] <;> rfl
  case syncptWaitNoswitch c =>
    cases h
    rw [unitAfter_of_slot Slot.syncpointB _ _ rfl, State.checkSyncpt_active]
    simp only [fsmAfter, State.store_params]
    by_cases hi : c.index.toNat < s.params.numSyncpt <;>
      by_cases hd : s.params.waitDisBlocks = true <;> simp only [hi, hd] <;> rfl
  case semAcquire | semAcqGeq | semAcqAnd | semReserved =>
    cases h
    rw [unitAfter_of_slot Slot.semaphoreD _ _ rfl]
    rfl
  all_goals
    cases h
    rfl

/-! ## Memory and counters -/

theorem State.release_syncpts (s : State) (arg : Word) (c : SemControl) :
    (s.release arg c).syncpts = s.syncpts := by
  rcases s.release_cases arg c with ⟨_, e⟩ | ⟨_, _, e⟩ | ⟨_, _, e⟩ <;> rw [e] <;> rfl

theorem State.reduction_syncpts (s : State) (op : ReductionOp) (arg : Word) (c : SemControl) :
    (s.reduction op arg c).syncpts = s.syncpts := by
  rcases s.reduction_cases op arg c with ⟨_, e⟩ | ⟨_, _, e⟩ | ⟨_, _, e⟩ <;> rw [e] <;> rfl

/-- The methods that may write memory: SEM_RELEASE and the reductions (R127). -/
def writesMemory : Instr → Bool
  | .semRelease .. | .semRedMin _ | .semRedMax _ | .semRedXor _ | .semRedAnd _ | .semRedOr _
  | .semRedAdd _ | .semRedInc _ | .semRedDec _ => true
  | .setObject .. | .illegal _ | .nop _ | .semaphoreA .. | .semaphoreB .. | .semaphoreC _
  | .semAcquire .. | .semAcqGeq .. | .semAcqAnd .. | .semReserved .. | .nonStallInterrupt _
  | .fbFlush _ | .memOpC .. | .memOpD _ | .setReference _ | .syncpointA _ | .syncptWait _
  | .syncptWaitNoswitch _ | .syncptIncr .. | .wfi .. | .crcCheck _ | .yield .. | .unimpl ..
  | .oor .. => false

/-- A method that writes memory has index 7 and the operation Release or Reduction. -/
theorem writesMemory_argument {i : Instr} (h : writesMemory i = true) :
    i.index = slotMethodIndex Slot.semaphoreD ∧
      (i.argument.extractLsb' 0 5 = opRelease ∨ i.argument.extractLsb' 0 5 = opReduction) := by
  cases i <;> simp_all [writesMemory, Instr.index, Instr.argument]

/-- Every other method leaves memory and the words in flight as they are. -/
theorem exec_mem {i : Instr} {s t : State} (h : exec i s = .next t) (hw : writesMemory i = false) :
    t.mem = s.mem ∧ t.inFlight = s.inFlight := by
  cases i
  case syncptIncr sw c =>
    cases h
    rcases State.checkSyncpt_cases (s.store Slot.syncpointB (syncpointBWord opIncr sw c)) _ c.index
      (syncpointBWord opIncr sw c) with ⟨_, e⟩ | ⟨_, e⟩ <;> rw [e] <;> exact ⟨rfl, rfl⟩
  case syncptWait c =>
    cases h
    rcases State.checkSyncpt_cases (s.store Slot.syncpointB (syncpointBWord opWait .enabled c)) _
      c.index (syncpointBWord opWait .enabled c) with ⟨_, e⟩ | ⟨_, e⟩ <;> rw [e] <;> exact ⟨rfl, rfl⟩
  case syncptWaitNoswitch c =>
    cases h
    rcases State.checkSyncpt_cases (s.store Slot.syncpointB (syncpointBWord opWait .disabled c)) _
      c.index (syncpointBWord opWait .disabled c) with ⟨_, e⟩ | ⟨_, e⟩ <;> rw [e]
    · split <;> exact ⟨rfl, rfl⟩
    · exact ⟨rfl, rfl⟩
  all_goals first
    | exact Bool.noConfusion hw
    | (cases h; exact ⟨rfl, rfl⟩)

/-- Only SYNCPT_INCR changes the counters, and then the one it names, by one increment (R213). -/
theorem exec_syncpts {i : Instr} {s t : State} (h : exec i s = .next t) :
    t.syncpts = s.syncpts ∨
      ∃ sw c, i = .syncptIncr sw c ∧ c.index.toNat < s.params.numSyncpt ∧
        t.syncpts = s.syncpts.incr c.index := by
  cases i
  case syncptIncr sw c =>
    cases h
    rcases State.checkSyncpt_cases (s.store Slot.syncpointB (syncpointBWord opIncr sw c)) _ c.index
      (syncpointBWord opIncr sw c) with ⟨hi, e⟩ | ⟨_, e⟩ <;> rw [e]
    · exact .inr ⟨sw, c, rfl, hi, rfl⟩
    · exact .inl rfl
  case syncptWait c =>
    cases h
    rcases State.checkSyncpt_cases (s.store Slot.syncpointB (syncpointBWord opWait .enabled c)) _
      c.index (syncpointBWord opWait .enabled c) with ⟨_, e⟩ | ⟨_, e⟩ <;> rw [e] <;> exact .inl rfl
  case syncptWaitNoswitch c =>
    cases h
    rcases State.checkSyncpt_cases (s.store Slot.syncpointB (syncpointBWord opWait .disabled c)) _
      c.index (syncpointBWord opWait .disabled c) with ⟨_, e⟩ | ⟨_, e⟩ <;> rw [e]
    · split <;> exact .inl rfl
    · exact .inl rfl
  case semRelease red c =>
    cases h
    exact .inl (State.release_syncpts _ _ _)
  case semRedMin | semRedMax | semRedXor | semRedAnd | semRedOr | semRedAdd | semRedInc
      | semRedDec =>
    cases h
    exact .inl (State.reduction_syncpts _ _ _ _)
  all_goals
    cases h
    exact .inl rfl

end Sys2Proof.Machine
end

