-- ==== Sys2Proof/Laws/PerInstr.lean ====
section
/-! SUPPORT. Facts about every method, one lemma per constructor of `Instr`: the transaction of a
method selects a row of the opcode table that carries its mnemonic (spec/30_encoding.md R94). -/

namespace Sys2Proof

/-! ## Rows, index and argument apart -/

/-- A row looks at the index and at the argument of a transaction, each under its own mask. -/
theorem OpcodeRow.selects_iff (r : OpcodeRow) (m : Method) :
    r.selects m = true ↔
      Method.index m &&& Method.index r.mask = Method.index r.pattern ∧
        Method.argument m &&& Method.argument r.mask = Method.argument r.pattern := by
  simp only [OpcodeRow.selects, beq_iff_eq]
  constructor
  · intro h
    simp only [Method.index, Method.argument, ← h, BitVec.extractLsb'_and, and_self]
  · rintro ⟨h1, h2⟩
    rw [← method_eq_place (m &&& r.mask), ← method_eq_place r.pattern, ← h1, ← h2]
    simp only [Method.index, Method.argument, BitVec.extractLsb'_and]

/-- The bits a slot 7 row without a fixed reduction looks at: the operation and bit 30 (R94, R95). -/
theorem word_and_controlMask (w : Word) :
    w &&& 0x4000001F = place 32 0 (w.extractLsb' 0 5) ||| place 32 30 (w.extractLsb' 30 1) := by
  apply BitVec.eq_of_getLsbD_eq
  intro i hi
  have hm : ∀ i < 32, (0x4000001F : Word).getLsbD i =
      (decide (0 ≤ i) && decide (i < 0 + 5) || decide (30 ≤ i) && decide (i < 30 + 1)) := by decide
  simp only [BitVec.getLsbD_and, BitVec.getLsbD_or, getLsbD_place_extract, hm i hi]
  cases w.getLsbD i <;> simp

/-- The bits a Reduction row looks at: the operation and the reduction (R94). -/
theorem word_and_reductionMask (w : Word) :
    w &&& 0x7800001F = place 32 0 (w.extractLsb' 0 5) ||| place 32 27 (w.extractLsb' 27 4) := by
  apply BitVec.eq_of_getLsbD_eq
  intro i hi
  have hm : ∀ i < 32, (0x7800001F : Word).getLsbD i =
      (decide (0 ≤ i) && decide (i < 0 + 5) || decide (27 ≤ i) && decide (i < 27 + 4)) := by decide
  simp only [BitVec.getLsbD_and, BitVec.getLsbD_or, getLsbD_place_extract, hm i hi]
  cases w.getLsbD i <;> simp

/-- The bit the row of a reserved reduction looks at (R95). -/
theorem word_and_bit30 (w : Word) :
    w &&& 0x40000000 = place 32 30 (w.extractLsb' 30 1) := by
  apply BitVec.eq_of_getLsbD_eq
  intro i hi
  have hm : ∀ i < 32, (0x40000000 : Word).getLsbD i =
      (decide (30 ≤ i) && decide (i < 30 + 1)) := by decide
  simp only [BitVec.getLsbD_and, getLsbD_place_extract, hm i hi]
  cases w.getLsbD i <;> simp

/-- The bits a Wait row of slot 29 looks at: the operation and the switch (R94). -/
theorem word_and_waitMask (w : Word) :
    w &&& 0x11 = place 32 0 (w.extractLsb' 0 1) ||| place 32 4 (w.extractLsb' 4 1) := by
  apply BitVec.eq_of_getLsbD_eq
  intro i hi
  have hm : ∀ i < 32, (0x11 : Word).getLsbD i =
      (decide (0 ≤ i) && decide (i < 0 + 1) || decide (4 ≤ i) && decide (i < 4 + 1)) := by decide
  simp only [BitVec.getLsbD_and, BitVec.getLsbD_or, getLsbD_place_extract, hm i hi]
  cases w.getLsbD i <;> simp

/-- The bit an Incr row looks at (R94). -/
theorem word_and_bit0 (w : Word) :
    w &&& 0x1 = place 32 0 (w.extractLsb' 0 1) := by
  apply BitVec.eq_of_getLsbD_eq
  intro i hi
  have hm : ∀ i < 32, (0x1 : Word).getLsbD i =
      (decide (0 ≤ i) && decide (i < 0 + 1)) := by decide
  simp only [BitVec.getLsbD_and, getLsbD_place_extract, hm i hi]
  cases w.getLsbD i <;> simp

namespace Laws.MnemonicRow

/-- A method's transaction selects a row of the opcode table that carries the method's mnemonic. -/
def Statement (i : Instr) : Prop :=
  i.wellFormed = true → ∃ r ∈ opcodeTable, r.mnemonic = i.mnemonic ∧ r.selects (encode i) = true

/-- A row that looks at the index alone. -/
theorem of_index {i : Instr} (k : SlotIndex) (r : OpcodeRow) (hk : i.index = slotMethodIndex k)
    (hm : r.mnemonic = i.mnemonic) (hr : r ∈ opcodeTable)
    (hi : slotMethodIndex k &&& Method.index r.mask = Method.index r.pattern)
    (ha : Method.argument r.mask = 0 ∧ Method.argument r.pattern = 0) : Statement i :=
  fun _ => ⟨r, hr, hm, by
    rw [OpcodeRow.selects_iff, method_index_encode, method_argument_encode, ha.1, ha.2, hk]
    exact ⟨hi, by simp⟩⟩

/-- A row that looks at the argument too. -/
theorem of_argument {i : Instr} (k : SlotIndex) (r : OpcodeRow) (hk : i.index = slotMethodIndex k)
    (hm : r.mnemonic = i.mnemonic) (hr : r ∈ opcodeTable)
    (hi : slotMethodIndex k &&& Method.index r.mask = Method.index r.pattern)
    (ha : i.argument &&& Method.argument r.mask = Method.argument r.pattern) : Statement i :=
  fun _ => ⟨r, hr, hm, by
    rw [OpcodeRow.selects_iff, method_index_encode, method_argument_encode, hk]
    exact ⟨hi, ha⟩⟩

/-- A row of slot 7 with the operation `op`, whatever the defined reduction. -/
theorem of_operation {i : Instr} (op : BitVec 5) (red : ReductionOp) (c : SemControl)
    (r : OpcodeRow) (hk : i.index = slotMethodIndex Slot.semaphoreD)
    (ha : i.argument = semaphoreDWord op red.toBits c)
    (hm : r.mnemonic = i.mnemonic) (hr : r ∈ opcodeTable)
    (hi : slotMethodIndex Slot.semaphoreD &&& Method.index r.mask = Method.index r.pattern)
    (hr' : Method.argument r.mask = 0x4000001F ∧ Method.argument r.pattern = place 32 0 op) :
    Statement i :=
  of_argument Slot.semaphoreD r hk hm hr hi (by
    rw [hr'.1, hr'.2, ha, word_and_controlMask, semaphoreDWord_operation, semaphoreDWord_bit30]
    cases red <;> simp [ReductionOp.toBits, place])

/-- A row of slot 7 with the operation Reduction and the reduction `red`. -/
theorem of_reduction {i : Instr} (red : BitVec 4) (c : SemControl) (r : OpcodeRow)
    (hk : i.index = slotMethodIndex Slot.semaphoreD)
    (ha : i.argument = semaphoreDWord opReduction red c)
    (hm : r.mnemonic = i.mnemonic) (hr : r ∈ opcodeTable)
    (hi : slotMethodIndex Slot.semaphoreD &&& Method.index r.mask = Method.index r.pattern)
    (hr' : Method.argument r.mask = 0x7800001F ∧
      Method.argument r.pattern = place 32 0 opReduction ||| place 32 27 red) : Statement i :=
  of_argument Slot.semaphoreD r hk hm hr hi (by
    rw [hr'.1, hr'.2, ha, word_and_reductionMask, semaphoreDWord_operation,
      semaphoreDWord_reduction])

theorem setObject (c : BitVec 16) (e : BitVec 5) (p : BitVec 11) : Statement (.setObject c e p) :=
  of_index Slot.setObject ⟨"SET_OBJECT", 0x00000000000, 0xFFF00000000⟩ rfl rfl (by decide) (by decide)
    (by decide)

theorem illegal (a : Word) : Statement (.illegal a) :=
  of_index Slot.illegal ⟨"ILLEGAL", 0x00100000000, 0xFFF00000000⟩ rfl rfl (by decide) (by decide)
    (by decide)

theorem nop (a : Word) : Statement (.nop a) :=
  of_index Slot.nop ⟨"NOP", 0x00200000000, 0xFFF00000000⟩ rfl rfl (by decide) (by decide)
    (by decide)

theorem semaphoreA (u : BitVec 8) (p : BitVec 24) : Statement (.semaphoreA u p) :=
  of_index Slot.semaphoreA ⟨"SEMAPHORE_A", 0x00400000000, 0xFFF00000000⟩ rfl rfl (by decide) (by decide)
    (by decide)

theorem semaphoreB (l : BitVec 30) (p : BitVec 2) : Statement (.semaphoreB l p) :=
  of_index Slot.semaphoreB ⟨"SEMAPHORE_B", 0x00500000000, 0xFFF00000000⟩ rfl rfl (by decide) (by decide)
    (by decide)

theorem semaphoreC (a : Word) : Statement (.semaphoreC a) :=
  of_index Slot.semaphoreC ⟨"SEMAPHORE_C", 0x00600000000, 0xFFF00000000⟩ rfl rfl (by decide) (by decide)
    (by decide)

theorem nonStallInterrupt (a : Word) : Statement (.nonStallInterrupt a) :=
  of_index Slot.nonStallInterrupt ⟨"NON_STALL_INTERRUPT", 0x00800000000, 0xFFF00000000⟩ rfl rfl (by decide) (by decide)
    (by decide)

theorem fbFlush (a : Word) : Statement (.fbFlush a) :=
  of_index Slot.fbFlush ⟨"FB_FLUSH", 0x00900000000, 0xFFF00000000⟩ rfl rfl (by decide) (by decide)
    (by decide)

theorem memOpC (s : TlbScope) (r : BitVec 31) : Statement (.memOpC s r) :=
  of_index Slot.memOpC ⟨"MEM_OP_C", 0x00C00000000, 0xFFF00000000⟩ rfl rfl (by decide) (by decide)
    (by decide)

theorem memOpD (a : Word) : Statement (.memOpD a) :=
  of_index Slot.memOpD ⟨"MEM_OP_D", 0x00D00000000, 0xFFF00000000⟩ rfl rfl (by decide) (by decide)
    (by decide)

theorem setReference (a : Word) : Statement (.setReference a) :=
  of_index Slot.setReference ⟨"SET_REFERENCE", 0x01400000000, 0xFFF00000000⟩ rfl rfl (by decide) (by decide)
    (by decide)

theorem syncpointA (a : Word) : Statement (.syncpointA a) :=
  of_index Slot.syncpointA ⟨"SYNCPOINT_A", 0x01C00000000, 0xFFF00000000⟩ rfl rfl (by decide) (by decide)
    (by decide)

theorem wfi (s : WfiScope) (p : BitVec 31) : Statement (.wfi s p) :=
  of_index Slot.wfi ⟨"WFI", 0x01E00000000, 0xFFF00000000⟩ rfl rfl (by decide) (by decide)
    (by decide)

theorem crcCheck (a : Word) : Statement (.crcCheck a) :=
  of_index Slot.crcCheck ⟨"CRC_CHECK", 0x01F00000000, 0xFFF00000000⟩ rfl rfl (by decide) (by decide)
    (by decide)

theorem yield (o : YieldOp) (p : BitVec 30) : Statement (.yield o p) :=
  of_index Slot.yield ⟨"YIELD", 0x02000000000, 0xFFF00000000⟩ rfl rfl (by decide) (by decide)
    (by decide)

theorem semAcquire (red : ReductionOp) (c : SemControl) : Statement (.semAcquire red c) :=
  of_operation opAcquire red c ⟨"SEM_ACQUIRE", 0x00700000001, 0xFFF4000001F⟩ rfl rfl rfl (by decide) (by decide)
    (by decide)

theorem semRelease (red : ReductionOp) (c : SemControl) : Statement (.semRelease red c) :=
  of_operation opRelease red c ⟨"SEM_RELEASE", 0x00700000002, 0xFFF4000001F⟩ rfl rfl rfl (by decide) (by decide)
    (by decide)

theorem semAcqGeq (red : ReductionOp) (c : SemControl) : Statement (.semAcqGeq red c) :=
  of_operation opAcqGeq red c ⟨"SEM_ACQ_GEQ", 0x00700000004, 0xFFF4000001F⟩ rfl rfl rfl (by decide) (by decide)
    (by decide)

theorem semAcqAnd (red : ReductionOp) (c : SemControl) : Statement (.semAcqAnd red c) :=
  of_operation opAcqAnd red c ⟨"SEM_ACQ_AND", 0x00700000008, 0xFFF4000001F⟩ rfl rfl rfl (by decide) (by decide)
    (by decide)

theorem semRedMin (c : SemControl) : Statement (.semRedMin c) :=
  of_reduction ReductionOp.min.toBits c ⟨"SEM_RED_MIN", 0x00700000010, 0xFFF7800001F⟩ rfl rfl
    rfl (by decide) (by decide) (by decide)

theorem semRedMax (c : SemControl) : Statement (.semRedMax c) :=
  of_reduction ReductionOp.max.toBits c ⟨"SEM_RED_MAX", 0x00708000010, 0xFFF7800001F⟩ rfl rfl
    rfl (by decide) (by decide) (by decide)

theorem semRedXor (c : SemControl) : Statement (.semRedXor c) :=
  of_reduction ReductionOp.xor.toBits c ⟨"SEM_RED_XOR", 0x00710000010, 0xFFF7800001F⟩ rfl rfl
    rfl (by decide) (by decide) (by decide)

theorem semRedAnd (c : SemControl) : Statement (.semRedAnd c) :=
  of_reduction ReductionOp.and.toBits c ⟨"SEM_RED_AND", 0x00718000010, 0xFFF7800001F⟩ rfl rfl
    rfl (by decide) (by decide) (by decide)

theorem semRedOr (c : SemControl) : Statement (.semRedOr c) :=
  of_reduction ReductionOp.or.toBits c ⟨"SEM_RED_OR", 0x00720000010, 0xFFF7800001F⟩ rfl rfl
    rfl (by decide) (by decide) (by decide)

theorem semRedAdd (c : SemControl) : Statement (.semRedAdd c) :=
  of_reduction ReductionOp.add.toBits c ⟨"SEM_RED_ADD", 0x00728000010, 0xFFF7800001F⟩ rfl rfl
    rfl (by decide) (by decide) (by decide)

theorem semRedInc (c : SemControl) : Statement (.semRedInc c) :=
  of_reduction ReductionOp.inc.toBits c ⟨"SEM_RED_INC", 0x00730000010, 0xFFF7800001F⟩ rfl rfl
    rfl (by decide) (by decide) (by decide)

theorem semRedDec (c : SemControl) : Statement (.semRedDec c) :=
  of_reduction ReductionOp.dec.toBits c ⟨"SEM_RED_DEC", 0x00738000010, 0xFFF7800001F⟩ rfl rfl
    rfl (by decide) (by decide) (by decide)

theorem semReserved (op : BitVec 5) (red : BitVec 4) (c : SemControl) :
    Statement (.semReserved op red c) := by
  intro h
  by_cases hr : red.extractLsb' 3 1 = 1
  · refine of_argument (i := .semReserved op red c) Slot.semaphoreD
      ⟨"SEM_RESERVED", 0x00740000000, 0xFFF40000000⟩ rfl rfl (by decide) (by decide) ?_ h
    change semaphoreDWord op red c &&& 0x40000000 = 0x40000000
    rw [word_and_bit30, semaphoreDWord_bit30, hr]
    decide
  · have hall : ∀ r : BitVec 4, ¬ r.extractLsb' 3 1 = 1 →
        r.extractLsb' 3 1 = 0 ∧ reductionDefined r = true := by decide
    obtain ⟨hr0, hd⟩ := hall red hr
    have ho : operationDefined op = false := by
      simpa [Instr.wellFormed, controlReserved, hd] using h
    have hrow : ∀ o : BitVec 5, operationDefined o = false → ∃ r ∈ opcodeRowsReserved,
        r.mnemonic = "SEM_RESERVED" ∧ Method.index r.mask = 0xFFF ∧ Method.index r.pattern = 7 ∧
          Method.argument r.mask = 0x4000001F ∧ Method.argument r.pattern = place 32 0 o := by
      decide
    obtain ⟨r, hmem, hm, hmi, hpi, hma, hpa⟩ := hrow op ho
    refine of_argument (i := .semReserved op red c) Slot.semaphoreD r rfl hm ?_ ?_ ?_ h
    · simp only [opcodeTable, List.mem_append]
      exact .inl (.inl (.inr hmem))
    · rw [hmi, hpi]
      decide
    · change semaphoreDWord op red c &&& _ = _
      rw [hma, hpa, word_and_controlMask, semaphoreDWord_operation, semaphoreDWord_bit30, hr0]
      simp [place]

theorem syncptWait (c : SyncptControl) : Statement (.syncptWait c) :=
  of_argument Slot.syncpointB ⟨"SYNCPT_WAIT", 0x01D00000010, 0xFFF00000011⟩ rfl rfl (by decide)
    (by decide) (by
      change syncpointBWord opWait .enabled c &&& 0x11 = 0x10
      rw [word_and_waitMask, syncpointBWord_operation, syncpointBWord_waitSwitch]
      decide)

theorem syncptWaitNoswitch (c : SyncptControl) : Statement (.syncptWaitNoswitch c) :=
  of_argument Slot.syncpointB ⟨"SYNCPT_WAIT_NOSWITCH", 0x01D00000000, 0xFFF00000011⟩ rfl rfl
    (by decide) (by decide) (by
      change syncpointBWord opWait .disabled c &&& 0x11 = 0
      rw [word_and_waitMask, syncpointBWord_operation, syncpointBWord_waitSwitch]
      decide)

theorem syncptIncr (sw : Switch) (c : SyncptControl) : Statement (.syncptIncr sw c) :=
  of_argument Slot.syncpointB ⟨"SYNCPT_INCR", 0x01D00000001, 0xFFF00000001⟩ rfl rfl (by decide)
    (by decide) (by
      change syncpointBWord opIncr sw c &&& 0x1 = 1
      rw [word_and_bit0, syncpointBWord_operation]
      decide)

theorem unimpl (slot : SlotIndex) (arg : Word) : Statement (.unimpl slot arg) := by
  intro h
  have hrow : ∀ k : SlotIndex, slotUnimplemented k = true → ∃ r ∈ opcodeRowsOther,
      r.mnemonic = "UNIMPL" ∧ slotMethodIndex k &&& Method.index r.mask = Method.index r.pattern ∧
        Method.argument r.mask = 0 ∧ Method.argument r.pattern = 0 := by
    decide
  obtain ⟨r, hmem, hm, hi, ha⟩ := hrow slot h
  exact of_index slot r rfl hm (by simp [opcodeTable, hmem]) hi ha h

/-- An index of 64 or above has one of its bits 6 to 11 set, and the highest of them names a row. -/
theorem outOfRange_row (index : MethodIndex) (h : 64 ≤ index.toNat) : ∃ r ∈ opcodeRowsOther,
    r.mnemonic = "OOR" ∧ index &&& Method.index r.mask = Method.index r.pattern ∧
      Method.argument r.mask = 0 ∧ Method.argument r.pattern = 0 := by
  have hrow : ∀ hi : BitVec 6, hi ≠ 0 → ∃ r ∈ opcodeRowsOther, r.mnemonic = "OOR" ∧
      hi &&& (Method.index r.mask).extractLsb' 6 6 = (Method.index r.pattern).extractLsb' 6 6 ∧
      (Method.index r.mask).extractLsb' 0 6 = 0 ∧ (Method.index r.pattern).extractLsb' 0 6 = 0 ∧
      Method.argument r.mask = 0 ∧ Method.argument r.pattern = 0 := by
    decide
  have hne : index.extractLsb' 6 6 ≠ 0 := by
    intro e
    have h0 : (index.extractLsb' 6 6).toNat = 0 := by rw [e]; rfl
    have := index.isLt
    rw [BitVec.extractLsb'_toNat, Nat.shiftRight_eq_div_pow] at h0
    omega
  obtain ⟨r, hmem, hm, hhi, hml, hpl, ha⟩ := hrow _ hne
  refine ⟨r, hmem, hm, ?_, ha⟩
  apply BitVec.eq_of_getLsbD_eq
  intro i hi
  by_cases h6 : i < 6
  · have e1 := congrArg (·.getLsbD i) hml
    have e2 := congrArg (·.getLsbD i) hpl
    simp [h6] at e1 e2
    simp [e1, e2]
  · have e := congrArg (·.getLsbD (i - 6)) hhi
    simp only [BitVec.getLsbD_and, BitVec.getLsbD_extractLsb', show i - 6 < 6 by omega,
      show 6 + (i - 6) = i by omega, decide_true, Bool.true_and] at e
    simpa using e

theorem oor (index : MethodIndex) (arg : Word) : Statement (.oor index arg) := by
  intro h
  obtain ⟨r, hmem, hm, hi, hma, hpa⟩ := outOfRange_row index (of_decide_eq_true h)
  refine ⟨r, by simp [opcodeTable, hmem], hm, ?_⟩
  rw [OpcodeRow.selects_iff, method_index_encode, method_argument_encode, hma, hpa]
  exact ⟨hi, by simp⟩

end Laws.MnemonicRow

end Sys2Proof
end

