-- ==== Sys2Proof/Laws/Run.lean ====
section
/-! SUPPORT. Runs: how they are put together of steps, what a step without inputs does to the order in
which the units wait, and when a wait is satisfied (spec/70_reset_and_hazards.md R304). -/

namespace Sys2Proof.Machine

/-! ## Runs of a fixed length -/

/-- A run of one more step, from its first step. -/
theorem run_succ {k : Nat} {s t : State} (h : step s = .next t) :
    Host.Core.run Sys2Proof.core (k + 1) s = Host.Core.run Sys2Proof.core k t := by
  have hs : Sys2Proof.core.step s = .next t := h
  simp [Host.Core.run, hs]

/-- A run of one more step, from its last step. -/
theorem run_succ_last {k : Nat} {s t t' : State} (h : Host.Core.run Sys2Proof.core k s = .next t)
    (h' : step t = .next t') : Host.Core.run Sys2Proof.core (k + 1) s = .next t' := by
  induction k generalizing s with
  | zero =>
    cases h
    exact run_succ h'
  | succ k ih =>
    cases hs : step s with
    | next a => exact (run_succ hs).trans (ih ((run_succ hs).symm.trans h))
    | fault r | refused r =>
      have hs' : Sys2Proof.core.step s = _ := hs
      simp [Host.Core.run, hs'] at h

/-! ## A step without inputs -/

/-- With no input left, the unit at the head of the queue moves and goes to its end. -/
theorem step_of_no_inputs {s : State} (h : s.inputs = []) : ∃ u others t,
    s.parked ++ [s.active] = u :: others ∧ Moves s u ∧ step s = .next t ∧
      unitStep (s.withTurn u others) = .next t ∧ t.parked = others ∧ t.active.chan = u.chan ∧
      t.inputs = [] := by
  have hq : ∃ u others, s.nextTurn = s.withTurn u others ∧
      s.parked ++ [s.active] = u :: others ∧ Moves s u := by
    unfold State.nextTurn Moves State.mover
    rw [h]
    cases hp : s.parked with
    | nil => exact ⟨s.active, s.parked, rfl, by rw [hp]; rfl, rfl⟩
    | cons u us => exact ⟨u, us ++ [s.active], rfl, rfl, rfl⟩
  obtain ⟨u, others, hn, hu, hm⟩ := hq
  obtain ⟨t, ht, hc, hp, -, hi, -⟩ := unitStep_kept (s.withTurn u others)
  refine ⟨u, others, t, hu, hm, ?_, ht, hp, hc, hi.trans h⟩
  rw [← ht, ← hn, step, systemStep, h]

/-! ## Satisfied waits -/

/-- The poll's test is the predicate of R160 to R162. -/
theorem acquireSatisfied_iff (o : AcqGeqOrder) (op : BitVec 5) (v p : Word) :
    acquireSatisfied o op v p = true ↔ PollSatisfied o op v p := by
  unfold acquireSatisfied PollSatisfied
  by_cases h1 : op = opAcquire
  · simp [h1, opAcquire]
  · by_cases h4 : op = opAcqGeq
    · cases o
      · simpa [h4, opAcquire, opAcqGeq] using geq_unsigned_iff v p
      · simpa [h4, opAcquire, opAcqGeq] using geq_signed_iff v p
      · simpa [h4, opAcquire, opAcqGeq] using geq_circular_iff v p
    · by_cases h8 : op = opAcqAnd
      · simp [h8, opAcquire, opAcqGeq, opAcqAnd]
      · rw [if_neg h1, if_neg h4, if_neg h8]
        simp only [Bool.false_eq_true, false_iff]
        rintro (⟨h, -⟩ | ⟨h, -⟩ | ⟨h, -⟩)
        · exact h1 h
        · exact h4 h
        · exact h8 h

/-- The turn of a unit whose wait is satisfied ends the wait and changes nothing else of the unit. -/
theorem unitStep_of_satisfied {v t : State} (hm : v.awaitsMemory v.active.chan = false)
    (hb : v.active.blocked = true) (hw : WaitSatisfied v v.active) (h : unitStep v = .next t) :
    t.active = v.active.withFsm .idle := by
  simp only [ChannelUnit.blocked, Bool.or_eq_true, beq_iff_eq] at hb
  rcases hb with hf | hf
  · cases (unitStep_of_semWait hm hf).symm.trans h
    rcases v.poll_cases with ⟨-, e⟩ | ⟨hn, -⟩
    · rw [e]
      rfl
    · exact absurd (((acquireSatisfied_iff _ _ _ _).mpr (hw.1 hf)).symm.trans hn) (by decide)
  · cases (unitStep_of_syncptWait hm hf).symm.trans h
    rcases v.test_cases with ⟨-, e⟩ | ⟨hn, -⟩
    · rw [e]
      rfl
    · exact absurd (((thresholdReached_iff _ _).mpr (hw.2 hf)).symm.trans hn) (by decide)

end Sys2Proof.Machine
end

