-- ==== Sys2Proof/Tests/Slice0.lean ====
section
/-! SUPPORT. Tests: ill-formed terms refused, a transaction word decoded for every constructor, one
step of each instruction, and for each statement with hypotheses a state that meets them. Expected
values are those of spec/95_test_vectors.md (the vector is named) or computed by hand from the rule
named; none was taken from the model. -/

namespace Sys2Proof.Tests

open Sys2Proof.Machine

/-! ## Helpers -/

/-- The default parameters, with `WAIT_DIS_BLOCKS` false. -/
def params : Params := ⟨4096, .unsigned, false⟩

/-- The state after reset with these parameters, memory and counters all 0. -/
def base : State := { State.reset with params := params, mem := [], syncpts := [] }

/-- Some slots of the active unit set. -/
def withSlots (s : State) (l : List (SlotIndex × Word)) : State :=
  l.foldl (fun s p => s.store p.1 p.2) s

/-- Some words of memory set. -/
def withWords (s : State) (l : List (Address × Word)) : State :=
  { s with mem := l.foldl (fun m p => m.writeWord p.1 p.2) s.mem }

/-- Some counters set. -/
def withCounters (s : State) (l : List (SyncptIndex × Word)) : State :=
  { s with syncpts := l.foldl (fun b p => cellWrite Config.unlistedCounter b p.1.toNat p.2) s.syncpts }

/-- The active unit with these methods on its port. -/
def withMethods (s : State) (ms : List Method) : State :=
  { s with active := s.active.withPort ms }

/-- The state after one step. -/
def next (s : State) : Option State :=
  match step s with
  | .next t => some t
  | .fault _ | .refused _ => none

/-- The state after the active unit has accepted the method `m`. -/
def after (s : State) (m : Method) : Option State := next (s.presenting m)

/-- What the accepted method left in slot `i`, the control state and the events after its Write. -/
def outcome (s : State) (m : Method) (i : SlotIndex) : Option (Word × Fsm × List EventKind) :=
  (after s m).map fun t => (t.slot i, t.active.fsm, (t.events.map (·.kind)).drop 1)

/-- The word at an address after the accepted method, and the events after its Write. -/
def wordAfter (s : State) (m : Method) (a : Address) : Option (Word × List EventKind) :=
  (after s m).map fun t => (t.mem.readWord a, (t.events.map (·.kind)).drop 1)

/-! ## Ill-formed terms -/

theorem test_namedSlot_is_no_unimpl : (Instr.unimpl 7 0).wellFormed = false := by decide
theorem test_slotIndex_is_no_oor : (Instr.oor 63 0).wellFormed = false := by decide
theorem test_definedControl_is_no_reserved :
    (Instr.semReserved 1 7 ⟨0, .disabled, 0, .disabled, 0, .fourBytes, 0, .unsigned⟩).wellFormed =
      false := by decide
theorem test_wideNumber_is_no_method : decodeNumber (2 ^ 44) = .error .tooWide := by decide

/-! ## Decoding, one word for each constructor (field layout of spec/10_state.md R24 to R37) -/


/-- O-1. -/
theorem test_decode_setObject :
    decode 0x000001CB197 =
      .setObject 0xB197 28 0 := by decide

/-- S5. -/
theorem test_decode_illegal :
    decode 0x001DEAD0001 =
      .illegal 0xDEAD0001 := by decide

/-- O-6. -/
theorem test_decode_nop :
    decode 0x0025A5A5A5A =
      .nop 0x5A5A5A5A := by decide

/-- A-4. -/
theorem test_decode_semaphoreA :
    decode 0x004FFFFFF12 =
      .semaphoreA 0x12 0xFFFFFF := by decide

/-- A-4. -/
theorem test_decode_semaphoreB :
    decode 0x00534567893 =
      .semaphoreB 0x0D159E24 3 := by decide

/-- S2. -/
theorem test_decode_semaphoreC :
    decode 0x006CAFEF00D =
      .semaphoreC 0xCAFEF00D := by decide

/-- Q-25. -/
theorem test_decode_semAcquire :
    decode 0x007B9101001 =
      .semAcquire .dec ⟨0, .enabled, 0, .disabled, 0, .fourBytes, 0, .unsigned⟩ := by decide

/-- E-1. -/
theorem test_decode_semRelease :
    decode 0x00781100002 =
      .semRelease .min ⟨0, .disabled, 0, .disabled, 0, .fourBytes, 0, .unsigned⟩ := by decide

/-- E-3. -/
theorem test_decode_semAcqGeq :
    decode 0x00700001004 =
      .semAcqGeq .min ⟨0, .enabled, 0, .enabled, 0, .sixteenBytes, 0, .signed⟩ := by decide

/-- section 2.4. -/
theorem test_decode_semAcqAnd :
    decode 0x00700001008 =
      .semAcqAnd .min ⟨0, .enabled, 0, .enabled, 0, .sixteenBytes, 0, .signed⟩ := by decide

/-- M-1. -/
theorem test_decode_semRedMin :
    decode 0x00701100010 =
      .semRedMin ⟨0, .disabled, 0, .disabled, 0, .fourBytes, 0, .signed⟩ := by decide

/-- M-7. -/
theorem test_decode_semRedMax :
    decode 0x00789100010 =
      .semRedMax ⟨0, .disabled, 0, .disabled, 0, .fourBytes, 0, .unsigned⟩ := by decide

/-- M-10. -/
theorem test_decode_semRedXor :
    decode 0x00711100010 =
      .semRedXor ⟨0, .disabled, 0, .disabled, 0, .fourBytes, 0, .signed⟩ := by decide

/-- M-13. -/
theorem test_decode_semRedAnd :
    decode 0x00719100010 =
      .semRedAnd ⟨0, .disabled, 0, .disabled, 0, .fourBytes, 0, .signed⟩ := by decide

/-- M-16. -/
theorem test_decode_semRedOr :
    decode 0x00721100010 =
      .semRedOr ⟨0, .disabled, 0, .disabled, 0, .fourBytes, 0, .signed⟩ := by decide

/-- M-19. -/
theorem test_decode_semRedAdd :
    decode 0x007A9100010 =
      .semRedAdd ⟨0, .disabled, 0, .disabled, 0, .fourBytes, 0, .unsigned⟩ := by decide

/-- M-23. -/
theorem test_decode_semRedInc :
    decode 0x007B1100010 =
      .semRedInc ⟨0, .disabled, 0, .disabled, 0, .fourBytes, 0, .unsigned⟩ := by decide

/-- E-2. -/
theorem test_decode_semRedDec :
    decode 0x007B9100010 =
      .semRedDec ⟨0, .disabled, 0, .disabled, 0, .fourBytes, 0, .unsigned⟩ := by decide

/-- E-4. -/
theorem test_decode_semReserved :
    decode 0x007FFFFFFFF =
      .semReserved 31 15 ⟨127, .enabled, 127, .disabled, 7, .fourBytes, 3, .unsigned⟩ := by decide

/-- T-2. -/
theorem test_decode_nonStallInterrupt :
    decode 0x008FFFFFFFF =
      .nonStallInterrupt 0xFFFFFFFF := by decide

/-- T-3. -/
theorem test_decode_fbFlush :
    decode 0x00900000000 =
      .fbFlush 0 := by decide

/-- T-7. -/
theorem test_decode_memOpC :
    decode 0x00CFFFFFFFE =
      .memOpC .one 0x7FFFFFFF := by decide

/-- T-5. -/
theorem test_decode_memOpD :
    decode 0x00D08000000 =
      .memOpD 0x08000000 := by decide

/-- T-8. -/
theorem test_decode_setReference :
    decode 0x01400000042 =
      .setReference 0x42 := by decide

/-- Y-15. -/
theorem test_decode_syncpointA :
    decode 0x01C00000005 =
      .syncpointA 5 := by decide

/-- E-5. -/
theorem test_decode_syncptWait :
    decode 0x01D00000510 =
      .syncptWait ⟨0, 0, 5, 0⟩ := by decide

/-- E-7. -/
theorem test_decode_syncptWaitNoswitch :
    decode 0x01DFFF00000 =
      .syncptWaitNoswitch ⟨0, 0, 0, 0xFFF⟩ := by decide

/-- Y-4. -/
theorem test_decode_syncptIncr :
    decode 0x01DFFF00511 =
      .syncptIncr .enabled ⟨0, 0, 5, 0xFFF⟩ := by decide

/-- W-3. -/
theorem test_decode_wfi :
    decode 0x01EFFFFFFFE =
      .wfi .currentScgType 0x7FFFFFFF := by decide

/-- W-4. -/
theorem test_decode_crcCheck :
    decode 0x01F1234ABCD =
      .crcCheck 0x1234ABCD := by decide

/-- E-11. -/
theorem test_decode_yield :
    decode 0x02000000002 =
      .yield .runlistTimeslice 0 := by decide

/-- S1. -/
theorem test_decode_unimpl :
    decode 0x03F12345678 =
      .unimpl 63 0x12345678 := by decide

/-- S6. -/
theorem test_decode_oor :
    decode 0x04781100002 =
      .oor 71 0x81100002 := by decide

/-- X-10: bit 5 of a control word is pad, so operation 2 with it set is a release, not reserved. -/
theorem test_decode_release_with_pad : decode 0x00700000022 =
    .semRelease .min ⟨1, .disabled, 0, .enabled, 0, .sixteenBytes, 0, .signed⟩ := by decide

/-- The numbering of spec/opcode_table.json: bit 0 is the lowest bit of the argument. -/
theorem test_decodeTableWord : decodeTableWord 48 0x00781100002 =
    some (.semRelease .min ⟨0, .disabled, 0, .disabled, 0, .fourBytes, 0, .unsigned⟩) := by decide

/-! ## One step of each instruction -/

/-- O-2. -/
theorem test_setObject_pads :
    outcome base 0x000FFFFFFFF 0 =
      some (0xFFFFFFFF, .idle, []) := by decide

/-- O-1. -/
theorem test_setObject_outputs :
    (after base 0x000001CB197).map (fun t => (t.active.boundClass, t.active.boundEngine)) =
      some (0xB197, 28) := by decide

/-- O-4. -/
theorem test_illegal :
    outcome base 0x00100000000 1 =
      some (0, .idle, [.fault .illegalMethod 1 0]) := by decide

/-- S5: the other words stay. -/
theorem test_illegal_keeps_words :
    (after (withSlots base [(0, 0x001CB197), (2, 0x5A5A5A5A)]) 0x001DEAD0001).map
      (fun t => (t.slot 0, t.slot 1, t.slot 2)) = some (0x001CB197, 0xDEAD0001, 0x5A5A5A5A) := by decide

/-- O-6. -/
theorem test_nop :
    outcome base 0x0025A5A5A5A 2 =
      some (0x5A5A5A5A, .idle, []) := by decide

/-- A-3 and A-6. -/
theorem test_semaphore_address :
    (withSlots base [(4, 0xFF), (5, 0xFFFFFFFC)]).semAddress = 0xFFFFFFFFFC ∧
      (withSlots base [(4, 1), (5, 7)]).semAddress = 0x0100000004 := by decide

/-- A-5: the pad bit is stored. -/
theorem test_semaphoreA :
    outcome base 0x00400000100 4 =
      some (0x100, .idle, []) := by decide

/-- D-7. -/
theorem test_semaphoreB :
    outcome base 0x00500001000 5 =
      some (0x1000, .idle, []) := by decide

/-- S2, step 3. -/
theorem test_semaphoreC :
    outcome base 0x006CAFEF00D 6 =
      some (0xCAFEF00D, .idle, []) := by decide

/-- Q-25. -/
theorem test_semAcquire_ignores_fields :
    outcome base 0x007B9101001 7 =
      some (0xB9101001, .semWait, []) := by decide

/-- Q-23. -/
theorem test_semAcqGeq :
    outcome base 0x00700000004 7 =
      some (4, .semWait, []) := by decide

/-- Q-24. -/
theorem test_semAcqAnd :
    outcome base 0x00700000008 7 =
      some (8, .semWait, []) := by decide

/-- A poll of the value `v` with the payload `p`, by the operation `op`: has the wait ended? -/
def pollEnds (order : AcqGeqOrder) (op : Word) (v p : Word) : Option Bool :=
  let s := withWords (withSlots base [(6, p), (7, op)]) [(0, v)]
  (next { s.setFsm .semWait with params := ⟨4096, order, false⟩ }).map (·.active.fsm == .idle)

/-- Values and payloads of Q-2, Q-4, Q-5, Q-6, Q-8, Q-12, Q-13. -/
def pollRows : List (Word × Word) :=
  [(7, 8), (0x80000000, 0x7FFFFFFF), (1, 0xFFFFFFFF), (10, 5), (0xFFFFFFFF, 0xFFFFFFFF),
   (0xFFFFFFFF, 0), (0, 0xFFFFFFFF)]

/-- The columns of section 2.4. -/
theorem test_poll_acquire :
    pollRows.map (fun r => pollEnds .unsigned 1 r.1 r.2) =
      [some false, some false, some false, some false, some true, some false, some false] := by decide

/-- The columns of section 2.4. -/
theorem test_poll_acqGeq_unsigned :
    pollRows.map (fun r => pollEnds .unsigned 4 r.1 r.2) =
      [some false, some true, some false, some true, some true, some true, some false] := by decide

/-- The columns of section 2.4. -/
theorem test_poll_acqGeq_signed :
    pollRows.map (fun r => pollEnds .signed 4 r.1 r.2) =
      [some false, some false, some true, some true, some true, some false, some true] := by decide

/-- The columns of section 2.4. -/
theorem test_poll_acqGeq_circular :
    pollRows.map (fun r => pollEnds .circular 4 r.1 r.2) =
      [some false, some true, some true, some true, some true, some false, some true] := by decide

/-- The columns of section 2.4. -/
theorem test_poll_acqAnd :
    pollRows.map (fun r => pollEnds .unsigned 8 r.1 r.2) =
      [some false, some false, some true, some false, some true, some false, some false] := by decide

/-- L-2: bytes 0D F0 FE CA from the lowest address, with the wfi flag. -/
theorem test_semRelease_bytes :
    (after (withSlots base [(4, 0x12), (5, 0x34567890), (6, 0xCAFEF00D)]) 0x00781000002).map
      (fun t => (t.mem, (t.events.map (·.kind)).drop 1)) =
      some ([(0x1234567890, 0x0D), (0x1234567891, 0xF0), (0x1234567892, 0xFE), (0x1234567893, 0xCA)],
        [.memWrite 0x1234567890 [0xCAFEF00D] true]) := by decide

/-- L-7. -/
theorem test_semRelease_misaligned :
    (after (withSlots base [(5, 0x5008)]) 0x00700100002).map
      (fun t => (t.mem, (t.events.map (·.kind)).drop 1)) =
      some ([], [.fault .unsupportedOperation 7 0x00100002]) := by decide

/-- M-1. -/
theorem test_semRedMin_M1 :
    wordAfter (withWords (withSlots base [(5, 0x3000), (6, 0x3)]) [(0x3000, 0xFFFFFFFF)])
      0x00701100010 0x3000 =
      some (0xFFFFFFFF, [.memReduce 0x3000 .min .signed 0x3 false]) := by decide

/-- M-2. -/
theorem test_semRedMin_M2 :
    wordAfter (withWords (withSlots base [(5, 0x3000), (6, 0x3)]) [(0x3000, 0xFFFFFFFF)])
      0x00781100010 0x3000 =
      some (0x3, [.memReduce 0x3000 .min .unsigned 0x3 false]) := by decide

/-- M-6. -/
theorem test_semRedMax_M6 :
    wordAfter (withWords (withSlots base [(5, 0x3000), (6, 0x1)]) [(0x3000, 0x80000000)])
      0x00709100010 0x3000 =
      some (0x1, [.memReduce 0x3000 .max .signed 0x1 false]) := by decide

/-- M-7. -/
theorem test_semRedMax_M7 :
    wordAfter (withWords (withSlots base [(5, 0x3000), (6, 0x1)]) [(0x3000, 0x80000000)])
      0x00789100010 0x3000 =
      some (0x80000000, [.memReduce 0x3000 .max .unsigned 0x1 false]) := by decide

/-- M-10. -/
theorem test_semRedXor_M10 :
    wordAfter (withWords (withSlots base [(5, 0x3000), (6, 0xF0F0F0F)]) [(0x3000, 0xFF00FF00)])
      0x00711100010 0x3000 =
      some (0xF00FF00F, [.memReduce 0x3000 .xor .signed 0xF0F0F0F false]) := by decide

/-- M-13. -/
theorem test_semRedAnd_M13 :
    wordAfter (withWords (withSlots base [(5, 0x3000), (6, 0xF0F0F0F)]) [(0x3000, 0xFF00FF00)])
      0x00719100010 0x3000 =
      some (0xF000F00, [.memReduce 0x3000 .and .signed 0xF0F0F0F false]) := by decide

/-- M-16. -/
theorem test_semRedOr_M16 :
    wordAfter (withWords (withSlots base [(5, 0x3000), (6, 0xF0F0F0F)]) [(0x3000, 0xFF00FF00)])
      0x00721100010 0x3000 =
      some (0xFF0FFF0F, [.memReduce 0x3000 .or .signed 0xF0F0F0F false]) := by decide

/-- M-21. -/
theorem test_semRedAdd_M21 :
    wordAfter (withWords (withSlots base [(5, 0x3000), (6, 0x80000000)]) [(0x3000, 0x80000000)])
      0x007A9100010 0x3000 =
      some (0x0, [.memReduce 0x3000 .add .unsigned 0x80000000 false]) := by decide

/-- M-24. -/
theorem test_semRedInc_M24 :
    wordAfter (withWords (withSlots base [(5, 0x3000), (6, 0x3)]) [(0x3000, 0x3)])
      0x007B1100010 0x3000 =
      some (0x0, [.memReduce 0x3000 .inc .unsigned 0x3 false]) := by decide

/-- M-29. -/
theorem test_semRedInc_M29 :
    wordAfter (withWords (withSlots base [(5, 0x3000), (6, 0x1)]) [(0x3000, 0x80000000)])
      0x00731100010 0x3000 =
      some (0x0, [.memReduce 0x3000 .inc .signed 0x1 false]) := by decide

/-- M-33. -/
theorem test_semRedDec_M33 :
    wordAfter (withWords (withSlots base [(5, 0x3000), (6, 0x5)]) [(0x3000, 0x5)])
      0x007B9100010 0x3000 =
      some (0x4, [.memReduce 0x3000 .dec .unsigned 0x5 false]) := by decide

/-- M-36. -/
theorem test_semRedDec_M36 :
    wordAfter (withWords (withSlots base [(5, 0x3000), (6, 0x1)]) [(0x3000, 0x80000000)])
      0x00739100010 0x3000 =
      some (0x1, [.memReduce 0x3000 .dec .signed 0x1 false]) := by decide

/-- M-41: not even the 4-byte reduction is made. -/
theorem test_semRedAdd_misaligned :
    wordAfter (withWords (withSlots base [(5, 0x3004), (6, 2)]) [(0x3004, 40)])
      0x007A8100010 0x3004 = some (40, [.fault .unsupportedOperation 7 0xA8100010]) := by decide

/-- X-9: both fields reserved, still one fault. -/
theorem test_semReserved :
    outcome base 0x00740000003 7 =
      some (0x40000003, .idle, [.fault .unsupportedOperation 7 0x40000003]) := by decide

/-- Q-26. -/
theorem test_semReserved_reduction :
    outcome base 0x00740000001 7 =
      some (0x40000001, .idle, [.fault .unsupportedOperation 7 0x40000001]) := by decide

/-- T-2. -/
theorem test_nonStallInterrupt :
    outcome base 0x008FFFFFFFF 8 =
      some (0xFFFFFFFF, .idle, [.nonStallInterrupt]) := by decide

/-- T-3. -/
theorem test_fbFlush :
    outcome base 0x00900000000 9 =
      some (0, .idle, [.fbFlush]) := by decide

/-- T-4. -/
theorem test_memOpC :
    outcome base 0x00C00000001 12 =
      some (1, .idle, []) := by decide

/-- T-7, second method. -/
theorem test_memOpD_one :
    outcome (withSlots base [(12, 0xFFFFFFFE)]) 0x00D00000000 13 =
      some (0, .idle, [.tlbInvalidate .one 0xFFFFFFFE 0]) := by decide

/-- T-5, second method. -/
theorem test_memOpD_all :
    outcome (withSlots base [(12, 1)]) 0x00D08000000 13 =
      some (0x08000000, .idle, [.tlbInvalidate .all 1 0x08000000]) := by decide

/-- T-9. -/
theorem test_setReference :
    (after (withSlots base [(20, 0x42)]) 0x01400000010).map (·.active.reference) = some 0x10 := by decide

/-- Y-15. -/
theorem test_syncpointA :
    outcome base 0x01C00000005 28 =
      some (5, .idle, []) := by decide

/-- Y-2. -/
theorem test_syncptIncr_wraps :
    (after (withCounters base [(7, 0xFFFFFFFF)]) 0x01D00000701).map (·.syncpts.read 7) = some 0 := by decide

/-- Y-10, with NUM_SYNCPT = 192. -/
theorem test_syncptIncr_no_counter :
    outcome { base with params := ⟨192, .unsigned, false⟩ } 0x01D0000C001 29 =
      some (0xC001, .idle, [.fault .unsupportedOperation 29 0xC001]) := by decide

/-- Y-5, the write. -/
theorem test_syncptWait :
    outcome (withSlots base [(28, 5)]) 0x01D00000510 29 =
      some (0x510, .syncptWait, []) := by decide

/-- Y-6, Y-7, Y-8: the test after a wait on counter 5. -/
theorem test_syncpt_threshold :
    [((9 : Word), (5 : Word)), (0xFFFFFFFF, 0), (2, 0xFFFFFFFF)].map (fun r =>
      (next ((withSlots (withCounters base [(5, r.1)]) [(28, r.2), (29, 0x510)]).setFsm
        .syncptWait)).map (·.active.fsm)) = [some .idle, some .idle, some .syncptWait] := by decide

/-- Y-13. -/
theorem test_syncptWaitNoswitch_runs_on :
    outcome (withSlots base [(28, 5)]) 0x01D00000500 29 =
      some (0x500, .idle, []) := by decide

/-- Y-14. -/
theorem test_syncptWaitNoswitch_blocks :
    outcome { base with params := ⟨4096, .unsigned, true⟩ } 0x01D00000500 29 =
      some (0x500, .syncptWait, []) := by decide

/-- W-3. -/
theorem test_wfi :
    outcome base 0x01EFFFFFFFE 30 =
      some (0xFFFFFFFE, .idle, [.waitForIdle .currentScgType]) := by decide

/-- W-4. -/
theorem test_crcCheck :
    outcome base 0x01F1234ABCD 31 =
      some (0x1234ABCD, .idle, [.crcCheck 0x1234ABCD]) := by decide

/-- W-9. -/
theorem test_yield_tsg :
    outcome base 0x02000000003 32 =
      some (3, .idle, [.yield .tsg]) := by decide

/-- W-10. -/
theorem test_yield_pads :
    outcome base 0x020FFFFFFFC 32 =
      some (0xFFFFFFFC, .idle, [.yield .nop]) := by decide

/-- D-2, the last index. -/
theorem test_unimpl :
    outcome base 0x03F00000008 63 =
      some (8, .idle, []) := by decide

/-- S6: the largest index; slot 63 keeps its word. -/
theorem test_oor :
    outcome (withSlots base [(63, 0x77)]) 0xFFF00000000 63 =
      some (0x77, .fatal, [.fault .outOfRangeMethod 4095 0]) := by decide

/-- S6: 71 is not wrapped to 7. -/
theorem test_oor_not_wrapped :
    outcome base 0x04781100002 7 =
      some (0, .fatal, [.fault .outOfRangeMethod 71 0x81100002]) := by decide

/-! ## The other agents -/

/-- D-5: a waiting unit accepts nothing. -/
theorem test_waiting_unit_holds :
    (next ((withSlots (withMethods base [0x00200000001]) [(6, 1), (7, 1)]).setFsm .semWait)).map
      (fun t => (t.slot 2, t.active.port)) = some (0, [0x00200000001]) := by decide

/-- K-1, K-4. -/
theorem test_cancel :
    [Fsm.semWait, .fatal].map (fun f => (next { (withSlots base [(7, 4)]).setFsm f with
      inputs := [.cancel 0] }).map (fun t => (t.active.fsm, t.slot 7))) =
      [some (.idle, 4), some (.fatal, 4)] := by decide

/-- R68(a): one access, and no torn word; R46: one byte of it. -/
theorem test_envWriteWord :
    [(15 : BitVec 4), 2].map (fun e => (next { withWords base [(0x2000, 7)] with
      inputs := [.envWriteWord 0x800 e 0xAABBCCDD] }).map (·.mem.readWord 0x2000)) =
      [some 0xAABBCCDD, some 0x0000CC07] := by decide

/-- R304: with no input the unit that has waited longest moves, and the other one waits. -/
theorem test_turns_pass :
    (next { base with parked := [(ChannelUnit.fresh 1).withPort [0x00200000001]] }).map
      (fun t => (t.active.chan, t.active.port, t.parked.map (·.chan))) = some (1, [], [0]) := by decide

/-- K-5. -/
theorem test_reset :
    (next { (withSlots base [(3, 0x77)]).setFsm .fatal with inputs := [.reset 0] }).map
      (fun t => (t.active.fsm, t.slot 3)) = some (.idle, 0) := by decide

/-- R301: two units release 16 bytes to one block; the payload of one and the zero word of the other are the later ones. -/
theorem test_racing_releases_mix :
    (next { base with inFlight := [⟨0, 0x2000, 5⟩, ⟨1, 0x2000, 6⟩], inputs := [.memPerform 1] }).bind
      (fun t => (next { t with inputs := [.memPerform 0] }).map fun r => (t.mem.readWord 0x2000,
        r.mem.readWord 0x2000, r.inFlight)) = some (6, 5, []) := by decide

/-- R68(c): a 16-byte release has its payload written first, the word behind it not yet. -/
theorem test_release16_word_by_word :
    ((after (withWords (withSlots base [(5, 0x5010), (6, 8)]) [(0x5010, 1), (0x5014, 2)])
      0x00700100002).bind fun t => (next t).map fun r =>
      [t.mem.readWord 0x5010, t.mem.readWord 0x5014, r.mem.readWord 0x5010, r.mem.readWord 0x5014]) =
      some [1, 2, 8, 2] := by decide

/-- R168, R68(d): a 16-byte reduction writes its word at once, its trailer word by word after it. -/
theorem test_reduction16_trailer :
    ((after (withWords (withSlots base [(5, 0x5010), (6, 8)]) [(0x5010, 12), (0x5014, 2)])
      0x00718100010).bind fun t => (next t).map fun r =>
      [t.mem.readWord 0x5010, t.mem.readWord 0x5014, r.mem.readWord 0x5014]) = some [8, 2, 0] := by decide

/-- The next step after `withFetchWord` runs the method, from a fatal unit as well. -/
theorem test_withFetchWord :
    (next ((base.setFsm .fatal).withFetchWord 48 0x0025A5A5A5A)).map (·.slot 2) =
      some 0x5A5A5A5A := by decide

/-! ## Witnesses: states and operands that meet the hypotheses of each statement -/

/-- A control word of four bytes, all else 0 but what the name says. -/
def fourBytes : SemControl := ⟨0, .disabled, 0, .disabled, 0, .fourBytes, 0, .unsigned⟩
/-- The same with sixteen bytes. -/
def sixteenBytes : SemControl := ⟨0, .disabled, 0, .disabled, 0, .sixteenBytes, 0, .signed⟩

/-- Another unit, waiting for the word at 0x2000 to be 5. -/
def waiter : ChannelUnit :=
  ((((ChannelUnit.fresh 1).store 5 0x2000).store 6 5).store 7 0x1001).withFsm .semWait
/-- Another unit, waiting for counter 5 to reach 5. -/
def syncptWaiter : ChannelUnit :=
  (((ChannelUnit.fresh 1).store 28 5).store 29 0x510).withFsm .syncptWait
/-- Two units: the active one as `base` with slots set, and `w`. -/
def twoUnits (w : ChannelUnit) : State :=
  { withSlots base [(5, 0x2000), (6, 5)] with parked := [w] }

theorem witness_DecodeInvertsEncode :
    (Instr.unimpl 3 0).wellFormed = true ∧ (Instr.unimpl 63 0).wellFormed = true ∧
    (Instr.oor 64 0).wellFormed = true ∧ (Instr.oor 4095 0).wellFormed = true ∧
    (Instr.semReserved 0 0 fourBytes).wellFormed = true ∧
    (Instr.semReserved 1 8 fourBytes).wellFormed = true := by decide

/-- As `base`, with three words in flight: two of unit 0 and one of unit 1 for the same word as the
first, 0x2000. -/
def racing : State :=
  { base with
    parked := [ChannelUnit.fresh 1]
    inFlight := [⟨0, 0x2000, 5⟩, ⟨1, 0x2000, 6⟩, ⟨0, 0x2004, 7⟩] }

/-- The three ways to move: alone, as the unit that has waited longest, and by a turn input. -/
theorem witness_StepRunsDecodedMethod :
    let u := (ChannelUnit.fresh 1).withPort [0x0025A5A5A5A]
    let s : State := { base with parked := [u, ChannelUnit.fresh 2] }
    let s' : State := { base with parked := [ChannelUnit.fresh 2, u], inputs := [.turn 1] }
    s.methodReady u = true ∧ s'.methodReady u = true ∧
    ({ base with active := u } : State).methodReady u = true ∧
    u.port = 0x0025A5A5A5A :: [] ∧ decode 0x0025A5A5A5A = .nop 0x5A5A5A5A ∧
    Moves { base with active := u } u ∧ Moves s u ∧ Moves s' u :=
  ⟨rfl, rfl, rfl, rfl, by decide, rfl, rfl, rfl⟩

/-- The outputs of blocked units, of an IDLE one with a word in flight, and of an IDLE one without. -/
theorem witness_BlockedUnitHoldsItsMethod :
    ∀ f ∈ [Fsm.semWait, .syncptWait, .fatal],
      (twoUnits (waiter.withFsm f)).mover = some (waiter.withFsm f) ∧
      (base.setFsm f).mover = some (base.setFsm f).active ∧
      (∀ w ∈ (twoUnits (waiter.withFsm f)).inFlight, w.chan ≠ waiter.chan) ∧
      (∀ w ∈ (base.setFsm f).inFlight, w.chan ≠ base.active.chan) ∧
      base.methodReady (waiter.withFsm f) = false ∧ base.methodReady (base.setFsm f).active = false ∧
      racing.methodReady racing.active = false ∧ base.methodReady base.active = true := by
  decide

theorem witness_AcceptedMethodStoresItsArgument :
    [(0x000FFFFFFFF : Method), 0x03F12345678].Forall fun m =>
      (withMethods base [m]).methodReady (withMethods base [m]).active = true ∧
      (withMethods base [m]).active.port = m :: [] ∧
      (withMethods base [m]).mover = some (withMethods base [m]).active ∧
      (m.extractLsb' 32 12).toNat < 64 := by decide

theorem witness_OutOfRangeMethodIsFatal :
    64 ≤ (64 : MethodIndex).toNat ∧ 64 ≤ (4095 : MethodIndex).toNat := by decide

theorem witness_FatalUnitLeftOnlyByReset :
    let s := base.setFsm .fatal
    s.active ∈ s.units ∧ s.active.fsm = .fatal ∧ step s = .next s ∧
    ∃ t, step { s with inputs := [.reset 0] } = .next t :=
  ⟨by decide, rfl, rfl, _, rfl⟩

theorem witness_UnimplementedSlotStoresOnly :
    (3 : SlotIndex).toNat ∈
      [3, 10, 11, 14, 15, 16, 17, 18, 19, 21, 22, 23, 24, 25, 26, 27] ∧
    33 ≤ (33 : SlotIndex).toNat ∧ 33 ≤ (63 : SlotIndex).toNat := by decide

/-- The hypotheses with each of the three operations and each order, and by a unit that waits. -/
theorem witness_PollEndsWaitExactlyWhenSatisfied :
    ([(1 : Word), 4, 8].Forall fun op => ∀ order ∈ [AcqGeqOrder.unsigned, .signed, .circular],
      let s : State := { (withSlots base [(6, 5), (7, op)]).setFsm .semWait with
        params := ⟨4096, order, false⟩ }
      s.active.fsm = .semWait ∧ s.mover = some s.active ∧ s.params.acqGeqOrder = order ∧
      (s.active.peek 7).extractLsb' 0 5 = op.setWidth 5) ∧
    (twoUnits waiter).mover = some waiter ∧ waiter.fsm = .semWait ∧
    (∀ w ∈ (twoUnits waiter).inFlight, w.chan ≠ waiter.chan) ∧
    ∀ w ∈ base.inFlight, w.chan ≠ base.active.chan := by decide

theorem witness_AcqGeqOrdersAgreeBelowSignBit :
    (0x7FFFFFFF : Word).toNat < 2 ^ 31 ∧ (0 : Word).toNat < 2 ^ 31 := by decide

theorem witness_ReleaseFourBytesWritesPayload : fourBytes.releaseSize = .fourBytes := by decide

/-- The words written from the last to the first, and from the first to the last. -/
theorem witness_ReleaseSixteenBytesWritesFourWords :
    [(3, 2, 1), (0, 0, 0)].Forall fun r =>
      let s : State := { withSlots base [(5, 0x5020)] with
        inputs := [.memPerform r.1, .memPerform r.2.1, .memPerform r.2.2, .memPerform 0] }
      sixteenBytes.releaseSize = .sixteenBytes ∧ (s.slot 5).extractLsb' 2 2 = 0 ∧
      r.1 < 4 ∧ r.2.1 < 3 ∧ r.2.2 < 2 ∧ s.inFlight = [] ∧
      s.inputs = [.memPerform r.1, .memPerform r.2.1, .memPerform r.2.2, .memPerform 0] := by
  decide

theorem witness_MisalignedSixteenByteAccessFaults :
    sixteenBytes.releaseSize = .sixteenBytes ∧
    ((withSlots base [(5, 0x5004)]).slot 5).extractLsb' 2 2 ≠ 0 ∧
    ((withSlots base [(5, 0x500C)]).slot 5).extractLsb' 2 2 ≠ 0 := by decide

theorem witness_MinMaxReductions :
    SizeAllowed (withSlots base [(5, 0x3004)]) fourBytes ∧ fourBytes.format = .unsigned ∧
    SizeAllowed (withSlots base [(5, 0x3010)]) sixteenBytes ∧ sixteenBytes.format = .signed :=
  ⟨.inl rfl, rfl, .inr (by decide), rfl⟩

theorem witness_BitwiseAndAddReductions :
    SizeAllowed (withSlots base [(5, 0x3004)]) fourBytes ∧
    SizeAllowed (withSlots base [(5, 0x3010)]) sixteenBytes :=
  ⟨.inl rfl, .inr (by decide)⟩

theorem witness_IncDecReductions :
    SizeAllowed (withSlots base [(5, 0xFFFFFFFC)]) fourBytes ∧
    SizeAllowed (withSlots base [(5, 0xFFFFFFF0)]) sixteenBytes :=
  ⟨.inl rfl, .inr (by decide)⟩

theorem witness_ReservedControlReportsOneFault :
    (0 : BitVec 5).toNat ∉ [1, 2, 4, 8, 16] ∧ (31 : BitVec 5).toNat ∉ [1, 2, 4, 8, 16] ∧
    8 ≤ (8 : BitVec 4).toNat ∧ 8 ≤ (15 : BitVec 4).toNat := by decide

theorem witness_SyncptIncrAddsOne :
    (⟨0, 0, 4095, 0⟩ : SyncptControl).index.toNat < base.params.numSyncpt ∧
    (withCounters base [(4095, 0xFFFFFFFF)]).syncpts.read 4095 = 0xFFFFFFFF := by decide

theorem witness_SyncptIndexOutOfRangeFaults :
    let s : State := { base with params := ⟨192, .unsigned, false⟩ }
    s.params.numSyncpt ≤ (⟨0, 0, 192, 0⟩ : SyncptControl).index.toNat := by decide

theorem witness_SyncptWaitSuspendsTheChannel :
    let s : State := { base with params := ⟨192, .unsigned, false⟩ }
    (⟨0, 0, 191, 0⟩ : SyncptControl).index.toNat < s.params.numSyncpt := by decide

theorem witness_NoswitchWaitFollowsParameter :
    ∀ b ∈ [true, false], let s : State := { base with params := ⟨4096, .unsigned, b⟩ }
      (⟨0, 0, 5, 0⟩ : SyncptControl).index.toNat < s.params.numSyncpt ∧
      s.params.waitDisBlocks = b := by decide

theorem witness_TestEndsWaitExactlyWhenReached :
    ([(5 : Word), 4].Forall fun c =>
      let s := withCounters (twoUnits syncptWaiter) [(5, c)]
      s.mover = some syncptWaiter ∧ syncptWaiter.fsm = .syncptWait ∧
      (∀ w ∈ s.inFlight, w.chan ≠ syncptWaiter.chan) ∧
      ((syncptWaiter.peek 28).toNat ≤ (s.syncpts.read 5).toNat ↔ c = 5)) := by decide

/-- A word of unit 1 behind one of unit 0: written by the collaborator, by the turn of unit 1 that the
first input gives, and by its turn as the unit that has waited longest. -/
theorem witness_WordsInFlightAreWrittenOneByOne :
    let w : WordWrite := ⟨1, 0x2000, 6⟩
    let later : State := { racing with inputs := [.turn 1] }
    racing.inFlight = [⟨0, 0x2000, 5⟩] ++ w :: [⟨0, 0x2004, 7⟩] ∧
    ({ racing with inputs := [.memPerform 1] } : State).inputs =
      .memPerform [(⟨0, 0x2000, 5⟩ : WordWrite)].length :: [] ∧
    later.inFlight = racing.inFlight ∧ w.chan = (ChannelUnit.fresh 1).chan ∧
    (∀ x ∈ [(⟨0, 0x2000, 5⟩ : WordWrite)], x.chan ≠ (ChannelUnit.fresh 1).chan) ∧
    Moves racing (ChannelUnit.fresh 1) ∧ Moves later (ChannelUnit.fresh 1) :=
  ⟨rfl, rfl, rfl, rfl, by decide, rfl, rfl⟩

theorem witness_ResetInputClearsOneUnit :
    let s : State := { twoUnits waiter with inputs := [.reset 1] }
    s.inputs = .reset 1 :: [] ∧ ∃ u ∈ s.units, u.chan = 1 :=
  ⟨rfl, waiter, by decide, rfl⟩

theorem witness_CancelEndsPendingWaitOnly :
    let s : State := { (twoUnits waiter).setFsm .fatal with inputs := [.cancel 1] }
    s.inputs = .cancel 1 :: [] ∧ s.active.fsm = .fatal ∧ ∃ u ∈ s.units, u.chan = 1 :=
  ⟨rfl, rfl, waiter, by decide, rfl⟩

/-- A method offered behind another, and one withdrawn from in front of another. -/
theorem witness_PortInputsChangeOnePort :
    let s := withMethods base [0x00200000001, 0x00200000002]
    (∃ u ∈ s.units, u.chan = 0) ∧
    ({ s with inputs := [.offer 0 0x00200000003] } : State).inputs = .offer 0 0x00200000003 :: [] ∧
    ({ s with inputs := [.withdraw 0] } : State).inputs = .withdraw 0 :: [] ∧
    (next { s with inputs := [.offer 0 0x00200000003] }).map (·.active.port) =
      some [0x00200000001, 0x00200000002, 0x00200000003] ∧
    (next { s with inputs := [.withdraw 0] }).map (·.active.port) = some [0x00200000002] :=
  ⟨⟨_, List.mem_cons_self, rfl⟩, rfl, rfl, by decide, by decide⟩

theorem witness_EnvironmentChangesOnePlace :
    ({ base with inputs := [.envWrite 0xFFFFFFFFFF 1] } : State).inputs =
      .envWrite 0xFFFFFFFFFF 1 :: [] ∧
    ({ base with inputs := [.envWriteWord 0x3FFFFFFFFF 15 1] } : State).inputs =
      .envWriteWord 0x3FFFFFFFFF 15 1 :: [] ∧
    (0xFFFFFFFFFC : Address).toNat = 4 * (0x3FFFFFFFFF : WordNumber).toNat ∧
    ({ base with inputs := [.envIncr 4095] } : State).inputs = .envIncr 4095 :: [] ∧
    (4095 : SyncptIndex).toNat < base.params.numSyncpt := by decide

theorem witness_InputsNamingNothingStop :
    let s : State := { base with params := ⟨192, .unsigned, false⟩ }
    (∀ u ∈ s.units, u.chan ≠ 1) ∧ s.params.numSyncpt ≤ (192 : SyncptIndex).toNat ∧
    racing.inFlight.length ≤ 3 ∧
    ({ racing with inputs := [.memPerform 3] } : State).inputs = .memPerform 3 :: [] ∧
    ({ s with inputs := [.envIncr 192] } : State).inputs = .envIncr 192 :: [] ∧
    ({ s with inputs := [.turn 1] } : State).inputs = .turn 1 :: [] := by decide

/-- One method for each check of R253, in order, and one that passes them all. -/
theorem witness_OneFaultPerMethodInFixedOrder :
    [(0x04000000000 : Method), 0x00100000000, 0x00700000003, 0x00740000001, 0x00700000002,
        0x01D0000C001, 0x00200000000].Forall fun m =>
      let s := withMethods { withSlots base [(5, 4)] with params := ⟨192, .unsigned, false⟩ } [m]
      s.mover = some s.active ∧ s.methodReady s.active = true ∧ s.active.port = m :: [] := by decide

theorem witness_EventHistoryOnlyGrows : ∃ t, step (withMethods base [0x00100000000]) = .next t :=
  ⟨_, rfl⟩

theorem witness_ParametersAndChannelsNeverChange :
    ∃ t, step { twoUnits waiter with inputs := [.turn 1] } = .next t := ⟨_, rfl⟩

theorem witness_inv_waiter (inputs : List Input) :
    Inv { twoUnits waiter with inputs := inputs } where
  memory := by change Memory.wf []; decide
  counters := by change SyncptBank.wf [] 4096; decide
  numSyncpt := by change 1 ≤ 4096 ∧ 4096 ≤ 4096; decide
  channels := by change [0, 1].Nodup; decide
  waits := by
    change ∀ u ∈ (twoUnits waiter).units, WaitLegal params u
    simp only [WaitLegal]
    decide
  inFlight := by change ∀ w ∈ [], _; simp

theorem witness_inv_syncptWaiter (inputs : List Input) :
    Inv { twoUnits syncptWaiter with inputs := inputs } where
  memory := by change Memory.wf []; decide
  counters := by change SyncptBank.wf [] 4096; decide
  numSyncpt := by change 1 ≤ 4096 ∧ 4096 ≤ 4096; decide
  channels := by change [0, 1].Nodup; decide
  waits := by
    change ∀ u ∈ (twoUnits syncptWaiter).units, WaitLegal params u
    simp only [WaitLegal]
    decide
  inFlight := by change ∀ w ∈ [], _; simp

/-- A step of a waiting unit, and one that writes a word in flight. -/
theorem witness_StepKeepsInvariant :
    (∃ s t, Inv s ∧ step s = .next t) ∧
    ∃ t, Inv { racing with inputs := [.memPerform 2] } ∧
      step { racing with inputs := [.memPerform 2] } = .next t := by
  refine ⟨⟨_, _, witness_inv_waiter [.turn 1], rfl⟩, _,
    ⟨by decide, by decide, by decide, by decide, ?_, ?_⟩, rfl⟩
  · change ∀ u ∈ racing.units, WaitLegal params u
    simp only [WaitLegal]
    decide
  · change ∀ w ∈ racing.inFlight, _ ∧ ∃ u ∈ racing.units, _
    decide

/-- A byte changed by a release, by a reduction, by the environment and by a word in flight. -/
theorem witness_MemoryChangesOnlyBySemaphoreOrEnvironment :
    ∀ s ∈ [withMethods (withSlots base [(6, 5)]) [0x00781100002],
        withMethods (withSlots base [(6, 5)]) [0x007A9100010],
        ({ base with inputs := [.envWrite 0 5] } : State),
        ({ base with inputs := [.envWriteWord 0 1 5] } : State),
        { base with inFlight := [⟨0, 0, 5⟩] },
        { base with inFlight := [⟨0, 0, 5⟩], inputs := [.memPerform 0] }],
      (next s).map (·.mem.readByte 0) = some 5 ∧ s.mem.readByte 0 = 0 := by decide

/-- A counter changed by an Incr and by the environment. -/
theorem witness_CountersChangeOnlyByIncrement :
    ∀ s ∈ [withMethods base [0x01D00000501], ({ base with inputs := [.envIncr 5] } : State)],
      (next s).map (·.syncpts.read 5) = some 1 ∧ s.syncpts.read 5 = 0 := by decide

theorem witness_TurnChangesOneUnitOnly :
    let s : State := { twoUnits waiter with inputs := [.turn 1] }
    Moves s waiter ∧ Moves (twoUnits waiter) waiter ∧ (∃ t, step s = .next t) ∧
    (∃ t, step (twoUnits waiter) = .next t) ∧ s.active ∈ s.units ∧ s.active.chan ≠ waiter.chan :=
  ⟨rfl, rfl, ⟨_, rfl⟩, ⟨_, rfl⟩, by decide, by decide⟩

/-- Two states with different memories, counters and other units. -/
theorem witness_RegistersDoNotDependOnSharedState :
    let s := withSlots base [(5, 0x2000), (6, 5)]
    let s' := withCounters (withWords (twoUnits waiter) [(0x2000, 9)]) [(5, 1)]
    s.active = s'.active ∧ s.params = s'.params ∧ s.mem ≠ s'.mem ∧ s.syncpts ≠ s'.syncpts ∧
    (∃ t, exec (.semRedMin fourBytes) s = .next t) ∧
    ∃ t, exec (.semRedMin fourBytes) s' = .next t :=
  ⟨rfl, rfl, by decide, by decide, ⟨_, rfl⟩, _, rfl⟩

/-- A plain acquire satisfied by an equal value, and the other predicates satisfied. -/
theorem witness_ReleaseEndsSatisfiedAcquireElsewhere :
    let s : State := { twoUnits waiter with inputs := [.turn 1] }
    let s' : State := { twoUnits waiter with inputs := [.memPerform 0, .turn 1] }
    Inv s ∧ Inv s' ∧ SizeAllowed s fourBytes ∧ SizeAllowed s' sixteenBytes ∧
    fourBytes.releaseSize = .fourBytes ∧ sixteenBytes.releaseSize = .sixteenBytes ∧
    waiter ∈ s.parked ∧ waiter.fsm = .semWait ∧ waiter.semAddress = s.semAddress ∧
    PollSatisfied s.params.acqGeqOrder ((waiter.peek 7).extractLsb' 0 5) (s.slot 6)
      (waiter.peek 6) ∧
    s.inputs = .turn waiter.chan :: [] ∧
    s'.inputs = .memPerform s'.inFlight.length :: .turn waiter.chan :: [] ∧
    PollSatisfied .unsigned 4 6 5 ∧ PollSatisfied .signed 4 0 0xFFFFFFFF ∧
    PollSatisfied .circular 4 0 0xFFFFFFFF ∧ PollSatisfied .unsigned 8 6 4 :=
  ⟨witness_inv_waiter _, witness_inv_waiter _, .inl rfl, .inr (by decide), rfl, rfl, by decide,
    by decide, by decide, .inl ⟨by decide, by decide⟩, by decide, rfl, .inr (.inl ⟨rfl, by decide⟩),
    .inr (.inl ⟨rfl, by decide⟩), .inr (.inl ⟨rfl, by decide⟩), .inr (.inr ⟨rfl, by decide⟩)⟩

theorem witness_IncrementEndsReachedWaitElsewhere :
    let s : State := { twoUnits syncptWaiter with inputs := [.turn 1], syncpts := [(5, 4)] }
    Inv s ∧ (5 : SyncptIndex).toNat < s.params.numSyncpt ∧ syncptWaiter ∈ s.parked ∧
    syncptWaiter.fsm = .syncptWait ∧ (syncptWaiter.peek 29).extractLsb' 8 12 = (5 : SyncptIndex) ∧
    (syncptWaiter.peek 28).toNat ≤ ((s.syncpts.read 5).toNat + 1) % 2 ^ 32 ∧
    s.inputs = .turn syncptWaiter.chan :: [] :=
  ⟨{ witness_inv_syncptWaiter [] with
      counters := by change SyncptBank.wf [(5, 4)] 4096; decide },
    by decide, by decide, by decide, by decide, by decide, by decide⟩

theorem witness_IncrementsOfTwoUnitsBothCount :
    let w := (ChannelUnit.fresh 1).withPort [0x01D00000311]
    ∀ order ∈ [[Input.turn 0, .turn 1], [.turn 1, .turn 0]],
      let s : State := { withMethods base [0x01D00000301] with parked := [w], inputs := order }
      (s.mem.wf ∧ s.syncpts.wf s.params.numSyncpt ∧ (s.units.map (·.chan)).Nodup ∧
        1 ≤ s.params.numSyncpt ∧ s.params.numSyncpt ≤ 4096 ∧
        (∀ u ∈ s.units, u.fsm ≠ .semWait ∧ u.fsm ≠ .syncptWait) ∧ s.inFlight = []) ∧
      w ∈ s.parked ∧ s.methodReady s.active = true ∧ s.methodReady w = true ∧
      s.active.port = 0x01D00000301 :: [] ∧ w.port = 0x01D00000311 :: [] ∧
      ([(0x01D00000301 : Method), 0x01D00000311].Forall fun m => m.extractLsb' 32 12 = 29#12 ∧
        m.extractLsb' 0 1 = 1#1 ∧ m.extractLsb' 8 12 = (3 : SyncptIndex)) ∧
      (3 : SyncptIndex).toNat < s.params.numSyncpt ∧
      order ∈ [[Input.turn s.active.chan, .turn w.chan], [.turn w.chan, .turn s.active.chan]] ∧
      s.inputs = order := by decide

theorem witness_RoundGivesEveryUnitItsTurn :
    (twoUnits waiter).inputs = [] ∧ 0 < (twoUnits waiter).units.length ∧
    1 < (twoUnits waiter).units.length := by decide

/-- Two units, the counter of the waiting one at its threshold. -/
theorem witness_TrueConditionEndsWaitWithinOneRound :
    let s : State := { twoUnits syncptWaiter with syncpts := [(5, 5)] }
    Inv s ∧ s.inputs = [] ∧ syncptWaiter ∈ s.units ∧ syncptWaiter.blocked = true ∧
    ∀ k t, k ≤ s.units.length → Host.Core.run Sys2Proof.core k s = .next t →
      WaitSatisfied t syncptWaiter := by
  refine ⟨{ witness_inv_syncptWaiter [] with
      counters := by change SyncptBank.wf [(5, 5)] 4096; decide }, rfl, by decide, rfl,
    fun k t hk h => ⟨fun hf => absurd hf (by decide), fun _ => ?_⟩⟩
  have ht : t.syncpts = [(5, 5)] := by
    match k, hk with
    | 0, _ | 1, _ | 2, _ =>
      cases h
      rfl
  rw [ht]
  decide

/-- A method presented to a unit with a word in flight, and to one without. -/
theorem witness_PresentedMethodAcceptedWithinRounds :
    [[], [(⟨1, 0x2000, 6⟩ : WordWrite)]].Forall fun ws =>
      let u := (ChannelUnit.fresh 1).withPort [0x0025A5A5A5A]
      let s : State := { base with parked := [ChannelUnit.fresh 2, u], inFlight := ws }
      Inv s ∧ s.inputs = [] ∧ u ∈ s.units ∧ u.fsm = .idle ∧ u.port = 0x0025A5A5A5A :: [] := by
  refine ⟨⟨⟨by decide, by decide, by decide, by decide, ?_, ?_⟩, rfl, by decide, rfl, rfl⟩,
    ⟨by decide, by decide, by decide, by decide, ?_, ?_⟩, rfl, by decide, rfl, rfl⟩
  all_goals first
    | (change ∀ u ∈ [base.active, ChannelUnit.fresh 2, (ChannelUnit.fresh 1).withPort _],
        WaitLegal params u
       simp only [WaitLegal]
       decide)
    | (change ∀ w ∈ [], _
       simp)
    | (change ∀ w ∈ [(⟨1, 0x2000, 6⟩ : WordWrite)], _ ∧ ∃ u ∈ [base.active, ChannelUnit.fresh 2,
        (ChannelUnit.fresh 1).withPort [0x0025A5A5A5A]], _
       decide)

/-- The run that is in `s` first and in `t` ever after. -/
def runFrom (s t : State) : Nat → State
  | 0 => s
  | _ + 1 => t

/-- Of one unit that has every turn, such a run is weakly fair. -/
theorem runFrom_fair {s t : State} {c : Nat} (hs : s.units.map (·.chan) = [c])
    (ht : t.units.map (·.chan) = [c]) : WeaklyFair (runFrom s t) fun _ => .turn c := by
  intro c' n h
  obtain ⟨u, hu, hc, -⟩ := h n le_rfl
  refine ⟨n, le_rfl, congrArg Input.turn ?_⟩
  have hm : u.chan ∈ (runFrom s t n).units.map (·.chan) := List.mem_map_of_mem hu
  rw [← hc]
  cases n with
  | zero => simpa [runFrom, hs, eq_comm] using hm
  | succ n => simpa [runFrom, ht, eq_comm] using hm

theorem runFrom_isRun {s t : State} {a : Input} (hs : step { s with inputs := [a] } = .next t)
    (ht : step { t with inputs := [a] } = .next t) : IsRun (runFrom s t) fun _ => a
  | 0 => hs
  | _ + 1 => ht

/-- A run in which a unit waits for a counter that has reached its threshold. -/
theorem witness_WeaklyFairRunsEndWaitsAndAcceptMethods_wait :
    let s : State := { base with active := syncptWaiter, syncpts := [(5, 5)] }
    let t : State := { s with
      active := syncptWaiter.withFsm .idle, events := [⟨1, .syncptRead 5 5⟩] }
    Inv (runFrom s t 0) ∧ IsRun (runFrom s t) (fun _ => .turn 1) ∧
    WeaklyFair (runFrom s t) (fun _ => .turn 1) ∧
    ∀ k, 0 ≤ k → ∀ w ∈ (runFrom s t k).units, w.chan = 1 → WaitSatisfied (runFrom s t k) w := by
  refine ⟨⟨by decide, by decide, by decide, by decide, ?_, by change ∀ w ∈ [], _; simp⟩,
    runFrom_isRun rfl rfl, runFrom_fair rfl rfl, fun k _ w hw _ => ?_⟩
  · change ∀ u ∈ [syncptWaiter], WaitLegal params u
    simp only [WaitLegal]
    decide
  · cases k with
    | zero =>
      obtain rfl : w = syncptWaiter := List.mem_singleton.mp hw
      exact ⟨fun h => absurd h (by decide), fun _ => by decide⟩
    | succ k =>
      obtain rfl : w = syncptWaiter.withFsm .idle := List.mem_singleton.mp hw
      exact ⟨fun h => absurd h (by decide), fun h => absurd h (by decide)⟩

/-- A run in which an idle unit has a method presented. -/
theorem witness_WeaklyFairRunsEndWaitsAndAcceptMethods_method :
    let s := withMethods base [0x0025A5A5A5A]
    let t : State := { withSlots base [(2, 0x5A5A5A5A)] with
      events := [⟨0, .write 2 0x5A5A5A5A⟩] }
    Inv (runFrom s t 0) ∧ IsRun (runFrom s t) (fun _ => .turn 0) ∧
    WeaklyFair (runFrom s t) (fun _ => .turn 0) ∧
    s.active ∈ (runFrom s t 0).units ∧ s.active.fsm = .idle ∧ s.active.port = 0x0025A5A5A5A :: [] ∧
    ∀ k, 0 ≤ k → Input.turn 0 ≠ .withdraw s.active.chan := by
  refine ⟨⟨by decide, by decide, by decide, by decide, ?_, by change ∀ w ∈ [], _; simp⟩,
    runFrom_isRun rfl rfl, runFrom_fair rfl rfl, by decide, rfl, rfl, by simp⟩
  change ∀ u ∈ [(withMethods base [0x0025A5A5A5A]).active], WaitLegal params u
  simp only [WaitLegal]
  decide

end Sys2Proof.Tests
end

/-! SUPPORT. The proofs of the obligations about the scope of the system (spec/00_scope.md). -/

namespace Sys2Proof.Machine

/-- Writing a word in flight (R68(c)) changes no parameter and no unit. -/
theorem State.land_params_units (s : State) (k : Nat) :
    (s.land k).params = s.params ∧ (s.land k).units = s.units := by
  unfold State.land
  split <;> exact ⟨rfl, rfl⟩

/-- A unit's own step, taken once the unit has the turn, keeps the parameters and, in some order, the
channel numbers of the system (log 5, log 18). -/
theorem TurnTaken.params_chans_kept {s v t : State} {u : ChannelUnit} (hv : TurnTaken s u v)
    (h : unitStep v = .next t) :
    t.params = s.params ∧ (t.units.map (·.chan)).Perm (s.units.map (·.chan)) := by
  obtain ⟨t', ht, hchan, hparked, hparams, -⟩ := unitStep_kept v
  obtain rfl : t' = t := Host.Outcome.next.inj (ht.symm.trans h)
  have hunits : t'.units.map (·.chan) = (u :: v.parked).map (·.chan) := by
    simp [State.units, hchan, hparked, hv.active]
  exact ⟨hparams.trans hv.params, hunits ▸ hv.units.map _⟩

/-- An action of the owner on the units of one channel renumbers no unit. -/
theorem OwnerAction.map_chan_changedIf {b : Bool} {f : ChannelUnit → ChannelUnit}
    (hf : OwnerAction b f) (c : Nat) (us : List ChannelUnit) :
    (us.map fun u => u.changedIf c f).map (·.chan) = us.map (·.chan) := by
  rw [List.map_map]
  exact List.map_congr_left fun u _ => u.changedIf_chan c f hf.chan

/-- Settles O47: a turn keeps every channel number but may reorder the units, the owner changes units
in place, and every other step changes no unit. -/
theorem parametersAndChannelsNeverChange : Obligations.ParametersAndChannelsNeverChange := by
  intro s t h
  rcases step_cases h with ⟨u, v, -, hv, ht⟩ |
    ⟨b, c, f, later, hf, -, -, hunits, -, -, -, -, hparams, -⟩ |
    ⟨k, later, -, -, rfl⟩ | ⟨a, v, later, -, rfl⟩ | ⟨n, e, v, later, -, rfl⟩ | ⟨i, later, -, -, rfl⟩
  case inl => exact hv.params_chans_kept ht
  case inr.inl =>
    refine ⟨hparams, ?_⟩
    rw [hunits, hf.map_chan_changedIf]
  case inr.inr.inl =>
    obtain ⟨hparams, hunits⟩ := State.land_params_units { s with inputs := later } k
    exact ⟨hparams, .of_eq (congrArg _ hunits)⟩
  all_goals exact ⟨rfl, .refl _⟩

end Sys2Proof.Machine

/-! SUPPORT. The proofs of the obligations about the state (spec/10_state.md). -/

namespace Sys2Proof

/-! ### The decoder drops no bit -/

/-- The term `i` is a method of the map, and its transaction is `index ‖ arg` (R90, R94). -/
structure Instr.Denotes (i : Instr) (index : MethodIndex) (arg : Word) : Prop where
  wellFormed : i.wellFormed = true
  index_eq : i.index = index
  argument_eq : i.argument = arg

/-- Stage 3 at slot 7 drops no bit of the control word (R91, R95). -/
theorem decodeSemaphoreD_denotes (arg : Word) :
    (decodeSemaphoreD arg).Denotes (slotMethodIndex Slot.semaphoreD) arg := by
  obtain ⟨op, red, c, rfl⟩ : ∃ op red c, arg = semaphoreDWord op red c :=
    ⟨_, _, _, (semaphoreDWord_extract arg).symm⟩
  cases hr : ReductionOp.ofBits red with
  | none =>
    have hres : controlReserved op red = true := by
      simp [controlReserved, (ReductionOp.ofBits_eq_none red).mp hr]
    rw [decodeSemaphoreD_reserved c hres]
    exact ⟨hres, rfl, rfl⟩
  | some r =>
    obtain rfl := ReductionOp.ofBits_eq_some hr
    rw [decodeSemaphoreD_word]
    split_ifs with h1 h2 h4 h8 h16
    · exact ⟨rfl, rfl, by rw [h1]; rfl⟩
    · exact ⟨rfl, rfl, by rw [h2]; rfl⟩
    · exact ⟨rfl, rfl, by rw [h4]; rfl⟩
    · exact ⟨rfl, rfl, by rw [h8]; rfl⟩
    · rw [h16]
      cases r <;> exact ⟨rfl, rfl, rfl⟩
    · refine ⟨?_, rfl, rfl⟩
      have hop : operationDefined op = false := by
        simp only [operationDefined, Bool.or_eq_false_iff, beq_eq_false_iff_ne]
        exact ⟨⟨⟨⟨h1, h2⟩, h4⟩, h8⟩, h16⟩
      simp [Instr.wellFormed, controlReserved, hop]

/-- Stage 3 at slot 29 drops no bit of the control word (R91). -/
theorem decodeSyncpointB_denotes (arg : Word) :
    (decodeSyncpointB arg).Denotes (slotMethodIndex Slot.syncpointB) arg := by
  obtain ⟨op, sw, c, rfl⟩ : ∃ op sw c, arg = syncpointBWord op sw c :=
    ⟨_, _, _, (syncpointBWord_extract arg).symm⟩
  rw [decodeSyncpointB_word]
  split_ifs with h
  · exact ⟨rfl, rfl, by rw [h]; rfl⟩
  · have hop : op = opWait := by
      revert op
      decide
    cases sw <;> exact ⟨rfl, rfl, by rw [hop]; rfl⟩

/-- Stage 2 drops no bit of the argument (R91). -/
theorem decodeSlot_denotes (k : SlotIndex) (arg : Word) :
    (decodeSlot k arg).Denotes (slotMethodIndex k) arg := by
  rcases slot_cases k with hk | hk
  · simp only [namedSlots, List.mem_cons, List.not_mem_nil, or_false] at hk
    rcases hk with rfl | rfl | rfl | rfl | rfl | rfl | rfl | rfl | rfl | rfl | rfl | rfl | rfl |
      rfl | rfl | rfl | rfl
    · exact ⟨rfl, rfl, setObjectWord_extract arg⟩
    · exact ⟨rfl, rfl, rfl⟩
    · exact ⟨rfl, rfl, rfl⟩
    · exact ⟨rfl, rfl, semaphoreAWord_extract arg⟩
    · exact ⟨rfl, rfl, semaphoreBWord_extract arg⟩
    · exact ⟨rfl, rfl, rfl⟩
    · exact decodeSemaphoreD_denotes arg
    · exact ⟨rfl, rfl, rfl⟩
    · exact ⟨rfl, rfl, rfl⟩
    · exact ⟨rfl, rfl, memOpCWord_extract arg⟩
    · exact ⟨rfl, rfl, rfl⟩
    · exact ⟨rfl, rfl, rfl⟩
    · exact ⟨rfl, rfl, rfl⟩
    · exact decodeSyncpointB_denotes arg
    · exact ⟨rfl, rfl, wfiWord_extract arg⟩
    · exact ⟨rfl, rfl, rfl⟩
    · exact ⟨rfl, rfl, yieldWord_extract arg⟩
  · rw [decodeSlot_unimplemented arg hk]
    exact ⟨hk, rfl, rfl⟩

/-- The decoder reads a method of the map from every transaction and drops no bit of it (R91). -/
theorem decode_denotes (m : Method) : (decode m).Denotes (Method.index m) (Method.argument m) := by
  by_cases h : 64 ≤ (Method.index m).toNat
  · rw [decode_of_outOfRange h]
    exact ⟨decide_eq_true h, rfl, rfl⟩
  · have hk := slotMethodIndex_of_lt (Nat.not_le.mp h)
    rw [decode_of_slot hk.symm]
    have hd := decodeSlot_denotes ((Method.index m).setWidth 6) (Method.argument m)
    rwa [hk] at hd

/-! ### Fields of the control words -/

theorem Switch.toBits_eq (x : Switch) : x.toBits = if x = .enabled then 1 else 0 := by
  cases x <;> rfl
theorem ReleaseWfi.toBits_eq (x : ReleaseWfi) : x.toBits = if x = .disabled then 1 else 0 := by
  cases x <;> rfl
theorem ReleaseSize.toBits_eq (x : ReleaseSize) : x.toBits = if x = .fourBytes then 1 else 0 := by
  cases x <;> rfl
theorem Format.toBits_eq (x : Format) : x.toBits = if x = .unsigned then 1 else 0 := by
  cases x <;> rfl

@[simp] theorem semaphoreDWord_releaseWfi (op : BitVec 5) (red : BitVec 4) (c : SemControl) :
    (semaphoreDWord op red c).extractLsb' 20 1 = c.releaseWfi.toBits := by
  simp [semaphoreDWord, extract_or, extract_place_same, extract_place_other]

@[simp] theorem semaphoreDWord_format (op : BitVec 5) (red : BitVec 4) (c : SemControl) :
    (semaphoreDWord op red c).extractLsb' 31 1 = c.format.toBits := by
  simp [semaphoreDWord, extract_or, extract_place_same, extract_place_other]

/-- The pads of a SEMAPHORE_D argument (R28). -/
theorem semaphoreDWord_pads (op : BitVec 5) (red : BitVec 4) (c : SemControl) :
    (semaphoreDWord op red c).extractLsb' 5 7 = c.padLow ∧
      (semaphoreDWord op red c).extractLsb' 13 7 = c.padMid ∧
      (semaphoreDWord op red c).extractLsb' 21 3 = c.padHigh ∧
      (semaphoreDWord op red c).extractLsb' 25 2 = c.padTop := by
  simp [semaphoreDWord, extract_or, extract_place_same, extract_place_other]

/-- The pads of a SYNCPOINT_B argument (R33). -/
theorem syncpointBWord_pads (op : BitVec 1) (sw : Switch) (c : SyncptControl) :
    (syncpointBWord op sw c).extractLsb' 1 3 = c.padLow ∧
      (syncpointBWord op sw c).extractLsb' 5 3 = c.padMid ∧
      (syncpointBWord op sw c).extractLsb' 20 12 = c.padHigh := by
  simp [syncpointBWord, extract_or, extract_place_same, extract_place_other]

/-- Settles O5, field by field; the numbers of the members are those of the methods' arguments. -/
theorem semaphoreControlFieldPositions : Obligations.SemaphoreControlFieldPositions := by
  refine ⟨fun op red c => ?_, fun red c => ?_, fun c => ⟨rfl, rfl, rfl, rfl, rfl, rfl, rfl, rfl⟩⟩
  · exact ⟨semaphoreDWord_operation op red c, semaphoreDWord_reduction op red c,
      (semaphoreDWord_acquireSwitch op red c).trans (Switch.toBits_eq _),
      (semaphoreDWord_releaseWfi op red c).trans (ReleaseWfi.toBits_eq _),
      (semaphoreDWord_releaseSize op red c).trans (ReleaseSize.toBits_eq _),
      (semaphoreDWord_format op red c).trans (Format.toBits_eq _), semaphoreDWord_pads op red c⟩
  · cases red <;> exact ⟨rfl, rfl, rfl, rfl⟩

/-- Settles O6, field by field; the numbers of the members are those of the methods' arguments. -/
theorem syncpointControlFieldPositions : Obligations.SyncpointControlFieldPositions := by
  refine ⟨fun op sw c => ?_, fun sw c => ⟨rfl, rfl, rfl⟩⟩
  exact ⟨syncpointBWord_operation op sw c,
    (syncpointBWord_waitSwitch op sw c).trans (Switch.toBits_eq sw), syncpointBWord_index op sw c,
    syncpointBWord_pads op sw c⟩

namespace Machine

/-! ### Words of an acquire and of a wait -/

/-- A defined reduction leaves bit 30 of the control word 0 (R28). -/
theorem semaphoreDWord_bit30_defined (op : BitVec 5) (red : ReductionOp) (c : SemControl) :
    (semaphoreDWord op red.toBits c).extractLsb' 30 1 = 0 := by
  rw [semaphoreDWord_bit30]
  cases red <;> rfl

/-! ### Waits -/

/-- The legality of a wait reads the words and the control state of the unit alone. -/
theorem WaitLegal.congr {p : Params} {u w : ChannelUnit} (h : WaitLegal p u) (hraw : w.raw = u.raw)
    (hfsm : w.fsm = u.fsm) : WaitLegal p w := by
  simpa only [WaitLegal, ChannelUnit.semOperation, ChannelUnit.waitIndex,
    ChannelUnit.peek_congr hraw, hfsm] using h

/-- In IDLE and FATAL no wait pends. -/
theorem WaitLegal.of_not_blocked {p : Params} {u : ChannelUnit} (h : u.blocked = false) :
    WaitLegal p u := by
  obtain ⟨hsem, hsyncpt⟩ : u.fsm ≠ .semWait ∧ u.fsm ≠ .syncptWait := by
    simpa [ChannelUnit.blocked] using h
  exact ⟨fun e => absurd e hsem, fun e => absurd e hsyncpt⟩

theorem WaitLegal.of_idle {p : Params} {u : ChannelUnit} (h : u.fsm = .idle) : WaitLegal p u :=
  .of_not_blocked (by simp [ChannelUnit.blocked, h])

/-- The wait an acquire begins: its control word is the one stored (R160 to R162). -/
theorem WaitLegal.of_acquire {p : Params} {u : ChannelUnit} {op : BitVec 5} {red : ReductionOp}
    {c : SemControl} (hfsm : u.fsm = .semWait)
    (hword : u.peek Slot.semaphoreD = semaphoreDWord op red.toBits c)
    (hop : op = 1 ∨ op = 4 ∨ op = 8) : WaitLegal p u := by
  have hbit : (u.peek 7).extractLsb' 30 1 = 0 :=
    (congrArg _ hword).trans (semaphoreDWord_bit30_defined op red c)
  refine ⟨fun _ => ⟨?_, hbit⟩, fun e => absurd (hfsm.symm.trans e) (by decide)⟩
  rwa [ChannelUnit.semOperation, hword, semaphoreDWord_operation]

/-- The wait a SYNCPOINT_B method begins: on a counter that exists, and with the switch enabled
unless the parameter lets the other kind wait (R212, R214, R215). -/
theorem WaitLegal.of_syncptWait {p : Params} {u : ChannelUnit} {sw : Switch} {c : SyncptControl}
    (hfsm : u.fsm = .syncptWait) (hword : u.peek Slot.syncpointB = syncpointBWord opWait sw c)
    (hindex : c.index.toNat < p.numSyncpt) (hsw : sw = .enabled ∨ p.waitDisBlocks = true) :
    WaitLegal p u := by
  have hop : (u.peek 29).extractLsb' 0 1 = 0 :=
    (congrArg _ hword).trans (syncpointBWord_operation opWait sw c)
  have hbit : (u.peek 29).extractLsb' 4 1 = sw.toBits :=
    (congrArg _ hword).trans (syncpointBWord_waitSwitch opWait sw c)
  refine ⟨fun e => absurd (hfsm.symm.trans e) (by decide), fun _ => ⟨hop, ?_, ?_⟩⟩
  · rwa [ChannelUnit.waitIndex, hword, syncpointBWord_index]
  · rw [hbit]
    exact hsw.imp_left fun e => by rw [e]; rfl

/-- What an IDLE unit is after a method: if a wait pends in it, the method began that wait. -/
theorem unitAfter_waitLegal (i : Instr) (p : Params) {u : ChannelUnit} (h : u.fsm = .idle) :
    WaitLegal p (unitAfter i p u) := by
  cases i
  case semAcquire red c => exact .of_acquire rfl (u.store_peek_same _ _) (.inl rfl)
  case semAcqGeq red c => exact .of_acquire rfl (u.store_peek_same _ _) (.inr (.inl rfl))
  case semAcqAnd red c => exact .of_acquire rfl (u.store_peek_same _ _) (.inr (.inr rfl))
  case syncptWait c =>
    rw [unitAfter_of_slot Slot.syncpointB p u rfl, fsmAfter]
    split_ifs with hi
    · exact .of_syncptWait rfl (u.store_peek_same _ _) hi (.inl rfl)
    · exact .of_idle h
  case syncptWaitNoswitch c =>
    rw [unitAfter_of_slot Slot.syncpointB p u rfl, fsmAfter]
    split_ifs with hi
    · exact .of_syncptWait rfl (u.store_peek_same _ _) hi.1 (.inr hi.2)
    · exact .of_idle h
  case oor =>
    refine .of_not_blocked ?_
    unfold unitAfter
    split_ifs <;> rfl
  all_goals
    refine .of_idle ?_
    unfold unitAfter
    split_ifs <;> exact h

/-- A method that writes memory leaves its unit IDLE. -/
theorem unitAfter_fsm_of_writesMemory {i : Instr} (hi : writesMemory i = true) (p : Params)
    (u : ChannelUnit) : (unitAfter i p u).fsm = u.fsm := by
  obtain ⟨hk, -⟩ := writesMemory_argument hi
  rw [unitAfter_of_slot Slot.semaphoreD p u hk, ChannelUnit.withFsm_fsm]
  cases i with
  | semRelease | semRedMin | semRedMax | semRedXor | semRedAnd | semRedOr | semRedAdd | semRedInc
    | semRedDec => rfl
  | _ => cases hi

/-! ### The invariant -/

/-- A change that touches no unit and issues no word keeps the invariant where it keeps the canonical
forms of memory and bank. The units may stand in another order. -/
theorem Inv.of_units_perm {s t : State} (h : Inv s) (hunits : t.units.Perm s.units)
    (hparams : t.params = s.params) (hmem : t.mem.wf) (hbank : t.syncpts.wf s.params.numSyncpt)
    (hflight : ∀ w ∈ t.inFlight, w ∈ s.inFlight) : Inv t where
  memory := hmem
  counters := hparams ▸ hbank
  numSyncpt := hparams ▸ h.numSyncpt
  channels := (hunits.map _).nodup_iff.mpr h.channels
  waits u hu := hparams ▸ h.waits u (hunits.mem_iff.mp hu)
  inFlight w hw := by
    obtain ⟨haligned, u, hu, hissuer⟩ := h.inFlight w (hflight w hw)
    exact ⟨haligned, u, hunits.mem_iff.mpr hu, hissuer⟩

/-- Taking the turn keeps the invariant. -/
theorem TurnTaken.inv {s v : State} {u : ChannelUnit} (hv : TurnTaken s u v) (h : Inv s) : Inv v :=
  h.of_units_perm (by rw [State.units, hv.active]; exact hv.units) hv.params (hv.mem ▸ h.memory)
    (hv.syncpts ▸ h.counters) fun _ hw => hv.inFlight ▸ hw

/-- The writing of a word in flight keeps the invariant. -/
theorem Inv.land {s : State} (h : Inv s) (k : Nat) : Inv (s.land k) := by
  unfold State.land
  cases s.inFlight[k]? with
  | none => exact h
  | some w =>
    exact h.of_units_perm (.refl _) rfl (Memory.writeWord_wf _ _ h.memory) h.counters
      fun _ hw => List.mem_of_mem_eraseIdx hw

/-- An action of the unit whose turn it is keeps the invariant, where the wait that pends after it
is legal, and the unit is still IDLE if words that it issued are in flight. -/
theorem Inv.of_actionKept {s t : State} (h : Inv s) (hkept : ActionKept s t)
    (hwait : WaitLegal s.params t.active)
    (hidle : t.awaitsMemory s.active.chan = true → t.active.fsm = .idle) : Inv t := by
  obtain ⟨hchan, -, hparked, hparams, -⟩ := hkept.surroundings
  have hchans : t.units.map (·.chan) = s.units.map (·.chan) := by
    simp [State.units, hchan, hparked]
  have haligned : ∀ w ∈ t.inFlight, w.addr.extractLsb' 0 2 = 0 := by
    obtain ⟨ws, happend, hissued⟩ := hkept.inFlight
    intro w hw
    rcases List.mem_append.mp (happend ▸ hw) with hold | hnew
    · exact (h.inFlight w hold).1
    · exact (hissued w hnew).2
  refine ⟨hkept.memory h.memory, hparams ▸ hkept.counters h.counters, hparams ▸ h.numSyncpt,
    hchans ▸ h.channels, fun u hu => ?_, fun w hw => ⟨haligned w hw, ?_⟩⟩
  · rw [hparams]
    rcases List.mem_cons.mp hu with rfl | hu
    · exact hwait
    · exact h.waits u (List.mem_cons_of_mem _ (hparked ▸ hu))
  · by_cases hc : w.chan = s.active.chan
    · refine ⟨t.active, List.mem_cons_self, hchan.trans hc.symm, hidle ?_⟩
      exact List.any_eq_true.mpr ⟨w, hw, beq_iff_eq.mpr hc⟩
    · obtain ⟨ws, happend, hissued⟩ := hkept.inFlight
      have hold : w ∈ s.inFlight :=
        (List.mem_append.mp (happend ▸ hw)).resolve_right fun hnew => hc (hissued w hnew).1
      obtain ⟨-, u, hu, huc, hfsm⟩ := h.inFlight w hold
      have hpark : u ∈ s.parked :=
        (List.mem_cons.mp hu).resolve_left fun e => hc (e ▸ huc).symm
      exact ⟨u, List.mem_cons_of_mem _ (hparked ▸ hpark), huc, hfsm⟩

/-- A step of a unit that issues no word, while none of its words is in flight, keeps the invariant
where the wait that pends after it is legal. -/
theorem Inv.of_actionKept_quiet {s t : State} (h : Inv s) (hkept : ActionKept s t)
    (hquiet : s.awaitsMemory s.active.chan = false) (hflight : t.inFlight = s.inFlight)
    (hwait : WaitLegal s.params t.active) : Inv t :=
  h.of_actionKept hkept hwait fun hawaits => by
    rw [State.awaitsMemory, hflight] at hawaits
    exact absurd (hawaits.symm.trans hquiet) (by decide)

/-- `w` is what `u` becomes by a change that begins no wait and does not end IDLE, such as the
acceptance of a method or an action of the owner. -/
structure UnitKept (p : Params) (u w : ChannelUnit) : Prop where
  chan : w.chan = u.chan
  wait : WaitLegal p u → WaitLegal p w
  idle : u.fsm = .idle → w.fsm = .idle

theorem UnitKept.refl (p : Params) (u : ChannelUnit) : UnitKept p u u := ⟨rfl, id, id⟩

theorem UnitKept.withPort (p : Params) (u : ChannelUnit) (ms : List Method) :
    UnitKept p u (u.withPort ms) := ⟨rfl, fun h => h.congr rfl rfl, id⟩

theorem forall₂_exists_right {α β : Type} {R : α → β → Prop} {l : List α} {l' : List β}
    (h : List.Forall₂ R l l') : ∀ a ∈ l, ∃ b ∈ l', R a b := by
  induction h with
  | nil => simp
  | cons hr _ ih =>
    rintro a (_ | ⟨_, ha⟩)
    · exact ⟨_, List.mem_cons_self, hr⟩
    · obtain ⟨b, hb, hab⟩ := ih a ha
      exact ⟨b, List.mem_cons_of_mem _ hb, hab⟩

theorem forall₂_exists_left {α β : Type} {R : α → β → Prop} {l : List α} {l' : List β}
    (h : List.Forall₂ R l l') : ∀ b ∈ l', ∃ a ∈ l, R a b :=
  forall₂_exists_right (R := flip R) (List.Forall₂.flip h)

/-- A change of units in place keeps the invariant where it begins no wait and takes no unit out of
IDLE, and nothing that the units share changes. -/
theorem Inv.of_unitsKept {s t : State} (h : Inv s)
    (hunits : List.Forall₂ (UnitKept s.params) s.units t.units) (hparams : t.params = s.params)
    (hmem : t.mem = s.mem) (hbank : t.syncpts = s.syncpts) (hflight : t.inFlight = s.inFlight) :
    Inv t where
  memory := hmem ▸ h.memory
  counters := hbank ▸ hparams ▸ h.counters
  numSyncpt := hparams ▸ h.numSyncpt
  channels := by
    have hsame : t.units.map (·.chan) = s.units.map (·.chan) :=
      List.forall₂_eq_eq_eq ▸ List.forall₂_map_left_iff.mpr
        (List.forall₂_map_right_iff.mpr (hunits.flip.imp fun _ _ hk => hk.chan))
    exact hsame ▸ h.channels
  waits w hw := by
    obtain ⟨u, hu, hk⟩ := forall₂_exists_left hunits w hw
    exact hparams ▸ hk.wait (h.waits u hu)
  inFlight x hx := by
    obtain ⟨haligned, u, hu, hchan, hidle⟩ := h.inFlight x (hflight ▸ hx)
    obtain ⟨w, hw, hk⟩ := forall₂_exists_right hunits u hu
    exact ⟨haligned, w, hw, hk.chan.trans hchan, hk.idle hidle⟩

/-- The acceptance of a method keeps the invariant; the method's own effect comes after it. -/
theorem Inv.accept {s : State} (h : Inv s) (m : Method) (rest : List Method) :
    Inv (s.accept m rest) :=
  h.of_unitsKept (.cons (.withPort _ _ _) (List.forall₂_same.mpr fun u _ => .refl _ u)) rfl rfl rfl rfl

/-- An action of the owner on the units of one channel keeps each of them as the invariant asks. -/
theorem OwnerAction.unitKept {b : Bool} {f : ChannelUnit → ChannelUnit} (hf : OwnerAction b f)
    (p : Params) (c : Nat) (u : ChannelUnit) : UnitKept p u (u.changedIf c f) := by
  unfold ChannelUnit.changedIf
  split
  · refine ⟨hf.chan u, fun hwait => ?_, fun hidle => ?_⟩
    · rcases hf.fsm u with hfsm | hidle
      · cases b with
        | false => exact hwait.congr (hf.raw rfl u) hfsm
        | true => exact .of_idle (hf.reset rfl u).1
      · exact .of_idle hidle
    · exact (hf.fsm u).elim (·.trans hidle) id
  · exact .refl p u

/-- A method run by a ready unit keeps the invariant: only an acquire or a syncpoint wait makes a
wait pend, and a method that issues words leaves the unit IDLE. -/
theorem Inv.exec {i : Instr} {s t : State} (h : Inv s) (hi : i.wellFormed = true)
    (hidle : s.active.fsm = .idle) (hquiet : s.awaitsMemory s.active.chan = false)
    (hexec : exec i s = .next t) : Inv t := by
  have hactive := exec_active hi hexec
  have hwait : WaitLegal s.params t.active := hactive ▸ unitAfter_waitLegal i s.params hidle
  cases hw : writesMemory i with
  | true =>
    refine h.of_actionKept (exec_kept hexec) hwait fun _ => ?_
    rw [hactive, unitAfter_fsm_of_writesMemory hw, hidle]
  | false => exact h.of_actionKept_quiet (exec_kept hexec) hquiet (exec_mem hexec hw).2 hwait

/-- A poll keeps the invariant: it ends the wait or leaves it pending. -/
theorem Inv.poll {s : State} (h : Inv s) (hquiet : s.awaitsMemory s.active.chan = false) :
    Inv s.poll := by
  have hwait := h.waits s.active List.mem_cons_self
  rcases s.poll_cases with ⟨-, e⟩ | ⟨-, e⟩
  · exact h.of_actionKept_quiet (poll_kept s).1 hquiet (by rw [e]; rfl) (.of_idle (by rw [e]; rfl))
  · exact h.of_actionKept_quiet (poll_kept s).1 hquiet (by rw [e]; rfl) (by rw [e]; exact hwait)

/-- A test keeps the invariant: it ends the wait or leaves it pending. -/
theorem Inv.test {s : State} (h : Inv s) (hquiet : s.awaitsMemory s.active.chan = false) :
    Inv s.test := by
  have hwait := h.waits s.active List.mem_cons_self
  rcases s.test_cases with ⟨-, e⟩ | ⟨-, e⟩
  · exact h.of_actionKept_quiet (test_kept s).1 hquiet (by rw [e]; rfl) (.of_idle (by rw [e]; rfl))
  · exact h.of_actionKept_quiet (test_kept s).1 hquiet (by rw [e]; rfl) (by rw [e]; exact hwait)

/-- A unit's own step keeps the invariant (R8(a)). -/
theorem Inv.unitStep {s t : State} (h : Inv s) (hstep : unitStep s = .next t) : Inv t := by
  rcases unitStep_cases s with ⟨before, w, after, hsplit, -, -, e⟩ |
    ⟨hquiet, ⟨-, -, e⟩ | ⟨hidle, m, rest, -, e⟩ | ⟨-, e⟩ | ⟨-, e⟩ | ⟨-, e⟩⟩ <;> rw [e] at hstep
  · cases hstep
    exact State.land_append hsplit ▸ h.land before.length
  · cases hstep
    exact h
  · exact (h.accept m rest).exec (decode_denotes m).wellFormed hidle hquiet hstep
  · cases hstep
    exact h.poll hquiet
  · cases hstep
    exact h.test hquiet
  · cases hstep
    exact h

/-- Settles O49: each agent's step keeps the invariant (R8). -/
theorem stepKeepsInvariant : Obligations.StepKeepsInvariant := by
  intro s t h hstep
  rcases step_cases hstep with ⟨u, v, -, hv, ht⟩ |
    ⟨b, c, f, later, hf, -, -, hunits, hmem, hflight, hbank, -, hparams, -⟩ |
    ⟨k, later, -, -, rfl⟩ | ⟨a, v, later, -, rfl⟩ | ⟨n, e, v, later, -, rfl⟩ | ⟨i, later, -, hi, rfl⟩
  case inl => exact (hv.inv h).unitStep ht
  case inr.inl =>
    refine h.of_unitsKept ?_ hparams hmem hbank hflight
    rw [hunits, List.forall₂_map_right_iff]
    exact List.forall₂_same.mpr fun u _ => hf.unitKept s.params c u
  case inr.inr.inl =>
    exact (h.of_units_perm (t := { s with inputs := later }) (.refl _) rfl h.memory h.counters
      fun _ => id).land k
  case inr.inr.inr.inl =>
    exact h.of_units_perm (.refl _) rfl (Memory.writeByte_wf a v h.memory) h.counters fun _ => id
  case inr.inr.inr.inr.inl =>
    exact h.of_units_perm (.refl _) rfl (Memory.writeEnabled_wf n e v h.memory) h.counters
      fun _ => id
  case inr.inr.inr.inr.inr =>
    exact h.of_units_perm (.refl _) rfl h.memory (SyncptBank.incr_wf h.counters hi) fun _ => id

/-! ### Steps of one unit -/

/-- A unit that does not have the turn waits for it unchanged. -/
theorem TurnTaken.mem_parked {s v : State} {u w : ChannelUnit} (hv : TurnTaken s u v)
    (hw : w ∈ s.units) (hne : w ≠ u) : w ∈ v.parked :=
  (List.mem_cons.mp (hv.units.mem_iff.mpr hw)).resolve_left hne

/-- A unit's own step leaves every other unit exactly as it was (R48). -/
theorem TurnTaken.mem_units_of_ne {s v t : State} {u w : ChannelUnit} (hv : TurnTaken s u v)
    (ht : unitStep v = .next t) (hw : w ∈ s.units) (hne : w ≠ u) : w ∈ t.units := by
  obtain ⟨t', ht', -, hparked, -⟩ := unitStep_kept v
  obtain rfl : t' = t := Host.Outcome.next.inj (ht'.symm.trans ht)
  exact List.mem_cons_of_mem _ (hparked ▸ hv.mem_parked hw hne)

/-- The turn of a FATAL unit does not change it: at most a word it issued earlier is written (R251). -/
theorem unitStep_active_of_fatal {s t : State} (hf : s.active.fsm = .fatal)
    (ht : unitStep s = .next t) : t.active = s.active := by
  rcases unitStep_cases s with ⟨_, _, _, -, -, -, e⟩ |
    ⟨-, ⟨hn, -, -⟩ | ⟨hn, -⟩ | ⟨hn, -⟩ | ⟨hn, -⟩ | ⟨-, e⟩⟩
  case inr.inr.inr.inr.inr | inl =>
    cases e.symm.trans ht
    rfl
  all_goals exact absurd (hf.symm.trans hn) (by decide)

/-- Settles O52: the other units are parked while `u` has the turn. -/
theorem turnChangesOneUnitOnly : Obligations.TurnChangesOneUnitOnly := by
  intro s t u w hmoves hstep hw hchan
  obtain ⟨v, hv, e⟩ := step_of_moves hmoves
  exact hv.mem_units_of_ne (e ▸ hstep) hw fun h => hchan (congrArg _ h)

/-- Settles O11: its own turn does not change a FATAL unit, and of the owner's actions only Reset takes
a unit out of FATAL. -/
theorem fatalUnitLeftOnlyByReset : Obligations.FatalUnitLeftOnlyByReset := by
  intro s t u hu hfatal hstep
  have same (hmem : u ∈ t.units) : ∃ w ∈ t.units, w.chan = u.chan ∧ w.raw = u.raw ∧ w.fsm = .fatal :=
    ⟨u, hmem, rfl, rfl, hfatal⟩
  rcases step_cases hstep with ⟨u', v, -, hv, ht⟩ |
    ⟨b, c, f, later, hf, hreset, -, hunits, -⟩ |
    ⟨k, later, -, -, rfl⟩ | ⟨a, v, later, -, rfl⟩ | ⟨n, e, v, later, -, rfl⟩ | ⟨i, later, -, -, rfl⟩
  case inl =>
    refine .inr (same ?_)
    by_cases hmover : u = u'
    · subst hmover
      have hactive := unitStep_active_of_fatal (hv.active ▸ hfatal) ht
      rw [State.units, hactive, hv.active]
      exact List.mem_cons_self
    · exact hv.mem_units_of_ne ht hu hmover
  case inr.inl =>
    have hmem : u.changedIf c f ∈ t.units := hunits ▸ List.mem_map_of_mem hu
    by_cases hc : u.chan = c
    · rw [ChannelUnit.changedIf, if_pos hc] at hmem
      cases b with
      | true => exact .inl ⟨later, hc ▸ hreset rfl⟩
      | false => exact .inr ⟨f u, hmem, hf.chan u, hf.raw rfl u, hf.fatal rfl u hfatal⟩
    · rw [ChannelUnit.changedIf, if_neg hc] at hmem
      exact .inr (same hmem)
  case inr.inr.inl =>
    obtain ⟨-, hunits⟩ := State.land_params_units { s with inputs := later } k
    exact .inr (same (hunits ▸ hu))
  all_goals exact .inr (same hu)

/-! ### The owner's steps -/

/-- The owner's action `f` changes the units of its channel by `f` and no other unit. -/
theorem State.onChannel_onChannelOnly (s : State) (c : Nat) {f : ChannelUnit → ChannelUnit}
    {R : ChannelUnit → ChannelUnit → Prop} (hR : ∀ u, R u (f u)) :
    OnChannelOnly c R s (s.onChannel c f) := by
  rw [OnChannelOnly, State.onChannel_units, List.forall₂_map_right_iff, List.forall₂_same]
  intro u _
  unfold ChannelUnit.changedIf
  exact ⟨fun h => by rw [if_pos h]; exact hR u, fun h => if_neg h⟩

/-- A step performs the first input (log 7). -/
theorem step_of_input {s : State} {a : Input} {later : List Input} (h : s.inputs = a :: later) :
    step s = performInput a { s with inputs := later } := by
  rw [step, systemStep, h]

/-- Settles O42: both inputs change the port of the units of their channel. -/
theorem portInputsChangeOnePort : Obligations.PortInputsChangeOnePort := by
  intro s c later hc
  constructor
  · intro m hi
    refine ⟨_, (step_of_input hi).trans (ownerStep_of_mem _ _ hc), ?_, ⟨fun _ => rfl, rfl⟩,
      fun _ => rfl, rfl, rfl, rfl, rfl⟩
    exact State.onChannel_onChannelOnly { s with inputs := later } c fun _ => rfl
  · intro hi
    refine ⟨_, (step_of_input hi).trans (ownerStep_of_mem _ _ hc), ?_, ⟨fun _ => rfl, rfl⟩,
      fun _ => rfl, rfl, rfl, rfl, rfl⟩
    exact State.onChannel_onChannelOnly { s with inputs := later } c fun u => by
      rw [ChannelUnit.withdraw, List.drop_one]
      rfl

/-! ### The event history -/

/-- Writing a word in flight touches neither the counters nor the history (R68(c)). -/
theorem State.land_syncpts_events (s : State) (k : Nat) :
    (s.land k).syncpts = s.syncpts ∧ (s.land k).events = s.events := by
  unfold State.land
  split <;> exact ⟨rfl, rfl⟩

/-- Settles O46: a unit and the owner append; no other step touches the history. -/
theorem eventHistoryOnlyGrows : Obligations.EventHistoryOnlyGrows := by
  intro s t hstep
  rcases step_cases hstep with ⟨u, v, -, hv, ht⟩ |
    ⟨b, c, f, later, -, -, -, -, -, -, -, hevents, -⟩ |
    ⟨k, later, -, -, rfl⟩ | ⟨a, v, later, -, rfl⟩ | ⟨n, e, v, later, -, rfl⟩ | ⟨i, later, -, -, rfl⟩
  case inl =>
    obtain ⟨t', ht', -, -, -, -, hevents, -⟩ := unitStep_kept v
    obtain rfl : t' = t := Host.Outcome.next.inj (ht'.symm.trans ht)
    exact hv.events ▸ hevents
  case inr.inl => exact hevents
  case inr.inr.inl => 
    obtain ⟨-, hevents⟩ := State.land_syncpts_events { s with inputs := later } k
    rw [hevents]
  all_goals exact List.prefix_rfl

/-! ### Increments of a counter -/

/-- A field of the argument, taken out of the whole transaction (R90). -/
theorem extract_method_argument (m : Method) {lo n : Nat} (h : lo + n ≤ 32) :
    (Method.argument m).extractLsb' lo n = m.extractLsb' lo n := by
  apply BitVec.eq_of_getLsbD_eq
  intro i hi
  simp [Method.argument, hi, show lo + i < 32 by omega]

/-- The transactions of the increments of counter `i`: slot 29, operation Incr, index `i` (R33, R94). -/
theorem decode_eq_syncptIncr_iff (m : Method) (i : SyncptIndex) :
    (∃ sw c, decode m = .syncptIncr sw c ∧ c.index = i) ↔
      m.extractLsb' 32 12 = 29#12 ∧ m.extractLsb' 0 1 = 1#1 ∧ m.extractLsb' 8 12 = i := by
  rw [← extract_method_argument m (lo := 0) (n := 1) (by decide),
    ← extract_method_argument m (lo := 8) (n := 12) (by decide)]
  constructor
  · rintro ⟨sw, c, hm, rfl⟩
    obtain ⟨-, hindex, hargument⟩ := decode_denotes m
    rw [hm] at hindex hargument
    rw [← hargument]
    exact ⟨hindex.symm, syncpointBWord_operation _ _ _, syncpointBWord_index _ _ _⟩
  · rintro ⟨hindex, hop, rfl⟩
    refine ⟨Switch.ofBits ((Method.argument m).extractLsb' 4 1),
      SyncptControl.ofWord (Method.argument m), ?_, rfl⟩
    rw [decode_of_slot (i := Slot.syncpointB) hindex]
    exact if_pos hop

/-- The execution of an increment of a counter that exists (R213). -/
theorem exec_syncptIncr (sw : Switch) (c : SyncptControl) {s : State}
    (h : c.index.toNat < s.params.numSyncpt) : exec (.syncptIncr sw c) s =
      .next ((s.store Slot.syncpointB (syncpointBWord opIncr sw c)).syncptIncr c.index) :=
  congrArg _ (if_pos (decide_eq_true h))

/-- What a unit's own step can do to the counters: nothing, or the one increment that a method it
accepts asks for (R213). -/
theorem unitStep_syncpts {s t : State} (h : unitStep s = .next t) :
    t.syncpts = s.syncpts ∨ ∃ m rest i, s.active.fsm = .idle ∧ s.active.port = m :: rest ∧
      m.extractLsb' 32 12 = 29#12 ∧ m.extractLsb' 0 1 = 1#1 ∧ m.extractLsb' 8 12 = i ∧
      t.syncpts = s.syncpts.incr i := by
  rcases unitStep_cases s with ⟨_, _, _, -, -, -, e⟩ |
    ⟨-, ⟨-, -, e⟩ | ⟨hidle, m, rest, hport, e⟩ | ⟨-, e⟩ | ⟨-, e⟩ | ⟨-, e⟩⟩ <;> rw [e] at h
  case inr.inr.inl =>
    rcases exec_syncpts h with hsame | ⟨sw, c, hm, -, hincr⟩
    · exact .inl hsame
    · obtain ⟨hindex, hop, hi⟩ := (decode_eq_syncptIncr_iff m c.index).mp ⟨sw, c, hm, rfl⟩
      exact .inr ⟨m, rest, c.index, hidle, hport, hindex, hop, hi, hincr⟩
  case inr.inr.inr.inl =>
    cases h
    obtain ⟨-, -, -, hbank⟩ := poll_kept s
    exact .inl hbank
  case inr.inr.inr.inr.inl =>
    cases h
    obtain ⟨-, -, -, hbank⟩ := test_kept s
    exact .inl hbank
  all_goals
    cases h
    exact .inl rfl

/-- A counter that an increment changes is the one it names, and it changes by 1 (R45). -/
theorem SyncptBank.eq_of_read_incr_ne {b : SyncptBank} {i j : SyncptIndex}
    (h : (b.incr i).read j ≠ b.read j) : i = j ∧ (b.incr i).read j = b.read j + 1 := by
  rw [SyncptBank.read_incr] at h ⊢
  split_ifs at h ⊢ with hij
  · exact ⟨hij.symm, hij ▸ rfl⟩
  · exact absurd rfl h

/-- Settles O51: the environment's increment and an accepted Incr are the only steps that reach the
bank. -/
theorem countersChangeOnlyByIncrement : Obligations.CountersChangeOnlyByIncrement := by
  intro s t j hstep hne
  rcases step_cases hstep with ⟨u, v, hmoves, hv, ht⟩ |
    ⟨b, c, f, later, -, -, -, -, -, -, hbank, -⟩ |
    ⟨k, later, -, -, rfl⟩ | ⟨a, v, later, -, rfl⟩ | ⟨n, e, v, later, -, rfl⟩ | ⟨i, later, hi, -, rfl⟩
  case inl =>
    rcases unitStep_syncpts ht with hsame | ⟨m, rest, i, hidle, hport, hindex, hop, hi, hincr⟩
    · exact absurd (by rw [hsame, hv.syncpts]) hne
    · rw [hincr, hv.syncpts] at hne ⊢
      obtain ⟨rfl, hread⟩ := SyncptBank.eq_of_read_incr_ne hne
      rw [hv.active] at hidle hport
      exact ⟨hread, .inr ⟨u, m, rest, hmoves, hidle, hport, hindex, hop, hi⟩⟩
  case inr.inl => exact absurd (by rw [hbank]) hne
  case inr.inr.inl =>
    obtain ⟨hbank, -⟩ := State.land_syncpts_events { s with inputs := later } k
    exact absurd (by rw [hbank]) hne
  case inr.inr.inr.inr.inr =>
    obtain ⟨rfl, hread⟩ := SyncptBank.eq_of_read_incr_ne hne
    exact ⟨hread, .inl ⟨later, hi⟩⟩
  all_goals exact absurd rfl hne

/-- Where no two units have one number, an input gives the turn to the unit it names. -/
theorem moves_of_turn {s : State} {u : ChannelUnit} {later : List Input} (h : Inv s)
    (hu : u ∈ s.units) (hi : s.inputs = .turn u.chan :: later) : Moves s u := by
  rw [Moves, State.mover, hi]
  change s.units.find? (fun w => w.chan == u.chan) = some u
  cases hf : s.units.find? (fun w => w.chan == u.chan) with
  | none => exact absurd (beq_self_eq_true u.chan) (List.find?_eq_none.mp hf u hu)
  | some w =>
    have hw : w.chan = u.chan := by simpa using List.find?_some hf
    rw [List.inj_on_of_nodup_map h.channels (List.mem_of_find?_eq_some hf) hu hw]

/-- `m` is the method on the port of the unit `u`, which is ready to accept it, and asks for an
increment of counter `i` (R51, R213). -/
structure PresentsIncr (s : State) (u : ChannelUnit) (m : Method) (i : SyncptIndex) : Prop where
  mem : u ∈ s.units
  ready : s.methodReady u = true
  port : ∃ rest, u.port = m :: rest
  method : m.extractLsb' 32 12 = 29#12 ∧ m.extractLsb' 0 1 = 1#1 ∧ m.extractLsb' 8 12 = i

/-- The step in which a unit accepts an increment adds it to the bank, and leaves what another unit
presents as it was. -/
theorem step_of_presentsIncr {s : State} {u : ChannelUnit} {m : Method} {i : SyncptIndex}
    (h : PresentsIncr s u m i) (hmoves : Moves s u) (hi : i.toNat < s.params.numSyncpt) :
    ∃ t, step s = .next t ∧ t.syncpts = s.syncpts.incr i ∧ t.params = s.params ∧
      t.inputs = s.inputs.tail ∧
      ∀ w m' j, w.chan ≠ u.chan → PresentsIncr s w m' j → PresentsIncr t w m' j := by
  obtain ⟨-, hready, ⟨rest, hport⟩, hmethod⟩ := h
  obtain ⟨v, hv, e⟩ := step_of_moves hmoves
  obtain ⟨sw, c, hm, rfl⟩ := (decode_eq_syncptIncr_iff m i).mpr hmethod
  have hready' : v.methodReady v.active = true := by
    rwa [hv.active, State.methodReady, State.awaitsMemory, hv.inFlight]
  have hexec := exec_syncptIncr sw c (s := v.accept m rest) (hv.params.symm ▸ hi)
  rw [← hm] at hexec
  have ht := (unitStep_of_ready hready' (hv.active ▸ hport)).trans hexec
  refine ⟨_, e.trans ht, congrArg (SyncptBank.incr · c.index) hv.syncpts, hv.params, hv.inputs, ?_⟩
  rintro w m' j hchan ⟨hmem, hready, hport, hmethod⟩
  refine ⟨hv.mem_units_of_ne ht hmem fun hw => hchan (congrArg _ hw), ?_, hport, hmethod⟩
  rwa [State.methodReady, State.awaitsMemory, ← hv.inFlight] at hready

/-- Two units that each present an increment of counter `i`, and take their turns one after the
other. -/
theorem run_of_presentsIncr {s : State} {u w : ChannelUnit} {m m' : Method} {i : SyncptIndex}
    (h : Inv s) (hchan : w.chan ≠ u.chan) (hu : PresentsIncr s u m i) (hw : PresentsIncr s w m' i)
    (hi : i.toNat < s.params.numSyncpt) (hinputs : s.inputs = [.turn u.chan, .turn w.chan]) :
    ∃ t, Host.Core.run Sys2Proof.core 2 s = .next t ∧
      (t.syncpts.read i).toNat = ((s.syncpts.read i).toNat + 2) % 2 ^ 32 := by
  obtain ⟨t, hstep, hbank, hparams, hlater, hkept⟩ :=
    step_of_presentsIncr hu (moves_of_turn h hu.mem hinputs) hi
  have hw' := hkept w m' i hchan hw
  rw [hinputs, List.tail_cons] at hlater
  obtain ⟨r, hstep', hbank', -⟩ := step_of_presentsIncr hw'
    (moves_of_turn (stepKeepsInvariant s t h hstep) hw'.mem hlater) (hparams ▸ hi)
  refine ⟨r, run_succ_last (run_succ hstep) hstep', ?_⟩
  have hread : r.syncpts.read i = s.syncpts.read i + 1 + 1 := by
    simp [hbank', hbank, SyncptBank.read_incr]
  rw [hread]
  bv_omega

/-- Settles O56: each unit still presents its increment after the other's, whichever comes first. -/
theorem incrementsOfTwoUnitsBothCount : Obligations.IncrementsOfTwoUnitsBothCount := by
  intro s w m m' rest rest' i h hw hready hready' hport hport' hk hk' hop hop' hi hi' hcounter order
    horder hinputs
  have hchan : s.active.chan ≠ w.chan := by
    have hnodup := h.channels
    rw [State.units, List.map_cons, List.nodup_cons] at hnodup
    exact fun e => hnodup.1 (e ▸ List.mem_map_of_mem hw)
  have hactive : PresentsIncr s s.active m i :=
    ⟨List.mem_cons_self, hready, ⟨rest, hport⟩, hk, hop, hi⟩
  have hparked : PresentsIncr s w m' i :=
    ⟨List.mem_cons_of_mem _ hw, hready', ⟨rest', hport'⟩, hk', hop', hi'⟩
  obtain rfl | rfl : order = _ ∨ order = _ := by simpa using horder
  · exact run_of_presentsIncr h hchan.symm hactive hparked hcounter hinputs
  · exact run_of_presentsIncr h hchan hparked hactive hcounter hinputs

/-! ### The environment -/

/-- Settles O43: reading after the environment's byte, its aligned word, and its increment. -/
theorem environmentChangesOnePlace : Obligations.EnvironmentChangesOnePlace := by
  intro s later
  refine ⟨fun a v hi => ?_, fun n enables v hi => ?_, fun i hi hcounter => ?_⟩
  · exact ⟨_, step_of_input hi, s.mem.readByte_writeByte_same a v,
      fun b hb => s.mem.readByte_writeByte_other v hb, rfl, fun _ => rfl, rfl, rfl, rfl, rfl, rfl⟩
  · refine ⟨_, step_of_input hi, s.mem.readByte_writeEnabled n enables v, ?_, rfl, fun _ => rfl, rfl,
      rfl, rfl, rfl, rfl⟩
    rintro a ha rfl
    obtain rfl : a = wordAddress n := BitVec.eq_of_toNat_eq (ha.trans (wordAddress_toNat n).symm)
    exact s.mem.readWord_writeEnabled n v
  · refine ⟨{ s with inputs := later, syncpts := s.syncpts.incr i },
      (step_of_input hi).trans (if_pos (decide_eq_true hcounter)), ?_,
      fun j hj => by rw [SyncptBank.read_incr, if_neg hj], ⟨fun _ => rfl, rfl⟩, rfl, rfl, rfl, rfl, rfl⟩
    rw [SyncptBank.read_incr, if_pos rfl]
    exact BitVec.toNat_add _ _

/-! ### Reset -/

/-- A unit as Reset creates it holds 0 in every slot (R49). -/
@[simp] theorem ChannelUnit.fresh_peek (c : Nat) (i : SlotIndex) :
    (ChannelUnit.fresh c).peek i = 0 := by
  simp [ChannelUnit.peek, ChannelUnit.fresh]

/-- Settles O39: the outputs are fields of words that are 0, or follow from IDLE. -/
theorem resetStateIsZeroAndIdle : Obligations.ResetStateIsZeroAndIdle := by
  have hword (i : SlotIndex) : State.reset.active.peek i = 0 := ChannelUnit.fresh_peek 0 i
  refine ⟨hword, rfl, rfl, ?_, ?_, hword _, rfl, rfl, rfl, rfl⟩
  · rw [ChannelUnit.boundClass, hword]
    rfl
  · rw [ChannelUnit.boundEngine, hword]
    rfl

/-- Settles O48: one IDLE unit, no word in flight, and contents at launch in canonical form. -/
theorem resetMeetsInvariant : Obligations.ResetMeetsInvariant where
  memory := Memory.ofBytes_wf Config.launchBytes
  counters := SyncptBank.ofCounters_wf Config.launchCounters
  numSyncpt := by decide
  channels := List.nodup_singleton 0
  waits u hu := .of_idle (List.mem_singleton.mp hu ▸ rfl)
  inFlight w hw := absurd hw List.not_mem_nil

end Machine

end Sys2Proof

/-! SUPPORT. The proofs of the obligations about memory (spec/20_memory.md). -/

namespace Sys2Proof

/-! ### Fields side by side -/

/-- A field moved up by `lo` bits stays below the bit at which it ends. -/
theorem toNat_mul_two_pow_lt {n lo k : Nat} (x : BitVec n) (h : lo + n ≤ k) :
    x.toNat * 2 ^ lo < 2 ^ k :=
  calc x.toNat * 2 ^ lo < 2 ^ n * 2 ^ lo :=
        Nat.mul_lt_mul_of_pos_right x.isLt (Nat.two_pow_pos lo)
    _ = 2 ^ (lo + n) := by rw [← Nat.pow_add, Nat.add_comm]
    _ ≤ 2 ^ k := Nat.pow_le_pow_right (by decide) h

theorem place_toNat {n w lo : Nat} (x : BitVec n) (h : lo + n ≤ w) :
    (place w lo x).toNat = x.toNat * 2 ^ lo := by
  have hx : x.toNat < 2 ^ w := x.isLt.trans_le (Nat.pow_le_pow_right (by decide) (by omega))
  rw [place, BitVec.toNat_shiftLeft, BitVec.toNat_setWidth, Nat.mod_eq_of_lt hx, Nat.shiftLeft_eq,
    Nat.mod_eq_of_lt (toNat_mul_two_pow_lt x h)]

/-- Fields that do not overlap add up: `y` ends where `x` begins, or lower. -/
theorem place_or_place_toNat {n k w hi lo : Nat} (x : BitVec n) (y : BitVec k) (hx : hi + n ≤ w)
    (hy : lo + k ≤ hi) :
    (place w hi x ||| place w lo y).toNat = x.toNat * 2 ^ hi + y.toNat * 2 ^ lo := by
  rw [BitVec.toNat_or, place_toNat x hx, place_toNat y (by omega), ← Nat.shiftLeft_eq,
    Nat.shiftLeft_add_eq_or_of_lt (toNat_mul_two_pow_lt y hy)]

namespace Machine

/-! ### The semaphore address -/

/-- Settles O17: the two fields do not overlap, so their places add up. -/
theorem semaphoreAddressFormation : Obligations.SemaphoreAddressFormation := by
  intro s
  have hupper : ((s.slot 4).extractLsb' 0 8).toNat = (s.slot 4).toNat % 2 ^ 8 := by
    rw [BitVec.extractLsb'_toNat, Nat.shiftRight_zero]
  have hlower : ((s.slot 5).extractLsb' 2 30).toNat = (s.slot 5).toNat / 4 := by
    rw [BitVec.extractLsb'_toNat, Nat.shiftRight_eq_div_pow]
    omega
  calc s.semAddress.toNat
      = ((s.slot 4).extractLsb' 0 8).toNat * 2 ^ 32 + ((s.slot 5).extractLsb' 2 30).toNat * 4 :=
        place_or_place_toNat _ _ (by decide) (by decide)
    _ = (s.slot 4).toNat % 2 ^ 8 * 2 ^ 32 + (s.slot 5).toNat / 4 * 4 := by rw [hupper, hlower]

/-! ### Words in flight -/

/-- What `Landed` asks of a state in which the word behind `before` has been written. -/
theorem Landed.of_split {s t : State} {before after : List WordWrite} {w : WordWrite}
    (hs : s.inFlight = before ++ w :: after) (hmem : t.mem = s.mem.writeWord w.addr w.value)
    (hflight : t.inFlight = before ++ after) (hbank : t.syncpts = s.syncpts)
    (hevents : t.events = s.events) (hparams : t.params = s.params) (hdraws : t.draws = s.draws) :
    Landed s t before.length w where
  inFlight := by rw [hflight, hs]; simp [List.eraseIdx_append_of_length_le]
  word := by rw [hmem, Memory.readWord_writeWord]
  outside b hb := by rw [hmem, Memory.readByte_writeWord_far _ _ hb]
  counters i := by rw [hbank]
  events := hevents
  params := hparams
  draws := hdraws

/-- The turn of a unit with words in flight: the oldest of them is written (log 10). -/
theorem unitStep_of_oldest_word {s : State} {before after : List WordWrite} {w : WordWrite}
    (hs : s.inFlight = before ++ w :: after) (hw : w.chan = s.active.chan)
    (hbefore : ∀ x ∈ before, x.chan ≠ s.active.chan) :
    unitStep s =
      .next { s with mem := s.mem.writeWord w.addr w.value, inFlight := before ++ after } := by
  have hnone : before.findIdx? (fun x => x.chan == s.active.chan) = none := by simpa using hbefore
  have hk : s.inFlight.findIdx? (fun x => x.chan == s.active.chan) = some before.length := by
    simp [hs, List.findIdx?_append, hnone, List.findIdx?_cons, hw]
  rw [unitStep, hk]
  exact congrArg _ (State.land_append hs)

/-- Settles O38: the collaborator writes the word at the place it names, a unit's turn its oldest. -/
theorem wordsInFlightAreWrittenOneByOne : Obligations.WordsInFlightAreWrittenOneByOne := by
  intro s before after w hs
  constructor
  · intro later hi
    have hlt : before.length < s.inFlight.length := by simp [hs]
    have hperform : performInput (.memPerform before.length) { s with inputs := later } = _ :=
      if_pos hlt
    rw [State.land_append (s := { s with inputs := later }) hs] at hperform
    exact ⟨_, (step_of_input hi).trans hperform, .of_split hs rfl rfl rfl rfl rfl rfl, rfl, rfl, rfl,
      rfl⟩
  · intro u hmoves hw hbefore
    obtain ⟨v, hv, e⟩ := step_of_moves hmoves
    obtain ⟨rfl, hunits, hmem, hflight, hbank, hevents, hparams, hdraws, hinputs⟩ := hv
    exact ⟨_, e.trans (unitStep_of_oldest_word (hflight.trans hs) hw hbefore),
      .of_split hs (congrArg (Memory.writeWord · _ _) hmem) rfl hbank hevents hparams hdraws, rfl,
      ⟨rfl, hunits, hparams, hinputs⟩, rfl⟩

/-! ### What changes a byte of memory -/

/-- The transactions that may write memory: slot 7, operation Release or Reduction (R127). -/
theorem writesMemory_decode {m : Method} (h : writesMemory (decode m) = true) :
    m.extractLsb' 32 12 = 7#12 ∧ (m.extractLsb' 0 5 = 2#5 ∨ m.extractLsb' 0 5 = 16#5) := by
  obtain ⟨hslot, hop⟩ := writesMemory_argument h
  obtain ⟨-, hindex, hargument⟩ := decode_denotes m
  rw [hargument, extract_method_argument m (by decide)] at hop
  exact ⟨hindex.symm.trans hslot, hop⟩

/-- What a unit's own step can do to memory: nothing, the writing of a word that it issued, or what a
release or a reduction that it accepts does. -/
theorem unitStep_mem {s t : State} (h : unitStep s = .next t) :
    t.mem = s.mem ∨
    (∃ w ∈ s.inFlight, w.chan = s.active.chan ∧ t.mem = s.mem.writeWord w.addr w.value) ∨
    (s.methodReady s.active = true ∧ ∃ m rest, s.active.port = m :: rest ∧
      writesMemory (decode m) = true) := by
  rcases unitStep_cases s with ⟨before, w, after, hs, hw, -, e⟩ |
    ⟨hquiet, ⟨-, -, e⟩ | ⟨hidle, m, rest, hport, e⟩ | ⟨-, e⟩ | ⟨-, e⟩ | ⟨-, e⟩⟩ <;> rw [e] at h
  case inl =>
    cases h
    exact .inr (.inl ⟨w, by simp [hs], hw, rfl⟩)
  case inr.inr.inl =>
    cases hwrites : writesMemory (decode m) with
    | false => exact .inl (exec_mem h hwrites).1
    | true => exact .inr (.inr ⟨by simp [State.methodReady, hidle, hquiet], m, rest, hport, hwrites⟩)
  case inr.inr.inr.inl =>
    cases h
    obtain ⟨-, -, hmem, -⟩ := poll_kept s
    exact .inl hmem
  case inr.inr.inr.inr.inl =>
    cases h
    obtain ⟨-, -, hmem, -⟩ := test_kept s
    exact .inl hmem
  all_goals
    cases h
    exact .inl rfl

/-- A byte that a word write changes is one of the four at its address. -/
theorem Memory.near_of_readByte_writeWord_ne {m : Memory} {a b : Address} {v : Word}
    (h : (m.writeWord a v).readByte b ≠ m.readByte b) : (b - a).toNat < 4 :=
  not_le.mp fun hfar => h (m.readByte_writeWord_far v hfar)

/-- The writing of the word at a place where one is in flight (R68(c)). -/
theorem State.land_mem {s : State} {k : Nat} (h : k < s.inFlight.length) :
    ∃ w ∈ s.inFlight, s.inFlight[k]? = some w ∧
      (s.land k).mem = s.mem.writeWord w.addr w.value := by
  have hw := List.getElem?_eq_getElem h
  exact ⟨_, List.getElem_mem h, hw, by rw [State.land, hw]⟩

/-- Settles O50: the owner and the environment's increment touch no memory; of a unit's own steps, the
writing of a word and an accepted release or reduction do. -/
theorem memoryChangesOnlyBySemaphoreOrEnvironment :
    Obligations.MemoryChangesOnlyBySemaphoreOrEnvironment := by
  intro s t a hstep hne
  rcases step_cases hstep with ⟨u, v, hmoves, hv, ht⟩ | ⟨b, c, f, later, -, -, -, -, hmem, -⟩ |
    ⟨k, later, hi, hk, rfl⟩ | ⟨b, x, later, hi, rfl⟩ | ⟨n, e, x, later, hi, rfl⟩ | ⟨i, later, -, -, rfl⟩
  case inl =>
    obtain ⟨rfl, -, hvmem, hflight, -⟩ := hv
    rcases unitStep_mem ht with hsame | ⟨w, hw, hchan, hwrite⟩ | ⟨hready, m, rest, hport, hwrites⟩
    · exact absurd (by rw [hsame, hvmem]) hne
    · rw [hwrite, hvmem] at hne
      exact .inr (.inr (.inl ⟨w, hflight ▸ hw, Memory.near_of_readByte_writeWord_ne hne,
        .inr ⟨_, hmoves, hchan.symm⟩⟩))
    · rw [State.methodReady, State.awaitsMemory, hflight] at hready
      exact .inr (.inr (.inr ⟨_, m, rest, hmoves, hready, hport, writesMemory_decode hwrites⟩))
  case inr.inl => exact absurd (by rw [hmem]) hne
  case inr.inr.inl =>
    obtain ⟨w, hw, hplace, hland⟩ := State.land_mem (s := { s with inputs := later }) hk
    rw [hland] at hne
    exact .inr (.inr (.inl ⟨w, hw, Memory.near_of_readByte_writeWord_ne hne,
      .inl ⟨k, later, hi, hplace⟩⟩))
  case inr.inr.inr.inl =>
    by_cases hab : a = b
    · exact .inl ⟨x, later, hab ▸ hi⟩
    · exact absurd (Memory.readByte_writeByte_other _ x hab) hne
  case inr.inr.inr.inr.inl =>
    rw [Memory.readByte_writeEnabled] at hne
    split_ifs at hne with hbyte
    · obtain ⟨rfl, henabled⟩ := hbyte
      exact .inr (.inl ⟨e, x, later, hi, henabled⟩)
    · exact absurd rfl hne
  case inr.inr.inr.inr.inr => exact absurd rfl hne

/-! ### What a method's effect on its unit depends on -/

/-- Settles O53: the unit after a well-formed method is a function of the unit and the parameters; an
ill-formed term is one of three, whose effects read the unit alone. -/
theorem registersDoNotDependOnSharedState : Obligations.RegistersDoNotDependOnSharedState := by
  intro i s s' t t' hactive hparams h h'
  cases hw : i.wellFormed with
  | true => rw [exec_active hw h, exec_active hw h', hactive, hparams]
  | false =>
    cases i with
    | unimpl slot arg =>
      cases h
      cases h'
      exact congrArg (·.store slot arg) hactive
    | semReserved op red c =>
      cases h
      cases h'
      exact congrArg (·.store Slot.semaphoreD (semaphoreDWord op red c)) hactive
    | oor index arg =>
      cases h
      cases h'
      exact congrArg (·.withFsm .fatal) hactive
    | _ => cases hw

/-! ### A release that another unit waits for -/

/-- A release whose size is allowed at its address does not fault (R166). -/
theorem SizeAllowed.not_misaligned {s : State} {c : SemControl} (h : SizeAllowed s c) :
    misaligned c s.semAddress = false := by
  rw [← Bool.not_eq_true, misaligned_iff]
  rintro ⟨hsize, hne⟩
  rcases h with hfour | haligned
  · exact absurd (hfour.symm.trans hsize) (by decide)
  · exact hne haligned

/-- The execution of a 4-byte release: one word is written (R165). -/
theorem exec_release_fourBytes (red : ReductionOp) {c : SemControl} (s : State)
    (h : c.releaseSize = .fourBytes) : exec (.semRelease red c) s =
      .next ((s.storeControl opRelease red.toBits c).memWrite s.semAddress (s.slot 6)
        (wfiFlag c)) := by
  have hm : misaligned c s.semAddress = false := SizeAllowed.not_misaligned (.inl h)
  simp [exec, execSemRelease, State.release, hm, h]

/-- The execution of an aligned 16-byte release: four words are issued (R165, R67). -/
theorem exec_release_sixteenBytes (red : ReductionOp) {c : SemControl} {s : State}
    (h : c.releaseSize = .sixteenBytes) (hsize : SizeAllowed s c) : exec (.semRelease red c) s =
      .next ((s.storeControl opRelease red.toBits c).issueWrite s.semAddress
        (releaseWords (s.slot 6) s.nextTimestamp) (wfiFlag c)).drawn := by
  simp [exec, execSemRelease, State.release, hsize.not_misaligned, h]

/-- An input gives the turn to the waiting unit it names, where no two units have one number. -/
theorem moves_of_turn_parked {s : State} {w : ChannelUnit} {later : List Input}
    (h : (s.units.map (·.chan)).Nodup) (hw : w ∈ s.parked) (hi : s.inputs = .turn w.chan :: later) :
    Moves s w := by
  obtain ⟨u, others, e, -, hfind⟩ := State.giveTurn_some (State.giveTurn_parked h hw)
  obtain rfl : w = u := congrArg State.active e
  rw [Moves, State.mover, hi]
  exact hfind

/-- The unit that has the turn and the units that wait have different numbers. -/
theorem Inv.chan_ne_of_parked {s : State} {w : ChannelUnit} (h : Inv s) (hw : w ∈ s.parked) :
    s.active.chan ≠ w.chan := by
  have hnodup := h.channels
  rw [State.units, List.map_cons, List.nodup_cons] at hnodup
  exact fun e => hnodup.1 (e ▸ List.mem_map_of_mem hw)

/-- No word of a unit that is not IDLE is in flight (R57). -/
theorem Inv.quiet_of_not_idle {s : State} {w : ChannelUnit} (h : Inv s) (hw : w ∈ s.units)
    (hfsm : w.fsm ≠ .idle) : ∀ x ∈ s.inFlight, x.chan ≠ w.chan := by
  intro x hx hchan
  obtain ⟨-, u, hu, huchan, hidle⟩ := h.inFlight x hx
  obtain rfl := List.inj_on_of_nodup_map h.channels hu hw (huchan.trans hchan)
  exact hfsm hidle

/-- The poll of a satisfied acquire, by the unit the first input names: the wait ends, and no word in
flight is written. -/
theorem step_of_satisfied_acquire {s : State} {w : ChannelUnit} {later : List Input}
    (hchans : (s.units.map (·.chan)).Nodup) (hw : w ∈ s.parked)
    (hi : s.inputs = .turn w.chan :: later) (hfsm : w.fsm = .semWait)
    (hquiet : ∀ x ∈ s.inFlight, x.chan ≠ w.chan)
    (hsat : PollSatisfied s.params.acqGeqOrder ((w.peek 7).extractLsb' 0 5)
      (s.mem.readWord w.semAddress) (w.peek 6)) :
    ∃ r, step s = .next r ∧ r.active = { w with fsm := .idle } ∧ r.inFlight = s.inFlight := by
  obtain ⟨v, hv, e⟩ := step_of_moves (moves_of_turn_parked hchans hw hi)
  obtain ⟨rfl, -, hmem, hflight, -, -, hparams, -⟩ := hv
  rw [← hmem, ← hparams] at hsat
  rw [← hflight] at hquiet
  have hpoll := unitStep_of_semWait (State.awaitsMemory_eq_false.mpr hquiet) hfsm
  rcases v.poll_cases with ⟨-, hends⟩ | ⟨hunsat, -⟩
  · exact ⟨_, e.trans hpoll, by rw [hends]; rfl, by rw [hends]; exact hflight⟩
  · exact absurd (((acquireSatisfied_iff _ _ _ _).mpr hsat).symm.trans hunsat) (by decide)

/-- Of the words of a 16-byte release, those behind the payload word (R67). -/
def State.behindPayload (s : State) : List WordWrite :=
  wordWrites s.active.chan (s.semAddress + 4)
    [0, s.nextTimestamp.extractLsb' 0 32, s.nextTimestamp.extractLsb' 32 32]

/-- A 16-byte release issues the payload word first (R67). -/
theorem release_wordWrites (s : State) :
    wordWrites s.active.chan s.semAddress (releaseWords (s.slot 6) s.nextTimestamp) =
      ⟨s.active.chan, s.semAddress, s.slot 6⟩ :: s.behindPayload := rfl

/-- The words behind the payload word belong to the unit that releases. -/
theorem State.behindPayload_chan (s : State) : ∀ x ∈ s.behindPayload, x.chan = s.active.chan :=
  fun x hx => (wordWrites_spec ((extractLsb'_two_add_four _).trans s.semAddress_aligned) x hx).1

/-- The state after an aligned 16-byte release whose payload word the collaborator writes next
(R68(c)): the payload stands at the address, the other three words are in flight. -/
theorem step_of_released_payload (red : ReductionOp) {c : SemControl} {s : State}
    {later : List Input} (hsixteen : c.releaseSize = .sixteenBytes) (hsize : SizeAllowed s c)
    (hi : s.inputs = .memPerform s.inFlight.length :: later) :
    ∃ t q, exec (.semRelease red c) s = .next t ∧ step t = .next q ∧
      q.active.chan = s.active.chan ∧ q.parked = s.parked ∧ q.params = s.params ∧
      q.inputs = later ∧ q.inFlight = s.inFlight ++ s.behindPayload ∧
      q.mem.readWord s.semAddress = s.slot 6 := by
  have hexec := exec_release_sixteenBytes red hsixteen hsize
  obtain ⟨hperform, -⟩ := wordsInFlightAreWrittenOneByOne
    ((s.storeControl opRelease red.toBits c).issueWrite s.semAddress
      (releaseWords (s.slot 6) s.nextTimestamp) (wfiFlag c)).drawn
    s.inFlight s.behindPayload _ (congrArg (s.inFlight ++ ·) (release_wordWrites s))
  obtain ⟨q, hstep, hlanded, hflight, hactive, hparked, hinputs⟩ := hperform later hi
  exact ⟨_, q, hexec, hstep, by rw [hactive]; rfl, hparked, hlanded.params, hinputs, hflight,
    hlanded.word⟩

/-- Settles O54: once the payload stands at the address, which the two units share, the poll of the
waiting one reads it. -/
theorem releaseEndsSatisfiedAcquireElsewhere : Obligations.ReleaseEndsSatisfiedAcquireElsewhere := by
  intro s red c w later h hsize hw hfsm haddr hsat
  have hchan := h.chan_ne_of_parked hw
  have hquiet := h.quiet_of_not_idle (List.mem_cons_of_mem _ hw) (by rw [hfsm]; decide)
  constructor
  · intro hfour hi
    obtain ⟨r, hstep, hactive, -⟩ := step_of_satisfied_acquire
      (s := (s.storeControl opRelease red.toBits c).memWrite s.semAddress (s.slot 6) (wfiFlag c))
      h.channels hw hi hfsm hquiet
      (by rwa [haddr, State.memWrite_mem, Memory.readWord_writeWord])
    exact ⟨_, r, exec_release_fourBytes red s hfour, hstep, hactive⟩
  · intro hsixteen hi
    obtain ⟨t, q, hexec, hstep, hqchan, hparked, hparams, hinputs, hflight, hword⟩ :=
      step_of_released_payload red hsixteen hsize hi
    have hqchans : (q.units.map (·.chan)).Nodup := by
      rw [State.units, List.map_cons, hqchan, hparked]
      exact h.channels
    have hqquiet : ∀ x ∈ q.inFlight, x.chan ≠ w.chan := by
      intro x hx
      rw [hflight] at hx
      rcases List.mem_append.mp hx with hold | hnew
      · exact hquiet x hold
      · rw [s.behindPayload_chan x hnew]
        exact hchan
    obtain ⟨r, hstep', hactive, hkept⟩ := step_of_satisfied_acquire hqchans (hparked ▸ hw) hinputs
      hfsm hqquiet (by rwa [haddr, hword, hparams])
    refine ⟨t, q, r, hexec, hstep, hstep', hactive, ?_⟩
    rw [hkept, hflight, List.length_append]
    rfl

end Machine

end Sys2Proof

/-! SUPPORT. The proofs of the obligations about the encoding (spec/30_encoding.md). -/

namespace Sys2Proof

/-! ### Reading a method back -/

/-- A method of a slot is read back when stages 2 and 3 read it back from its argument (R91). -/
theorem decode_encode_of_slot {i : Instr} (k : SlotIndex) (hk : i.index = slotMethodIndex k)
    (h : decodeSlot k i.argument = i) : decode (encode i) = i :=
  (decode_encode_slot k hk).trans h

/-- Every method of the map is read back from its transaction: the fields of its argument are its
operands, and the sub-operations of slots 7 and 29 name it (R91, R94). -/
theorem decode_encode {i : Instr} (h : i.wellFormed = true) : decode (encode i) = i := by
  cases i with
  | illegal a | nop a | semaphoreC a | nonStallInterrupt a | fbFlush a | memOpD a | setReference a
  | syncpointA a | crcCheck a => exact decode_encode_of_slot _ rfl rfl
  | setObject c e p =>
    obtain ⟨hclass, hengine, hpad⟩ := setObjectWord_fields c e p
    exact decode_encode_of_slot Slot.setObject rfl
      (congr (congrArg₂ Instr.setObject hclass hengine) hpad)
  | semaphoreA u p =>
    obtain ⟨hupper, hpad⟩ := semaphoreAWord_fields u p
    exact decode_encode_of_slot Slot.semaphoreA rfl (congrArg₂ Instr.semaphoreA hupper hpad)
  | semaphoreB l p =>
    obtain ⟨hlower, hpad⟩ := semaphoreBWord_fields l p
    exact decode_encode_of_slot Slot.semaphoreB rfl (congrArg₂ Instr.semaphoreB hlower hpad)
  | memOpC s r =>
    obtain ⟨hscope, hrest⟩ := memOpCWord_fields s r
    exact decode_encode_of_slot Slot.memOpC rfl
      (congrArg₂ Instr.memOpC ((congrArg _ hscope).trans s.ofBits_toBits) hrest)
  | wfi s p =>
    obtain ⟨hscope, hpad⟩ := wfiWord_fields s p
    exact decode_encode_of_slot Slot.wfi rfl
      (congrArg₂ Instr.wfi ((congrArg _ hscope).trans s.ofBits_toBits) hpad)
  | yield o p =>
    obtain ⟨hop, hpad⟩ := yieldWord_fields o p
    exact decode_encode_of_slot Slot.yield rfl
      (congrArg₂ Instr.yield ((congrArg _ hop).trans o.ofBits_toBits) hpad)
  | semAcquire r c | semRelease r c | semAcqGeq r c | semAcqAnd r c =>
    exact decode_encode_of_slot Slot.semaphoreD rfl (decodeSemaphoreD_word _ r c)
  | semRedMin c | semRedMax c | semRedXor c | semRedAnd c | semRedOr c | semRedAdd c | semRedInc c
  | semRedDec c =>
    exact decode_encode_of_slot Slot.semaphoreD rfl (decodeSemaphoreD_word opReduction _ c)
  | semReserved op red c =>
    exact decode_encode_of_slot Slot.semaphoreD rfl (decodeSemaphoreD_reserved c h)
  | syncptWait c | syncptWaitNoswitch c =>
    exact decode_encode_of_slot Slot.syncpointB rfl (decodeSyncpointB_word opWait _ c)
  | syncptIncr sw c =>
    exact decode_encode_of_slot Slot.syncpointB rfl (decodeSyncpointB_word opIncr sw c)
  | unimpl k a => exact decode_encode_of_slot k rfl (decodeSlot_unimplemented a h)
  | oor n a =>
    have hn : 64 ≤ n.toNat := of_decide_eq_true h
    rw [decode_of_outOfRange (by rwa [method_index_encode]), method_index_encode,
      method_argument_encode]
    rfl

/-- Settles O1. -/
theorem decodeInvertsEncode : Obligations.DecodeInvertsEncode := fun _ h => decode_encode h

/-- The method read from `m` has the index and the argument of `m`, and a transaction is no more than
the two (R90). -/
theorem encode_decode (m : Method) : encode (decode m) = m := by
  obtain ⟨-, hindex, hargument⟩ := decode_denotes m
  rw [encode, hindex, hargument, method_eq_place]

/-- Settles O2: the decoder drops no bit of the index or of the argument. -/
theorem encodeInvertsDecode : Obligations.EncodeInvertsDecode :=
  fun m => ⟨(decode_denotes m).wellFormed, encode_decode m⟩

/-! ### The rows of the opcode table -/

/-- The patterns of two rows, each under the mask of the other row, differ: the rows ask for different
values of the bits that both look at (R94). -/
def OpcodeRow.apart (r q : OpcodeRow) : Bool := r.pattern &&& q.mask != q.pattern &&& r.mask

/-- Rows that are apart share no transaction. -/
theorem OpcodeRow.not_selects_of_apart {r q : OpcodeRow} (h : r.apart q = true) {m : Method}
    (hr : r.selects m = true) : ¬ q.selects m = true := by
  intro hq
  rw [OpcodeRow.selects, beq_iff_eq] at hr hq
  refine bne_iff_ne.mp h ?_
  calc r.pattern &&& q.mask = m &&& r.mask &&& q.mask := by rw [hr]
    _ = m &&& q.mask &&& r.mask := by ac_rfl
    _ = q.pattern &&& r.mask := by rw [hq]

/-- The rows are disjoint (R94). -/
theorem opcodeTable_pairwise_apart : opcodeTable.Pairwise fun r q => r.apart q = true := by
  decide

/-- Where no two entries of a list satisfy `p`, one that does is all that a filter by `p` keeps. -/
theorem filter_eq_singleton {α : Type} {p : α → Bool} {l : List α} {a : α}
    (hl : l.Pairwise fun x y => p x = true → ¬ p y = true) (ha : a ∈ l) (hp : p a = true) :
    l.filter p = [a] := by
  obtain ⟨before, after, rfl⟩ := List.append_of_mem ha
  obtain ⟨-, hcons, hcross⟩ := List.pairwise_append.mp hl
  have hbefore : before.filter p = [] :=
    List.filter_eq_nil_iff.mpr fun x hx hpx => hcross x hx a List.mem_cons_self hpx hp
  have hafter : after.filter p = [] :=
    List.filter_eq_nil_iff.mpr fun y hy => (List.pairwise_cons.mp hcons).1 y hy hp
  rw [List.filter_append, hbefore, List.filter_cons_of_pos hp, hafter, List.nil_append]

/-- No other row selects the transaction that a row of the table selects (R94). -/
theorem filter_selects_eq_singleton {m : Method} {r : OpcodeRow} (hr : r ∈ opcodeTable)
    (hm : r.selects m = true) : (opcodeTable.filter fun q => q.selects m) = [r] :=
  filter_eq_singleton
    (opcodeTable_pairwise_apart.imp fun hapart => OpcodeRow.not_selects_of_apart hapart) hr hm

/-- Every method's transaction selects a row with the method's mnemonic (R94). -/
theorem Laws.MnemonicRow.exists_row : ∀ i : Instr, Statement i
  | .setObject c e p => setObject c e p
  | .illegal a => illegal a
  | .nop a => nop a
  | .semaphoreA u p => semaphoreA u p
  | .semaphoreB l p => semaphoreB l p
  | .semaphoreC a => semaphoreC a
  | .semAcquire r c => semAcquire r c
  | .semRelease r c => semRelease r c
  | .semAcqGeq r c => semAcqGeq r c
  | .semAcqAnd r c => semAcqAnd r c
  | .semRedMin c => semRedMin c
  | .semRedMax c => semRedMax c
  | .semRedXor c => semRedXor c
  | .semRedAnd c => semRedAnd c
  | .semRedOr c => semRedOr c
  | .semRedAdd c => semRedAdd c
  | .semRedInc c => semRedInc c
  | .semRedDec c => semRedDec c
  | .semReserved op red c => semReserved op red c
  | .nonStallInterrupt a => nonStallInterrupt a
  | .fbFlush a => fbFlush a
  | .memOpC s r => memOpC s r
  | .memOpD a => memOpD a
  | .setReference a => setReference a
  | .syncpointA a => syncpointA a
  | .syncptWait c => syncptWait c
  | .syncptWaitNoswitch c => syncptWaitNoswitch c
  | .syncptIncr sw c => syncptIncr sw c
  | .wfi s p => wfi s p
  | .crcCheck a => crcCheck a
  | .yield o p => yield o p
  | .unimpl k a => unimpl k a
  | .oor n a => oor n a

/-- Settles O3: a row with the decoded method's mnemonic selects that method's transaction, which is
`m`, and no other row does; the counts are those of the table itself. -/
theorem eachTransactionSelectsOneRow : Obligations.EachTransactionSelectsOneRow := by
  refine ⟨fun m => ?_, by decide, by decide, by decide, by decide, by decide⟩
  obtain ⟨r, hr, hmnemonic, hsel⟩ :=
    Laws.MnemonicRow.exists_row (decode m) (decode_denotes m).wellFormed
  rw [encode_decode] at hsel
  rw [filter_selects_eq_singleton hr hsel, List.map_singleton, hmnemonic]

/-- Settles O4, transaction by transaction. -/
theorem sampleTransactionsDecode : Obligations.SampleTransactionsDecode :=
  ⟨rfl, rfl, rfl, rfl, rfl, rfl, rfl, rfl, rfl⟩

end Sys2Proof

/-! SUPPORT. The proofs of the obligations about the dispatcher (spec/40_dispatch.md). -/

namespace Sys2Proof.Machine

/-! ### Readiness and the acceptance of a method -/

/-- `mthd_ready` in terms of the control state and the words in flight (R51, R57). -/
theorem State.methodReady_iff (s : State) (u : ChannelUnit) :
    s.methodReady u = true ↔ u.fsm = .idle ∧ ∀ w ∈ s.inFlight, w.chan ≠ u.chan := by
  rw [State.methodReady, Bool.and_eq_true, beq_iff_eq, Bool.not_eq_true', State.awaitsMemory_eq_false]

/-- The unit that takes the turn is ready then exactly if it was ready before. -/
theorem TurnTaken.methodReady_active {s v : State} {u : ChannelUnit} (hv : TurnTaken s u v) :
    v.methodReady v.active = s.methodReady u := by
  rw [hv.active, State.methodReady, State.methodReady, State.awaitsMemory, State.awaitsMemory,
    hv.inFlight]

/-- What the acceptance of a method makes of the state before the turn: the rest stays on the port, and
the Write is recorded (R120, logs 8, 11). -/
theorem TurnTaken.accept_eq {s v : State} {u : ChannelUnit} (hv : TurnTaken s u v) (m : Method)
    (rest : List Method) : v.accept m rest = { v with
      active := { u with port := rest }
      events := s.events ++ [⟨u.chan, .write (Method.index m) (Method.argument m)⟩] } := by
  rw [← hv.active, ← hv.events]
  rfl

/-- The step in which a ready unit moves with a method presented accepts and runs that method. -/
theorem step_of_ready {s : State} {u : ChannelUnit} {m : Method} {rest : List Method}
    (hmoves : Moves s u) (hready : s.methodReady u = true) (hport : u.port = m :: rest) :
    ∃ v, TurnTaken s u v ∧ step s = exec (decode m) (v.accept m rest) := by
  obtain ⟨v, hv, e⟩ := step_of_moves hmoves
  exact ⟨v, hv,
    e.trans (unitStep_of_ready (hv.methodReady_active.trans hready) (hv.active ▸ hport))⟩

/-- Settles O7: the state in which the method runs is the one its acceptance leaves. -/
theorem stepRunsDecodedMethod : Obligations.StepRunsDecodedMethod := by
  rintro s u m rest _ hmoves hready hport rfl
  obtain ⟨v, hv, e⟩ := step_of_ready hmoves hready hport
  exact ⟨v, hv, e.trans (congrArg _ (hv.accept_eq m rest))⟩

/-! ### The store -/

/-- The low six bits of the index field (R90). -/
theorem method_index_setWidth (m : Method) : (Method.index m).setWidth 6 = m.extractLsb' 32 6 := by
  apply BitVec.eq_of_getLsbD_eq
  intro i hi
  simp [Method.index, hi, show i < 12 by omega]

/-- Effect 1: a method of the slot `k` stores its argument there and changes no other word (R122). -/
theorem exec_slotWritten {i : Instr} {s t : State} {k : SlotIndex} (hi : i.wellFormed = true)
    (hk : i.index = slotMethodIndex k) (h : exec i s = .next t) : SlotWritten s t k i.argument := by
  have hactive : t.active = (s.active.store k i.argument).withFsm _ :=
    (exec_active hi h).trans (unitAfter_of_slot k s.params s.active hk)
  constructor
  · rw [State.slot, hactive, ChannelUnit.withFsm_peek, ChannelUnit.store_peek_same]
  · intro j hj
    rw [State.slot, hactive, ChannelUnit.withFsm_peek, ChannelUnit.store_peek_other _ _ hj, State.slot]

/-- Settles O9: the decoder drops no bit of the index or of the argument, so Effect 1 of the decoded
method is the store of the accepted Write; acceptance itself changes no word. -/
theorem acceptedMethodStoresItsArgument : Obligations.AcceptedMethodStoresItsArgument := by
  intro s u m rest hmoves hready hport hrange
  obtain ⟨v, hv, e⟩ := step_of_ready hmoves hready hport
  obtain ⟨t, ht⟩ := exec_next (decode m) (v.accept m rest)
  obtain ⟨hwf, hindex, hargument⟩ := decode_denotes m
  have hslot : (decode m).index = slotMethodIndex (m.extractLsb' 32 6) := by
    rw [hindex, ← method_index_setWidth]
    exact (slotMethodIndex_of_lt hrange).symm
  obtain ⟨hstored, hother⟩ := exec_slotWritten hwf hslot ht
  obtain ⟨hchan, -, hparked, -⟩ := (exec_kept ht).surroundings
  refine ⟨t, e.trans ht, hchan.trans (congrArg (·.chan) hv.active), ?_, hstored.trans hargument,
    fun j hj => (hother j hj).trans (congrArg (·.peek j) hv.active)⟩
  rw [hparked]
  exact hv.units

/-- A method that only stores: everything but the word of its slot is as before. -/
theorem State.store_registerOnly (s : State) (i : SlotIndex) (v : Word) :
    RegisterOnly s (s.store i v) i v s.active.fsm [] where
  slots := ⟨s.active.store_peek_same i v, fun _ hj => s.active.store_peek_other v hj⟩
  fsm := rfl
  events := (List.append_nil _).symm
  memory := ⟨fun _ => rfl, rfl⟩
  counters _ := rfl
  draws := rfl
  surroundings := ⟨rfl, rfl, rfl, rfl, rfl⟩

/-- The 47 slots with no named view, by number (R38). -/
theorem slotUnimplemented_iff : ∀ i : SlotIndex, slotUnimplemented i = true ↔
    i.toNat ∈ [3, 10, 11, 14, 15, 16, 17, 18, 19, 21, 22, 23, 24, 25, 26, 27] ∨ 33 ≤ i.toNat := by
  decide

/-- Settles O12: stage 2 of the decoder finds no named view, and the method is the store alone. -/
theorem unimplementedSlotStoresOnly : Obligations.UnimplementedSlotStoresOnly := by
  intro slot arg s hslot
  refine ⟨?_, _, rfl, s.store_registerOnly slot arg⟩
  rw [decode_methodWord, decodeSlot_unimplemented arg ((slotUnimplemented_iff slot).mpr hslot)]

/-! ### An index out of range -/

/-- Stage 1 of the decoder, on a transaction written as a number (R91). -/
theorem decode_methodWord_outOfRange {index : MethodIndex} (arg : Word) (h : 64 ≤ index.toNat) :
    decode (methodWord index.toNat arg) = .oor index arg := by
  have hindex : Method.index (methodWord index.toNat arg) = index :=
    BitVec.eq_of_toNat_eq (method_index_methodWord index.isLt arg)
  rw [decode_of_outOfRange (hindex.symm ▸ h), hindex, method_argument_methodWord index.isLt]

/-- Settles O10: stage 1 of the decoder reads OOR, whose execution is the fatal fault alone. -/
theorem outOfRangeMethodIsFatal : Obligations.OutOfRangeMethodIsFatal := by
  intro index arg s
  exact ⟨decode_methodWord_outOfRange arg, s.fatalFault index arg, rfl, fun _ => rfl, rfl, rfl,
    ⟨fun _ => rfl, rfl⟩, fun _ => rfl, rfl, ⟨rfl, rfl, rfl, rfl, rfl⟩⟩

/-! ### The turn of a unit that is not IDLE -/

/-- The state in which a unit has just taken the turn keeps what every turn keeps. -/
theorem TurnTaken.turnKept {s v : State} {u : ChannelUnit} (hv : TurnTaken s u v) :
    TurnKept s u v where
  chan := congrArg _ hv.active
  units := hv.units
  params := hv.params
  inputs := hv.inputs

/-- One event and a change of the control state are all that a poll or a test consists of. -/
theorem TurnTaken.waitStep {s v : State} {u : ChannelUnit} (hv : TurnTaken s u v) (k : EventKind)
    (f : Fsm) : WaitStep s u k ((v.emit k).setFsm f) where
  turn := ⟨congrArg (·.chan) hv.active, hv.units, hv.params, hv.inputs⟩
  slots j := congrArg (·.peek j) hv.active
  port := congrArg (·.port) hv.active
  events := by rw [State.setFsm_events, State.emit_events, hv.events, hv.active]
  memory := ⟨fun a => congrArg (·.readByte a) hv.mem, hv.inFlight⟩
  counters i := congrArg (·.read i) hv.syncpts
  draws := hv.draws

/-- A poll continues or ends the wait with one read of memory (R163). -/
theorem TurnTaken.poll_waitStep {s v : State} {u : ChannelUnit} (hv : TurnTaken s u v) :
    WaitStep s u (.memRead v.semAddress (v.mem.readWord v.semAddress)) v.poll := by
  rcases v.poll_cases with ⟨-, e⟩ | ⟨-, e⟩ <;> rw [e]
  · exact hv.waitStep _ .idle
  · exact hv.waitStep _ v.active.fsm

/-- A test continues or ends the wait with one read of a counter (R216). -/
theorem TurnTaken.test_waitStep {s v : State} {u : ChannelUnit} (hv : TurnTaken s u v) :
    WaitStep s u (.syncptRead v.active.waitIndex (v.syncpts.read v.active.waitIndex)) v.test := by
  rcases v.test_cases with ⟨-, e⟩ | ⟨-, e⟩ <;> rw [e]
  · exact hv.waitStep _ .idle
  · exact hv.waitStep _ v.active.fsm

/-- What the turn of a unit does that is not IDLE and of which no word is in flight: a poll or a test,
whose event is no Write, or, in FATAL, nothing (R51, R251). -/
theorem step_of_not_idle {s : State} {u : ChannelUnit} (hmoves : Moves s u) (hfsm : u.fsm ≠ .idle)
    (hquiet : ∀ w ∈ s.inFlight, w.chan ≠ u.chan) :
    (u.fsm ≠ .fatal ∧ ∃ t k, step s = .next t ∧ WaitStep s u k t ∧ ∀ i a, k ≠ .write i a) ∨
    (u.fsm = .fatal ∧ ∃ t, step s = .next t ∧ TurnTaken s u t) := by
  obtain ⟨v, hv, e⟩ := step_of_moves hmoves
  rw [e]
  rcases unitStep_cases v with ⟨before, w, after, hs, hw, -⟩ |
    ⟨-, ⟨hidle, -⟩ | ⟨hidle, -⟩ | ⟨hwait, e⟩ | ⟨hwait, e⟩ | ⟨hfatal, e⟩⟩
  case inl =>
    have hmem : w ∈ s.inFlight := hv.inFlight ▸ hs ▸ by simp
    exact absurd (hv.active ▸ hw) (hquiet w hmem)
  case inr.inr.inr.inl =>
    rw [hv.active] at hwait
    exact .inl ⟨by simp [hwait], _, _, e, hv.poll_waitStep, by simp⟩
  case inr.inr.inr.inr.inl =>
    rw [hv.active] at hwait
    exact .inl ⟨by simp [hwait], _, _, e, hv.test_waitStep, by simp⟩
  case inr.inr.inr.inr.inr => exact .inr ⟨hv.active ▸ hfatal, v, e, hv⟩
  all_goals exact absurd (hv.active ▸ hidle) hfsm

/-- Settles O8: a waiting unit polls or tests, a FATAL one does nothing. -/
theorem blockedUnitHoldsItsMethod : Obligations.BlockedUnitHoldsItsMethod := by
  refine ⟨State.methodReady_iff, fun s u hmoves hfsm hquiet => ?_⟩
  rcases step_of_not_idle hmoves hfsm hquiet with ⟨hnf, t, k, e, hwait, hk⟩ | ⟨-, t, e, ht⟩
  · refine ⟨t, e, hwait.turn, hwait.port, hwait.slots, hwait.memory, hwait.counters, hwait.draws, ?_,
      fun hf => absurd hf hnf⟩
    rintro x hx ⟨i, a, hwrite⟩
    rw [hwait.events, List.mem_append, List.mem_singleton] at hx
    rcases hx with hold | rfl
    · exact hold
    · exact absurd hwrite (hk i a)
  · exact ⟨t, e, ht.turnKept, congrArg _ ht.active, fun j => congrArg (·.peek j) ht.active,
      ⟨fun a => congrArg (·.readByte a) ht.mem, ht.inFlight⟩, fun i => congrArg (·.read i) ht.syncpts,
      ht.draws, fun x hx _ => ht.events ▸ hx, fun _ => ⟨ht.active, ht.events⟩⟩

end Sys2Proof.Machine

/-! SUPPORT. The proofs of the obligations about SET_OBJECT, ILLEGAL and NOP
(spec/41_object_trap_nop.md). -/

namespace Sys2Proof

/-! ### A method read from its transaction as a number -/

/-- A method of the slot `k` is read back from `k ‖ argument` (R90, R91). -/
theorem decode_methodWord_argument {i : Instr} (k : SlotIndex) (hi : i.wellFormed = true)
    (hk : i.index = slotMethodIndex k) : decode (Machine.methodWord k.toNat i.argument) = i :=
  calc decode (Machine.methodWord k.toNat i.argument)
      = decodeSlot k i.argument := decode_methodWord k i.argument
    _ = decode (encode i) := (decode_encode_slot k hk).symm
    _ = i := decode_encode hi

/-! ### The argument of SET_OBJECT as a number -/

/-- A field above a word that ends where the field begins, or lower, adds up with it. -/
theorem or_place_toNat {n w hi : Nat} {low : BitVec w} (x : BitVec n) (hx : hi + n ≤ w)
    (hlow : low.toNat < 2 ^ hi) :
    (low ||| place w hi x).toNat = x.toNat * 2 ^ hi + low.toNat := by
  rw [BitVec.or_comm, BitVec.toNat_or, place_toNat x hx, ← Nat.shiftLeft_eq,
    Nat.shiftLeft_add_eq_or_of_lt hlow]

/-- R24: the pad above the engine above the class. -/
theorem setObjectWord_toNat (c : BitVec 16) (e : BitVec 5) (p : BitVec 11) :
    (setObjectWord c e p).toNat = p.toNat * 2 ^ 21 + e.toNat * 2 ^ 16 + c.toNat := by
  have hclass : (place 32 0 c).toNat = c.toNat := (place_toNat c (by decide)).trans (Nat.mul_one _)
  have hbinding : (place 32 0 c ||| place 32 16 e).toNat = e.toNat * 2 ^ 16 + c.toNat :=
    (or_place_toNat e (by decide) (hclass.symm ▸ c.isLt)).trans (congrArg _ hclass)
  have hlt : (place 32 0 c ||| place 32 16 e).toNat < 2 ^ 21 := by omega
  rw [setObjectWord, or_place_toNat p (by decide) hlt, hbinding, Nat.add_assoc]

namespace Machine

/-! ### The status outputs -/

/-- The outputs of R44 that show the binding are the fields of the word stored last (R140). -/
theorem ChannelUnit.bound_store_setObjectWord (u : ChannelUnit) (c : BitVec 16) (e : BitVec 5)
    (p : BitVec 11) :
    (u.store Slot.setObject (setObjectWord c e p)).boundClass = c ∧
      (u.store Slot.setObject (setObjectWord c e p)).boundEngine = e := by
  obtain ⟨hclass, hengine, -⟩ := setObjectWord_fields c e p
  rw [ChannelUnit.boundClass, ChannelUnit.boundEngine, ChannelUnit.store_peek_same]
  exact ⟨hclass, hengine⟩

/-- Settles O13: the method is the store alone, and the outputs are fields of the word stored. -/
theorem setObjectBindsClassAndEngine : Obligations.SetObjectBindsClassAndEngine := by
  intro c e p s
  exact ⟨setObjectWord_toNat c e p, decode_methodWord_argument Slot.setObject rfl rfl,
    s.store Slot.setObject (setObjectWord c e p), rfl, s.store_registerOnly _ _,
    s.active.bound_store_setObjectWord c e p⟩

/-! ### One event after the store -/

/-- An event more, of the unit whose turn it is, changes the event history only. -/
theorem RegisterOnly.emit {s t : State} {i : SlotIndex} {v : Word} {f : Fsm} {ks : List EventKind}
    (h : RegisterOnly s t i v f ks) (k : EventKind) :
    RegisterOnly s (t.emit k) i v f (ks ++ [k]) where
  slots := h.slots
  fsm := h.fsm
  events := by
    obtain ⟨hchan, -⟩ := h.surroundings
    rw [Emitted, State.emit_events, h.events, hchan, List.map_append, List.append_assoc]
    rfl
  memory := h.memory
  counters := h.counters
  draws := h.draws
  surroundings := h.surroundings

/-- Settles O14: the store, and the one fault recorded after it. -/
theorem illegalReportsOneFault : Obligations.IllegalReportsOneFault := fun arg s =>
  ⟨decode_methodWord_argument (i := .illegal arg) Slot.illegal rfl rfl, _, rfl,
    (s.store_registerOnly Slot.illegal arg).emit (.fault .illegalMethod 1 arg)⟩

/-- Settles O15: the method is the store alone. -/
theorem nopStoresOnly : Obligations.NopStoresOnly := fun arg s =>
  ⟨decode_methodWord_argument (i := .nop arg) Slot.nop rfl rfl, _, rfl,
    s.store_registerOnly Slot.nop arg⟩

end Machine

end Sys2Proof


/-! SUPPORT. The proofs of the obligations about the semaphore descriptor (spec/42_semaphore.md). -/

namespace Sys2Proof

/-! ### The operand words as numbers -/

/-- R25: the pad above the upper bits of the address. -/
theorem semaphoreAWord_toNat (upper : BitVec 8) (pad : BitVec 24) :
    (semaphoreAWord upper pad).toNat = pad.toNat * 2 ^ 8 + upper.toNat := by
  have hupper : (place 32 0 upper).toNat = upper.toNat :=
    (place_toNat upper (by decide)).trans (Nat.mul_one _)
  rw [semaphoreAWord, or_place_toNat pad (by decide) (hupper.symm ▸ upper.isLt), hupper]

/-- R26: the lower bits of the address above the pad. -/
theorem semaphoreBWord_toNat (lower : BitVec 30) (pad : BitVec 2) :
    (semaphoreBWord lower pad).toNat = lower.toNat * 4 + pad.toNat := by
  have hpad : (place 32 0 pad).toNat = pad.toNat :=
    (place_toNat pad (by decide)).trans (Nat.mul_one _)
  rw [semaphoreBWord, or_place_toNat lower (by decide) (hpad.symm ▸ pad.isLt), hpad]
  rfl

/-! ### Reserved control words -/

theorem operationDefined_iff : ∀ op : BitVec 5,
    operationDefined op = true ↔ op.toNat ∈ [1, 2, 4, 8, 16] := by
  decide

/-- R95 in numbers. -/
theorem controlReserved_iff (op : BitVec 5) (red : BitVec 4) :
    controlReserved op red = true ↔ op.toNat ∉ [1, 2, 4, 8, 16] ∨ 8 ≤ red.toNat := by
  rw [controlReserved, Bool.or_eq_true, Bool.not_eq_true', Bool.not_eq_true', ← Bool.not_eq_true,
    ← Bool.not_eq_true, operationDefined_iff, reductionDefined, decide_eq_true_iff, Nat.not_lt]

namespace Machine

/-- Settles O16: each of the three methods is the store alone. -/
theorem semaphoreOperandWordsStoreOnly : Obligations.SemaphoreOperandWordsStoreOnly :=
  ⟨fun upper pad s => ⟨semaphoreAWord_toNat upper pad,
      decode_methodWord_argument Slot.semaphoreA rfl rfl, _, rfl,
      s.store_registerOnly Slot.semaphoreA (semaphoreAWord upper pad)⟩,
    fun lower pad s => ⟨semaphoreBWord_toNat lower pad,
      decode_methodWord_argument Slot.semaphoreB rfl rfl, _, rfl,
      s.store_registerOnly Slot.semaphoreB (semaphoreBWord lower pad)⟩,
    fun payload s => ⟨decode_methodWord_argument (i := .semaphoreC payload) Slot.semaphoreC rfl rfl,
      _, rfl, s.store_registerOnly Slot.semaphoreC payload⟩⟩

/-- Settles O27: the decoder reads SEM_RESERVED, which is the store and the one fault after it. -/
theorem reservedControlReportsOneFault : Obligations.ReservedControlReportsOneFault := by
  intro op red c s hreserved
  exact ⟨decode_methodWord_argument Slot.semaphoreD ((controlReserved_iff op red).mpr hreserved) rfl,
    _, rfl, (s.store_registerOnly Slot.semaphoreD (semaphoreDWord op red c)).emit
      (.fault .unsupportedOperation 7 (semaphoreDWord op red c))⟩

/-! ### Acquires -/

/-- A change of the control state, on top of a method that touches its slot, `fsm` and the history. -/
theorem RegisterOnly.setFsm {s t : State} {i : SlotIndex} {v : Word} {f : Fsm}
    {ks : List EventKind} (h : RegisterOnly s t i v f ks) (g : Fsm) :
    RegisterOnly s (t.setFsm g) i v g ks where
  slots := h.slots
  fsm := rfl
  events := h.events
  memory := h.memory
  counters := h.counters
  draws := h.draws
  surroundings := h.surroundings

/-- While an acquire pends, the switch output is that of the control word stored (R44, R169). -/
theorem switchHint_beginAcquire (s : State) (op : BitVec 5) (red : BitVec 4) (c : SemControl) :
    (s.storeControl op red c).beginAcquire.active.switchHint =
      if c.acquireSwitch = .enabled then 1 else 0 :=
  calc (s.storeControl op red c).beginAcquire.active.switchHint
      = ((s.active.store Slot.semaphoreD (semaphoreDWord op red c)).peek
          Slot.semaphoreD).extractLsb' 12 1 := rfl
    _ = c.acquireSwitch.toBits := by
        rw [ChannelUnit.store_peek_same, semaphoreDWord_acquireSwitch]
    _ = if c.acquireSwitch = .enabled then 1 else 0 := Switch.toBits_eq _

/-- Settles O18: the three acquires differ only in the operation they store. -/
theorem acquireSuspendsTheChannel : Obligations.AcquireSuspendsTheChannel := by
  intro red c s
  have suspends (op : BitVec 5) :
      let t := (s.storeControl op red.toBits c).beginAcquire
      RegisterOnly s t 7 (semaphoreDWord op red.toBits c) .semWait [] ∧ t.active.blocked = true ∧
        t.active.waitKind = some .sem ∧
        t.active.switchHint = (if c.acquireSwitch = .enabled then 1 else 0) :=
    ⟨(s.store_registerOnly Slot.semaphoreD _).setFsm .semWait, rfl, rfl,
      switchHint_beginAcquire s op red.toBits c⟩
  simp only [List.forall_mem_cons, List.not_mem_nil, false_implies, implies_true, and_true]
  exact ⟨⟨decode_methodWord_argument Slot.semaphoreD rfl rfl, _, rfl, suspends opAcquire⟩,
    ⟨decode_methodWord_argument Slot.semaphoreD rfl rfl, _, rfl, suspends opAcqGeq⟩,
    ⟨decode_methodWord_argument Slot.semaphoreD rfl rfl, _, rfl, suspends opAcqAnd⟩⟩

/-! ### Polls -/

/-- The poll of the unit that has taken the turn leaves it waiting or, exactly when the predicate of the
stored operation holds of the word read, IDLE (R163). -/
theorem TurnTaken.poll_fsm {s v : State} {u : ChannelUnit} (hv : TurnTaken s u v)
    (hfsm : u.fsm = .semWait) :
    (v.poll.active.fsm = .idle ∨ v.poll.active.fsm = .semWait) ∧
    (v.poll.active.fsm = .idle ↔ acquireSatisfied s.params.acqGeqOrder
      ((u.peek 7).extractLsb' 0 5) (s.mem.readWord u.semAddress) (u.peek 6) = true) := by
  obtain ⟨rfl, -, hmem, -, -, -, hparams, -⟩ := hv
  rw [← hmem, ← hparams]
  rcases v.poll_cases with ⟨hsat, e⟩ | ⟨hunsat, e⟩ <;> rw [e]
  · exact ⟨.inl rfl, fun _ => hsat, fun _ => rfl⟩
  · have hwaits : (v.memRead v.semAddress).active.fsm = .semWait := hfsm
    refine ⟨.inr hwaits, fun hidle => ?_, fun hsat => absurd (hsat.symm.trans hunsat) (by decide)⟩
    exact absurd (hidle.symm.trans hwaits) (by decide)

/-- Settles O19: the step is a poll, whose test is the predicate of the stored operation. -/
theorem pollEndsWaitExactlyWhenSatisfied : Obligations.PollEndsWaitExactlyWhenSatisfied := by
  intro s u hmoves hfsm hquiet v p op
  obtain ⟨w, hw, e⟩ := step_of_moves hmoves
  have hstep : step s = .next w.poll := e.trans (unitStep_of_semWait
    (State.awaitsMemory_eq_false.mpr (by rwa [hw.active, hw.inFlight])) (by rwa [hw.active]))
  have hwait := hw.poll_waitStep
  rw [State.semAddress, hw.active, hw.mem] at hwait
  obtain ⟨hcontrol, hidle⟩ : _ ∧
      (_ ↔ acquireSatisfied s.params.acqGeqOrder op v p = true) := hw.poll_fsm hfsm
  have hgeq (hop : op = opAcqGeq) :
      w.poll.active.fsm = .idle ↔ geq s.params.acqGeqOrder v p = true := by
    rw [hidle, ← acquireSatisfied_acqGeq, ← hop]
  refine ⟨w.poll, hstep, hwait, hcontrol, fun hop => ?_,
    fun hop ho => by rw [hgeq hop, ho, geq_unsigned_iff],
    fun hop ho => by rw [hgeq hop, ho, geq_signed_iff],
    fun hop ho => by rw [hgeq hop, ho, geq_circular_iff], fun hop => ?_⟩
  · rw [hidle, hop]
    exact acquireSatisfied_acquire _ v p
  · rw [hidle, hop]
    exact acquireSatisfied_acqAnd _ v p

/-- Settles O20: below 2^31 a word is its own signed value, and a difference has its top bit clear
exactly when nothing was borrowed. -/
theorem acqGeqOrdersAgreeBelowSignBit : Obligations.AcqGeqOrdersAgreeBelowSignBit := by
  intro v p hv hp
  constructor
  · rw [Bool.eq_iff_iff, geq_signed_iff, geq_unsigned_iff,
      BitVec.toInt_eq_toNat_of_lt (by omega), BitVec.toInt_eq_toNat_of_lt (by omega), Int.ofNat_le]
  · rw [Bool.eq_iff_iff, geq_circular_iff, geq_unsigned_iff, BitVec.toNat_sub]
    omega

/-! ### A release of 4 bytes -/

/-- Settles O21: the store and the write of one word. -/
theorem releaseFourBytesWritesPayload : Obligations.ReleaseFourBytesWritesPayload := by
  intro red c s hfour
  have hexec := exec_release_fourBytes red s hfour
  exact ⟨decode_methodWord_argument Slot.semaphoreD rfl rfl, _, hexec,
    exec_slotWritten (k := Slot.semaphoreD) rfl rfl hexec, rfl, Memory.readWord_writeWord _ _ _,
    fun _ hb => Memory.readByte_writeWord_far _ _ hb, rfl, rfl, fun _ => rfl, rfl,
    (exec_kept hexec).surroundings⟩

/-! ### Misaligned accesses of 16 bytes -/

/-- A misaligned 16-byte release: the store and the fault (R166). -/
theorem exec_release_misaligned (red : ReductionOp) {c : SemControl} {s : State}
    (h : misaligned c s.semAddress = true) : exec (.semRelease red c) s =
      .next ((s.storeControl opRelease red.toBits c).raiseFault .unsupportedOperation
        (slotMethodIndex Slot.semaphoreD) (semaphoreDWord opRelease red.toBits c)) := by
  simp [exec, execSemRelease, State.release, h]

/-- Every reduction method is Effect 1 and then its reduction (R167). -/
theorem exec_reductionMethod (op : ReductionOp) (c : SemControl) (s : State) :
    exec (reductionMethod op c) s =
      .next ((s.storeControl opReduction op.toBits c).reduction op
        (semaphoreDWord opReduction op.toBits c) c) := by
  cases op <;> rfl

theorem reductionMethod_argument (op : ReductionOp) (c : SemControl) :
    (reductionMethod op c).argument = semaphoreDWord opReduction op.toBits c := by
  cases op <;> rfl

theorem reductionMethod_wellFormed (op : ReductionOp) (c : SemControl) :
    (reductionMethod op c).wellFormed = true := by
  cases op <;> rfl

theorem reductionMethod_index (op : ReductionOp) (c : SemControl) :
    (reductionMethod op c).index = slotMethodIndex Slot.semaphoreD := by
  cases op <;> rfl

/-- A misaligned 16-byte reduction: the store and the fault (R166). -/
theorem exec_reduction_misaligned (op : ReductionOp) {c : SemControl} {s : State}
    (h : misaligned c s.semAddress = true) : exec (reductionMethod op c) s =
      .next ((s.storeControl opReduction op.toBits c).raiseFault .unsupportedOperation
        (slotMethodIndex Slot.semaphoreD) (semaphoreDWord opReduction op.toBits c)) := by
  simp [exec_reductionMethod, State.reduction, h]

/-- The fault of slot 7 after the store of a control word. -/
theorem storeControl_raiseFault_registerOnly (s : State) (op : BitVec 5) (red : BitVec 4)
    (c : SemControl) :
    RegisterOnly s ((s.storeControl op red c).raiseFault .unsupportedOperation
        (slotMethodIndex Slot.semaphoreD) (semaphoreDWord op red c))
      7 (semaphoreDWord op red c) s.active.fsm
      [.fault .unsupportedOperation 7 (semaphoreDWord op red c)] :=
  (s.store_registerOnly Slot.semaphoreD _).emit _

/-- Settles O23: the check of R166 stands before the access, in the release and in every reduction. -/
theorem misalignedSixteenByteAccessFaults : Obligations.MisalignedSixteenByteAccessFaults := by
  intro red c s hsixteen hunaligned
  have h : misaligned c s.semAddress = true := (misaligned_iff s c).mpr ⟨hsixteen, hunaligned⟩
  have hred (op : ReductionOp) : ∃ t, exec (reductionMethod op c) s = .next t ∧
      RegisterOnly s t 7 (reductionMethod op c).argument s.active.fsm
        [.fault .unsupportedOperation 7 (reductionMethod op c).argument] := by
    rw [reductionMethod_argument]
    exact ⟨_, exec_reduction_misaligned op h, storeControl_raiseFault_registerOnly s _ _ c⟩
  simp only [List.forall_mem_cons, List.not_mem_nil, false_implies, implies_true, and_true]
  exact ⟨⟨_, exec_release_misaligned red h, storeControl_raiseFault_registerOnly s _ _ c⟩,
    hred .min, hred .max, hred .xor, hred .and, hred .or, hred .add, hred .inc, hred .dec⟩

/-! ### Reductions -/

/-- A 4-byte reduction: the store and one read-modify-write (R167). -/
theorem exec_reduction_fourBytes (op : ReductionOp) {c : SemControl} (s : State)
    (h : c.releaseSize = .fourBytes) : exec (reductionMethod op c) s =
      .next ((s.storeControl opReduction op.toBits c).memReduce s.semAddress op c.format (s.slot 6)
        (wfiFlag c)) := by
  have hm : misaligned c s.semAddress = false := SizeAllowed.not_misaligned (.inl h)
  simp [exec_reductionMethod, State.reduction, hm, h]

/-- An aligned 16-byte reduction: the trailer follows the read-modify-write (R168). -/
theorem exec_reduction_sixteenBytes (op : ReductionOp) {c : SemControl} {s : State}
    (h : c.releaseSize = .sixteenBytes) (hsize : SizeAllowed s c) :
    exec (reductionMethod op c) s =
      .next (((s.storeControl opReduction op.toBits c).memReduce s.semAddress op c.format (s.slot 6)
        (wfiFlag c)).trailer s.semAddress (wfiFlag c)) := by
  simp [exec_reductionMethod, State.reduction, hsize.not_misaligned, h]

/-- A reduction whose size is allowed at its address has the effect of R167 and R168, with the function
that `reduce` gives for its operation. -/
theorem exec_reductionMethod_reduced (op : ReductionOp) {c : SemControl} {s : State}
    (hsize : SizeAllowed s c) {new : Word → Word}
    (hnew : ∀ old, reduce op c.format old (s.slot 6) = new old) :
    ∃ t, exec (reductionMethod op c) s = .next t ∧
      Reduced s t op c (reductionMethod op c).argument new := by
  have hwf := reductionMethod_wellFormed op c
  have hslot := reductionMethod_index op c
  cases hs : c.releaseSize with
  | fourBytes =>
    have hexec := exec_reduction_fourBytes op s hs
    exact ⟨_, hexec, exec_slotWritten hwf hslot hexec, rfl,
      (Memory.readWord_writeWord _ _ _).trans (hnew _),
      fun _ hb => Memory.readByte_writeWord_far _ _ hb, fun _ => ⟨rfl, rfl, rfl⟩,
      fun h => (nomatch hs.symm.trans h), fun _ => rfl, (exec_kept hexec).surroundings⟩
  | sixteenBytes =>
    have hexec := exec_reduction_sixteenBytes op hs hsize
    exact ⟨_, hexec, exec_slotWritten hwf hslot hexec, rfl,
      (Memory.readWord_writeWord _ _ _).trans (hnew _),
      fun _ hb => Memory.readByte_writeWord_far _ _ hb, fun h => (nomatch hs.symm.trans h),
      fun _ => ⟨congrArg (s.inFlight ++ ·) (wordWrites_trailer _ _ _ _ _), rfl,
        List.append_assoc _ _ _⟩, fun _ => rfl, (exec_kept hexec).surroundings⟩

/-- The transaction of a reduction and its effect, as the statements of the eight ask for them. -/
theorem reductionMethod_decodes_and_reduces (op : ReductionOp) {c : SemControl} {s : State}
    (hsize : SizeAllowed s c) {new : Word → Word}
    (hnew : ∀ old, reduce op c.format old (s.slot 6) = new old) :
    decode (methodWord 7 (reductionMethod op c).argument) = reductionMethod op c ∧
      ∃ t, exec (reductionMethod op c) s = .next t ∧
        Reduced s t op c (reductionMethod op c).argument new :=
  ⟨decode_methodWord_argument Slot.semaphoreD (reductionMethod_wellFormed op c)
    (reductionMethod_index op c), exec_reductionMethod_reduced op hsize hnew⟩

/-- A choice by `formatLe` is one by the unsigned or by the signed numbers (R170, R171). -/
theorem ite_formatLe (fmt : Format) (a b x y : Word) :
    (if formatLe fmt a b then x else y) =
      if fmt = .unsigned then (if a.toNat ≤ b.toNat then x else y)
      else (if a.toInt ≤ b.toInt then x else y) := by
  cases fmt with
  | unsigned => simp only [formatLe_unsigned_iff, if_true]
  | signed => simp only [formatLe_signed_iff, reduceCtorEq, if_false]

/-- Settles O24: both keep the old word where the order of `format` says so. -/
theorem minMaxReductions : Obligations.MinMaxReductions := fun c s hsize =>
  ⟨reductionMethod_decodes_and_reduces .min hsize fun old => by rw [reduce_min, ite_formatLe],
    reductionMethod_decodes_and_reduces .max hsize fun old => by rw [reduce_max, ite_formatLe]⟩

/-- Settles O25: the three bitwise functions are those of `reduce`, and the sum is taken modulo 2^32. -/
theorem bitwiseAndAddReductions : Obligations.BitwiseAndAddReductions := fun c s hsize =>
  ⟨reductionMethod_decodes_and_reduces .xor hsize fun _ => rfl,
    reductionMethod_decodes_and_reduces .and hsize fun _ => rfl,
    reductionMethod_decodes_and_reduces .or hsize fun _ => rfl,
    reductionMethod_decodes_and_reduces .add hsize fun old => BitVec.eq_of_toNat_eq (by
      rw [reduce_add, BitVec.toNat_ofNat, Nat.mod_mod])⟩

/-- Settles O26: neither count leaves the range of a word, since each wraps at the payload first. -/
theorem incDecReductions : Obligations.IncDecReductions := by
  intro c s hsize p
  refine ⟨reductionMethod_decodes_and_reduces .inc hsize fun old => ?_,
    reductionMethod_decodes_and_reduces .dec hsize fun old => ?_⟩
  · apply BitVec.eq_of_toNat_eq
    rw [reduce_inc]
    split
    · rfl
    · have hp := p.isLt
      rw [BitVec.toNat_ofNat, Nat.mod_eq_of_lt (by omega)]
  · apply BitVec.eq_of_toNat_eq
    rw [reduce_dec]
    split
    · rfl
    · have hold := old.isLt
      rw [BitVec.toNat_ofNat, Nat.mod_eq_of_lt (by omega)]

/-! ### Words in flight, written in any order -/

/-- The words at the two addresses share no byte. -/
def WordsApart (a b : Address) : Prop := 4 ≤ (a - b).toNat ∧ 4 ≤ (b - a).toNat

theorem WordsApart.symm {a b : Address} (h : WordsApart a b) : WordsApart b a := And.symm h

/-- The bytes of one of the two words are outside the other. -/
theorem WordsApart.far {a b c : Address} (h : WordsApart a b) (hc : (c - a).toNat < 4) :
    4 ≤ (c - b).toNat := by
  obtain ⟨hab, hba⟩ := h
  bv_omega

/-- A word of which no byte has changed reads as before. -/
theorem Memory.readWord_eq_of_bytes {m m' : Memory} {a : Address}
    (h : ∀ b, (b - a).toNat < 4 → m'.readByte b = m.readByte b) : m'.readWord a = m.readWord a := by
  apply Memory.readWord_congr <;> apply h <;> bv_omega

/-- Each place, in turn, names one of the words still in flight, and together they name all. -/
def NamesEveryWord : List Nat → Prop
  | [] => True
  | k :: ks => k < ks.length + 1 ∧ NamesEveryWord ks

/-- What is left when words of which no two share a byte have all been written: each reads its value,
and a byte of none of them reads as before. -/
structure AllLanded (s r : State) (ws : List WordWrite) : Prop where
  inFlight : r.inFlight = []
  words : ∀ w ∈ ws, r.mem.readWord w.addr = w.value
  outside : ∀ b, (∀ w ∈ ws, 4 ≤ (b - w.addr).toNat) → r.mem.readByte b = s.mem.readByte b

/-- One word written first, then all others. -/
theorem AllLanded.of_landed {s t r : State} {before after : List WordWrite} {w : WordWrite}
    (hland : Landed s t before.length w) (hrest : AllLanded t r (before ++ after))
    (hapart : ∀ x ∈ before ++ after, WordsApart w.addr x.addr) :
    AllLanded s r (before ++ w :: after) where
  inFlight := hrest.inFlight
  words x hx := by
    rw [List.mem_append, List.mem_cons] at hx
    rcases hx with hx | rfl | hx
    · exact hrest.words x (List.mem_append_left _ hx)
    · rw [← hland.word]
      exact Memory.readWord_eq_of_bytes fun b hb =>
        hrest.outside b fun y hy => (hapart y hy).far hb
    · exact hrest.words x (List.mem_append_right _ hx)
  outside b hb := by
    rw [← hland.outside b (hb w (by simp))]
    exact hrest.outside b fun x hx => hb x (by
      rcases List.mem_append.mp hx with hx | hx <;> simp [hx])

/-- The collaborator writes all words in flight in the order of `ks`, whichever it is (R68(c)): by
induction on the places, the word named first and then the words left. -/
theorem run_memPerform_allLanded {ks : List Nat} {ws : List WordWrite} {s : State}
    (hs : s.inFlight = ws) (hks : NamesEveryWord ks) (hlen : ws.length = ks.length)
    (hapart : ws.Pairwise fun w x => WordsApart w.addr x.addr)
    (hi : s.inputs = ks.map Input.memPerform) :
    ∃ r, Host.Core.run Sys2Proof.core ks.length s = .next r ∧ AllLanded s r ws := by
  induction ks generalizing s ws with
  | nil =>
    obtain rfl : ws = [] := List.length_eq_zero_iff.mp hlen
    exact ⟨s, rfl, hs, by simp, fun _ _ => rfl⟩
  | cons k ks ih =>
    obtain ⟨hk, hks⟩ := hks
    have hklt : k < ws.length := hlen ▸ hk
    obtain ⟨before, w, after, rfl, rfl⟩ : ∃ before w after,
        ws = before ++ w :: after ∧ before.length = k :=
      ⟨ws.take k, ws[k], ws.drop (k + 1), by simp, List.length_take_of_le hklt.le⟩
    obtain ⟨hperform, -⟩ := wordsInFlightAreWrittenOneByOne s before after w hs
    obtain ⟨t, hstep, hland, hflight, -, -, hinputs⟩ := hperform _ hi
    rw [List.pairwise_middle WordsApart.symm, List.pairwise_cons] at hapart
    obtain ⟨hw, hrest⟩ := hapart
    have hlen' : (before ++ after).length = ks.length := by
      rw [List.length_append, List.length_cons, List.length_cons] at hlen
      rw [List.length_append]
      omega
    obtain ⟨r, hrun, hall⟩ := ih hflight hks hlen' hrest hinputs
    exact ⟨r, (run_succ hstep).trans hrun, .of_landed hland hall hw⟩

/-- The four words of a 16-byte write share no byte (R64). -/
theorem wordWrites_four_apart (c : Nat) (a : Address) (w0 w1 w2 w3 : Word) :
    (wordWrites c a [w0, w1, w2, w3]).Pairwise fun w x => WordsApart w.addr x.addr := by
  rw [wordWrites_four]
  simp only [List.pairwise_cons, List.forall_mem_cons, List.not_mem_nil, false_implies,
    implies_true, List.Pairwise.nil, and_true, WordsApart]
  refine ⟨⟨⟨?_, ?_⟩, ⟨?_, ?_⟩, ?_, ?_⟩, ⟨⟨?_, ?_⟩, ?_, ?_⟩, ?_, ?_⟩ <;> bv_omega

/-- A byte outside the 16 bytes of a write of four words is outside each of the words (R64). -/
theorem wordWrites_four_far (c : Nat) {a b : Address} (w0 w1 w2 w3 : Word)
    (h : 16 ≤ (b - a).toNat) :
    ∀ w ∈ wordWrites c a [w0, w1, w2, w3], 4 ≤ (b - w.addr).toNat := by
  rw [wordWrites_four]
  simp only [List.forall_mem_cons, List.not_mem_nil, false_implies, implies_true, and_true]
  refine ⟨?_, ?_, ?_, ?_⟩ <;> bv_omega

/-- The four words of a 16-byte write, all written, stand at its address, and no byte beside them has
changed (R64). -/
theorem AllLanded.four_words {s r : State} {c : Nat} {a : Address} {w0 w1 w2 w3 : Word}
    (h : AllLanded s r (wordWrites c a [w0, w1, w2, w3])) :
    r.mem.readWord a = w0 ∧ r.mem.readWord (a + 4) = w1 ∧ r.mem.readWord (a + 8) = w2 ∧
      r.mem.readWord (a + 12) = w3 ∧ MemoryKeptOutside s r a 16 := by
  have hwords := h.words
  rw [wordWrites_four] at hwords
  exact ⟨hwords ⟨c, a, w0⟩ (by simp), hwords ⟨c, a + 4, w1⟩ (by simp),
    hwords ⟨c, a + 8, w2⟩ (by simp), hwords ⟨c, a + 12, w3⟩ (by simp),
    fun b hb => h.outside b (wordWrites_four_far c w0 w1 w2 w3 hb)⟩

/-- Settles O22: the words are issued by one request, and each is written by itself, in any order. -/
theorem releaseSixteenBytesWritesFourWords : Obligations.ReleaseSixteenBytesWritesFourWords := by
  intro red c s hsixteen haligned i a lo hi
  have hexec := exec_release_sixteenBytes red hsixteen (.inr haligned)
  refine ⟨decode_methodWord_argument Slot.semaphoreD rfl rfl, _, hexec,
    exec_slotWritten (k := Slot.semaphoreD) rfl rfl hexec, rfl, fun _ => rfl,
    congrArg (s.inFlight ++ ·) (wordWrites_four _ _ _ _ _ _), rfl, fun _ => rfl, rfl,
    (exec_kept hexec).surroundings, ?_⟩
  intro j k l hj hk hl hnone hinputs
  obtain ⟨r, hrun, hall⟩ := run_memPerform_allLanded (ks := [j, k, l, 0])
    (s := ((s.storeControl opRelease red.toBits c).issueWrite a
      (releaseWords (s.slot 6) s.nextTimestamp) (wfiFlag c)).drawn)
    (congrArg (· ++ wordWrites s.active.chan a [s.slot 6, 0, lo, hi]) hnone)
    ⟨hj, hk, hl, Nat.zero_lt_one, trivial⟩ rfl (wordWrites_four_apart _ _ _ _ _ _) hinputs
  exact ⟨r, hrun, hall.inFlight, hall.four_words⟩

end Machine

end Sys2Proof

/-! SUPPORT. The proofs of the obligations about the triggers, the memory-operation pair and the
reference value (spec/43_triggers_memop_reference.md). -/

namespace Sys2Proof

/-! ### The operand word of the pair as a number -/

theorem TlbScope.toBits_toNat (x : TlbScope) : x.toBits.toNat = if x = .all then 1 else 0 := by
  cases x <;> rfl

/-- R29: the rest of the word above the scope. -/
theorem memOpCWord_toNat (scope : TlbScope) (rest : BitVec 31) :
    (memOpCWord scope rest).toNat = rest.toNat * 2 + if scope = .all then 1 else 0 := by
  have hscope : (place 32 0 scope.toBits).toNat = scope.toBits.toNat :=
    (place_toNat scope.toBits (by decide)).trans (Nat.mul_one _)
  rw [memOpCWord, or_place_toNat rest (by decide) (hscope.symm ▸ scope.toBits.isLt), hscope,
    TlbScope.toBits_toNat, Nat.pow_one]

/-- The scope in bit 0 of a word: `all` exactly when the word is odd (R29). -/
theorem TlbScope.ofBits_extract_zero (w : Word) :
    TlbScope.ofBits (w.extractLsb' 0 1) = if w.toNat % 2 = 1 then .all else .one := by
  have hbit : w.extractLsb' 0 1 = 0 ↔ ¬ w.toNat % 2 = 1 := by
    rw [← BitVec.toNat_inj, BitVec.extractLsb'_toNat]
    simp
  simp only [TlbScope.ofBits, hbit, ite_not]

namespace Machine

/-! ### The triggers -/

/-- Settles O28: each method is the store, and the one notification after it. -/
theorem interruptAndFlushNotifyOnly : Obligations.InterruptAndFlushNotifyOnly := fun arg s =>
  ⟨⟨decode_methodWord_argument (i := .nonStallInterrupt arg) Slot.nonStallInterrupt rfl rfl, _, rfl,
      (s.store_registerOnly Slot.nonStallInterrupt arg).emit .nonStallInterrupt⟩,
    ⟨decode_methodWord_argument (i := .fbFlush arg) Slot.fbFlush rfl rfl, _, rfl,
      (s.store_registerOnly Slot.fbFlush arg).emit .fbFlush⟩⟩

/-! ### The memory-operation pair -/

/-- The request of MEM_OP_D carries the word just stored, and slot 12 as it stood before (R193). -/
theorem State.tlbInvalidate_store_memOpD (s : State) (arg : Word) :
    (s.store Slot.memOpD arg).tlbInvalidate = (s.store Slot.memOpD arg).emit
      (.tlbInvalidate (if (s.slot 12).toNat % 2 = 1 then .all else .one) (s.slot 12) arg) := by
  obtain ⟨hstored, hother⟩ := (s.store_registerOnly Slot.memOpD arg).slots
  have hscopeWord : (s.store Slot.memOpD arg).slot Slot.memOpC = s.slot 12 :=
    hother Slot.memOpC (by decide)
  rw [State.tlbInvalidate, State.tlbScope, hstored, hscopeWord, TlbScope.ofBits_extract_zero]

/-- Settles O29: MEM_OP_C is the store alone; MEM_OP_D is the store and one request after it. -/
theorem memOpPairForwardsInvalidation : Obligations.MemOpPairForwardsInvalidation := by
  constructor
  · intro scope rest s
    exact ⟨memOpCWord_toNat scope rest, decode_methodWord_argument Slot.memOpC rfl rfl, _, rfl,
      s.store_registerOnly Slot.memOpC (memOpCWord scope rest)⟩
  · intro arg s
    exact ⟨decode_methodWord_argument (i := .memOpD arg) Slot.memOpD rfl rfl, _,
      congrArg Host.Outcome.next (s.tlbInvalidate_store_memOpD arg),
      (s.store_registerOnly Slot.memOpD arg).emit _⟩

/-! ### The reference value -/

/-- Settles O30: the method is the store alone, and the output is the word stored (R44). -/
theorem setReferenceShowsOnOutput : Obligations.SetReferenceShowsOnOutput := fun reference s =>
  ⟨decode_methodWord_argument (i := .setReference reference) Slot.setReference rfl rfl, _, rfl,
    s.store_registerOnly Slot.setReference reference,
    s.active.store_peek_same Slot.setReference reference⟩

end Machine

end Sys2Proof


/-! SUPPORT. The proofs of the obligations about the syncpoint descriptor (spec/44_syncpoint.md). -/

namespace Sys2Proof.Machine

/-! ### The threshold -/

/-- Settles O31: the method is the store alone. -/
theorem syncpointPayloadStoresOnly : Obligations.SyncpointPayloadStoresOnly := fun payload s =>
  ⟨decode_methodWord_argument (i := .syncpointA payload) Slot.syncpointA rfl rfl, _, rfl,
    s.store_registerOnly Slot.syncpointA payload⟩

/-! ### The index check -/

/-- The index check lets the action through where the counter exists (R211). -/
theorem State.checkSyncpt_of_exists {s : State} {i : SyncptIndex} (arg : Word) (action : State)
    (h : i.toNat < s.params.numSyncpt) : s.checkSyncpt i arg action = action := by
  rcases s.checkSyncpt_cases action i arg with ⟨-, e⟩ | ⟨hmissing, -⟩
  · exact e
  · exact absurd h (Nat.not_lt.mpr hmissing)

/-- The index check reports one fault, and drops the action, where no such counter exists (R212). -/
theorem State.checkSyncpt_of_missing {s : State} {i : SyncptIndex} (arg : Word) (action : State)
    (h : s.params.numSyncpt ≤ i.toNat) : s.checkSyncpt i arg action =
      s.raiseFault .unsupportedOperation (slotMethodIndex Slot.syncpointB) arg := by
  rcases s.checkSyncpt_cases action i arg with ⟨hexists, -⟩ | ⟨-, e⟩
  · exact absurd h (Nat.not_le.mpr hexists)
  · exact e

/-- A control word that fails the index check: the store, and the one fault after it (R212). -/
theorem store_checkSyncpt_registerOnly {s : State} {i : SyncptIndex} (arg : Word) (action : State)
    (h : s.params.numSyncpt ≤ i.toNat) :
    RegisterOnly s ((s.store Slot.syncpointB arg).checkSyncpt i arg action) 29 arg s.active.fsm
      [.fault .unsupportedOperation 29 arg] := by
  rw [State.checkSyncpt_of_missing (s := s.store Slot.syncpointB arg) arg action h]
  exact (s.store_registerOnly Slot.syncpointB arg).emit _

/-- Settles O33: the three control methods differ in the action that the index check drops. -/
theorem syncptIndexOutOfRangeFaults : Obligations.SyncptIndexOutOfRangeFaults := by
  intro sw c s hmissing
  simp only [List.forall_mem_cons, List.not_mem_nil, false_implies, implies_true, and_true]
  exact ⟨⟨_, rfl, store_checkSyncpt_registerOnly _ _ hmissing⟩,
    ⟨_, rfl, store_checkSyncpt_registerOnly _ _ hmissing⟩,
    ⟨_, rfl, store_checkSyncpt_registerOnly _ _ hmissing⟩⟩

/-! ### Increments -/

/-- Settles O32: the store, and the one increment of the bank. -/
theorem syncptIncrAddsOne : Obligations.SyncptIncrAddsOne := by
  intro sw c s hexists i
  have hexec := exec_syncptIncr sw c hexists
  refine ⟨decode_methodWord_argument Slot.syncpointB rfl rfl, _, hexec,
    exec_slotWritten (k := Slot.syncpointB) rfl rfl hexec, rfl, ?_, fun j hj => ?_, rfl,
    ⟨fun _ => rfl, rfl⟩, rfl, (exec_kept hexec).surroundings⟩
  · rw [State.syncptIncr_syncpts, SyncptBank.read_incr, if_pos rfl, BitVec.toNat_add]
    rfl
  · rw [State.syncptIncr_syncpts, SyncptBank.read_incr, if_neg hj]
    rfl

/-! ### Waits -/

/-- The execution of a Wait with the switch enabled, on a counter that exists (R214). -/
theorem exec_syncptWait {c : SyncptControl} {s : State} (h : c.index.toNat < s.params.numSyncpt) :
    exec (.syncptWait c) s =
      .next (s.store Slot.syncpointB (syncpointBWord opWait .enabled c)).beginSyncptWait :=
  congrArg Host.Outcome.next (State.checkSyncpt_of_exists (s := s.store Slot.syncpointB _) _ _ h)

/-- The execution of a Wait with the switch disabled, on a counter that exists (R215). -/
theorem exec_syncptWaitNoswitch {c : SyncptControl} {s : State}
    (h : c.index.toNat < s.params.numSyncpt) : exec (.syncptWaitNoswitch c) s =
      .next (if s.params.waitDisBlocks then
        (s.store Slot.syncpointB (syncpointBWord opWait .disabled c)).beginSyncptWait
      else s.store Slot.syncpointB (syncpointBWord opWait .disabled c)) :=
  congrArg Host.Outcome.next (State.checkSyncpt_of_exists (s := s.store Slot.syncpointB _) _ _ h)

/-- A Wait that blocks touches its slot and the control state only (R214). -/
theorem store_beginSyncptWait_registerOnly (s : State) (arg : Word) :
    RegisterOnly s (s.store Slot.syncpointB arg).beginSyncptWait 29 arg .syncptWait [] :=
  (s.store_registerOnly Slot.syncpointB arg).setFsm .syncptWait

/-- While a syncpoint wait pends, the switch output is that of the control word stored (R44, R218). -/
theorem switchHint_beginSyncptWait (s : State) (op : BitVec 1) (sw : Switch) (c : SyncptControl) :
    (s.store Slot.syncpointB (syncpointBWord op sw c)).beginSyncptWait.active.switchHint =
      sw.toBits :=
  calc (s.store Slot.syncpointB (syncpointBWord op sw c)).beginSyncptWait.active.switchHint
      = ((s.active.store Slot.syncpointB (syncpointBWord op sw c)).peek
          Slot.syncpointB).extractLsb' 4 1 := rfl
    _ = sw.toBits := by rw [ChannelUnit.store_peek_same, syncpointBWord_waitSwitch]

/-- Settles O34: the store of the control word, and the change of the control state after it. -/
theorem syncptWaitSuspendsTheChannel : Obligations.SyncptWaitSuspendsTheChannel :=
  fun c s hexists => ⟨decode_methodWord_argument Slot.syncpointB rfl rfl, _,
    exec_syncptWait hexists, store_beginSyncptWait_registerOnly s _, rfl, rfl,
    switchHint_beginSyncptWait s opWait .enabled c⟩

/-- Settles O35: the parameter alone decides whether the change of the control state follows the
store. -/
theorem noswitchWaitFollowsParameter : Obligations.NoswitchWaitFollowsParameter := by
  intro c s hexists i
  have hexec := exec_syncptWaitNoswitch hexists
  refine ⟨decode_methodWord_argument Slot.syncpointB rfl rfl, fun hblocks => ?_, fun hruns => ?_⟩
  · rw [if_pos hblocks] at hexec
    exact ⟨_, hexec, store_beginSyncptWait_registerOnly s _,
      switchHint_beginSyncptWait s opWait .disabled c⟩
  · rw [hruns, if_neg Bool.false_ne_true] at hexec
    exact ⟨_, hexec, s.store_registerOnly Slot.syncpointB _⟩

/-! ### Tests -/

/-- A test makes the unit IDLE where its counter has reached the threshold, and leaves it as it is
otherwise (R216). -/
theorem State.test_active (s : State) : s.test.active =
    if s.active.waitThreshold.toNat ≤ (s.syncpts.read s.active.waitIndex).toNat then
      s.active.withFsm .idle
    else s.active := by
  rcases s.test_cases with ⟨hreached, e⟩ | ⟨hshort, e⟩ <;> rw [e]
  · rw [if_pos ((thresholdReached_iff _ _).mp hreached)]
    rfl
  · rw [← Bool.not_eq_true, thresholdReached_iff] at hshort
    rw [if_neg hshort]
    rfl

/-- The turn of a unit that waits for a counter is one test (R216). -/
theorem step_of_syncptWait {s : State} {u : ChannelUnit} (hmoves : Moves s u)
    (hfsm : u.fsm = .syncptWait) (hquiet : ∀ w ∈ s.inFlight, w.chan ≠ u.chan) :
    ∃ t, step s = .next t ∧
      WaitStep s u (.syncptRead u.waitIndex (s.syncpts.read u.waitIndex)) t ∧
      t.active = if u.waitThreshold.toNat ≤ (s.syncpts.read u.waitIndex).toNat then
        u.withFsm .idle
      else u := by
  obtain ⟨v, hv, e⟩ := step_of_moves hmoves
  have htest := unitStep_of_syncptWait
    (State.awaitsMemory_eq_false.mpr (by rwa [hv.active, hv.inFlight])) (by rwa [hv.active])
  have hwait := hv.test_waitStep
  have hactive := v.test_active
  rw [hv.active, hv.syncpts] at hwait hactive
  exact ⟨v.test, e.trans htest, hwait, hactive⟩

/-- Settles O36: the step is a test, which compares the counter read with the threshold. -/
theorem testEndsWaitExactlyWhenReached : Obligations.TestEndsWaitExactlyWhenReached := by
  intro s u hmoves hfsm hquiet i
  obtain ⟨t, hstep, hwait, hactive⟩ := step_of_syncptWait hmoves hfsm hquiet
  refine ⟨t, hstep, hwait, fun hreached => ?_, fun hshort => ?_⟩
  · exact congrArg (·.fsm) (hactive.trans (if_pos hreached))
  · exact (congrArg (·.fsm) (hactive.trans (if_neg (Nat.not_le.mpr hshort)))).trans hfsm

/-- Settles O55: the increment leaves the waiting unit and the inputs alone, so the next step is its
test, which reads the counter one higher. -/
theorem incrementEndsReachedWaitElsewhere : Obligations.IncrementEndsReachedWaitElsewhere := by
  intro s sw c w later h hexists hw hfsm hindex hreached hi
  have hquiet := h.quiet_of_not_idle (List.mem_cons_of_mem _ hw) (by rw [hfsm]; decide)
  obtain ⟨-, t, hexec, -, -, hcounter, -, -, ⟨-, hflight⟩, -, hsurroundings⟩ :=
    syncptIncrAddsOne sw c s hexists
  obtain ⟨hchan, -, hparked, -, hinputs⟩ := hsurroundings
  have hchans : (t.units.map (·.chan)).Nodup := by
    rw [State.units, List.map_cons, hchan, hparked]
    exact h.channels
  have hmoves : Moves t w := moves_of_turn_parked hchans (hparked ▸ hw) (hinputs.trans hi)
  obtain ⟨r, hstep, -, hactive⟩ := step_of_syncptWait hmoves hfsm (hflight ▸ hquiet)
  have hends : w.waitThreshold.toNat ≤ (t.syncpts.read w.waitIndex).toNat := by
    rw [show w.waitIndex = c.index from hindex, hcounter]
    exact hreached
  exact ⟨t, r, hexec, hstep, hactive.trans (if_pos hends)⟩

end Sys2Proof.Machine


/-! SUPPORT. The proof of the obligation about WFI, CRC_CHECK and YIELD
(spec/45_wfi_crc_yield.md). -/

namespace Sys2Proof

/-! ### The arguments as numbers -/

/-- A word of one field and the pad above it, as a number (R34, R36). -/
theorem place_zero_or_place_toNat {n k w : Nat} (low : BitVec k) (pad : BitVec n) (h : k + n ≤ w) :
    (place w 0 low ||| place w k pad).toNat = pad.toNat * 2 ^ k + low.toNat := by
  rw [BitVec.or_comm, place_or_place_toNat pad low h (by omega), Nat.pow_zero, Nat.mul_one]

/-- R34: the scope in bit 0, the pad above it. -/
theorem wfiWord_toNat (scope : WfiScope) (pad : BitVec 31) :
    (wfiWord scope pad).toNat = pad.toNat * 2 + scope.toBits.toNat :=
  place_zero_or_place_toNat scope.toBits pad (by decide)

/-- R36: the granularity in bits 1:0, the pad above it. -/
theorem yieldWord_toNat (op : YieldOp) (pad : BitVec 30) :
    (yieldWord op pad).toNat = pad.toNat * 4 + op.toBits.toNat :=
  place_zero_or_place_toNat op.toBits pad (by decide)

namespace Machine

/-! ### The requests -/

/-- Settles O37: each method is the store, and the one request after it; the request is made from
the field below the pad, or from the whole argument where there is no pad (R231). -/
theorem wfiCrcYieldForwardRequests : Obligations.WfiCrcYieldForwardRequests := by
  refine ⟨fun scope pad s => ?wfi, fun crc s => ?crcCheck, fun op pad s => ?yield⟩
  case wfi =>
    refine ⟨(wfiWord_toNat scope pad).trans ?_, decode_methodWord_argument Slot.wfi rfl rfl, _, rfl,
      (s.store_registerOnly Slot.wfi (wfiWord scope pad)).emit (.waitForIdle scope)⟩
    cases scope <;> rfl
  case crcCheck =>
    exact ⟨decode_methodWord_argument (i := .crcCheck crc) Slot.crcCheck rfl rfl, _, rfl,
      (s.store_registerOnly Slot.crcCheck crc).emit (.crcCheck crc)⟩
  case yield =>
    refine ⟨(yieldWord_toNat op pad).trans ?_, decode_methodWord_argument Slot.yield rfl rfl, _, rfl,
      (s.store_registerOnly Slot.yield (yieldWord op pad)).emit (.yield op)⟩
    cases op <;> rfl

end Machine

end Sys2Proof

/-! SUPPORT. The proofs of the obligations about faults, Cancel and inputs that name nothing
(spec/60_exceptions.md). -/

namespace Sys2Proof.Machine

/-! ### Inputs that name nothing -/

/-- The owner's step stops where no unit has the channel number. -/
theorem ownerStep_of_missing {s : State} {c : Nat} (f : ChannelUnit → ChannelUnit)
    (done : State → State) (h : ∀ u ∈ s.units, u.chan ≠ c) :
    ownerStep s c f done = .fault (.noSuchChannel c) :=
  if_neg fun hc =>
    have ⟨u, hu, hchan⟩ := (s.hasChannel_iff c).mp hc
    h u hu hchan

/-- The turn can be given to no unit where none has the channel number. -/
theorem State.giveTurn_of_missing {s : State} {c : Nat} (h : ∀ u ∈ s.units, u.chan ≠ c) :
    s.giveTurn c = none := by
  cases hg : s.giveTurn c with
  | none => rfl
  | some t =>
    obtain ⟨u, -, -, -, hfind⟩ := State.giveTurn_some hg
    exact absurd (by simpa using List.find?_some hfind) (h u (List.mem_of_find?_eq_some hfind))

/-- Settles O44: each input is checked against the state before it is performed. -/
theorem inputsNamingNothingStop : Obligations.InputsNamingNothingStop := by
  intro s later
  refine ⟨fun c hmissing a ha hi => ?_, fun i hmissing hi => ?_, fun k hmissing hi => ?_⟩
  · rw [step_of_input hi]
    rcases ha with rfl | ⟨m, rfl⟩ | rfl | rfl | rfl
    case inl =>
      rw [performInput, State.giveTurn_of_missing (s := { s with inputs := later }) hmissing]
    all_goals
      rw [performInput, ownerStep_of_missing (s := { s with inputs := later }) _ _ hmissing]
  · exact (step_of_input hi).trans
      (if_neg fun hexists => absurd (of_decide_eq_true hexists) (Nat.not_lt.mpr hmissing))
  · exact (step_of_input hi).trans (if_neg (Nat.not_lt.mpr hmissing))

/-! ### Cancel -/

/-- Settles O41: Cancel changes the control state of the units of its channel, and of them only
those that are not FATAL. -/
theorem cancelEndsPendingWaitOnly : Obligations.CancelEndsPendingWaitOnly := by
  intro s c later hi hc
  refine ⟨_, (step_of_input hi).trans
    (ownerStep_of_mem ChannelUnit.cancel (fun t => t.record c .cancel) hc), ?_, ⟨fun _ => rfl, rfl⟩,
    fun _ => rfl, rfl, rfl, rfl, rfl⟩
  exact State.onChannel_onChannelOnly { s with inputs := later } c fun u =>
    ⟨u.cancel_raw, u.cancel_chan, u.cancel_port, fun hfatal => u.cancel_fsm.trans (if_pos hfatal),
      fun hfatal => u.cancel_fsm.trans (if_neg hfatal)⟩

/-! ### The fault records of a method -/

/-- Between `s` and `t` events were appended whose fault records are `fs`, in this order (R255). -/
def RecordsFaults (s t : State) (fs : List (FaultKind × MethodIndex × Word)) : Prop :=
  ∃ added, t.events = s.events ++ added ∧ faultRecords added = fs

theorem RecordsFaults.of_events_eq {s t : State} (h : t.events = s.events) : RecordsFaults s t [] :=
  ⟨[], by rw [h, List.append_nil], rfl⟩

theorem RecordsFaults.trans {s t r : State} {fs gs : List (FaultKind × MethodIndex × Word)}
    (h : RecordsFaults s t fs) (h' : RecordsFaults t r gs) : RecordsFaults s r (fs ++ gs) := by
  obtain ⟨added, hevents, rfl⟩ := h
  obtain ⟨added', hevents', rfl⟩ := h'
  exact ⟨added ++ added', by rw [hevents', hevents, List.append_assoc], List.filterMap_append⟩

theorem State.raiseFault_recordsFaults (s : State) (k : FaultKind) (i : MethodIndex) (arg : Word) :
    RecordsFaults s (s.raiseFault k i arg) [(k, i, arg)] :=
  ⟨[_], rfl, rfl⟩

/-- After the store of its control word, a release records the fault of R166 or none. -/
theorem State.storeControl_release_recordsFaults (s : State) (op : BitVec 5) (red : BitVec 4)
    (arg : Word) (c : SemControl) : RecordsFaults s ((s.storeControl op red c).release arg c)
      (if misaligned c s.semAddress then [(.unsupportedOperation, 7, arg)] else []) := by
  rw [← semAddress_storeControl s op red c]
  rcases (s.storeControl op red c).release_cases arg c with
    ⟨hm, e⟩ | ⟨hm, -, e⟩ | ⟨hm, -, e⟩ <;> rw [e, hm]
  · exact State.raiseFault_recordsFaults (s.storeControl _ _ c) _ _ _
  · exact ⟨[_], rfl, rfl⟩
  · exact ⟨[_], rfl, rfl⟩

/-- A reduction method records the fault of R166 or none. -/
theorem State.reductionMethod_recordsFaults (s : State) (op : ReductionOp) (c : SemControl) :
    RecordsFaults s (s.reductionMethod op c)
      (if misaligned c s.semAddress then
        [(.unsupportedOperation, 7, semaphoreDWord opReduction op.toBits c)]
      else []) := by
  rw [State.reductionMethod, ← semAddress_storeControl s opReduction op.toBits c]
  rcases (s.storeControl opReduction op.toBits c).reduction_cases op
    (semaphoreDWord opReduction op.toBits c) c with ⟨hm, e⟩ | ⟨hm, -, e⟩ | ⟨hm, -, e⟩ <;> rw [e, hm]
  · exact State.raiseFault_recordsFaults (s.storeControl _ _ c) _ _ _
  · exact ⟨[_], rfl, rfl⟩
  · exact ⟨[_, _], List.append_assoc _ _ _, rfl⟩

/-- The index check records the fault of R212, or what its action records. -/
theorem State.checkSyncpt_recordsFaults {s action : State} (i : SyncptIndex) (arg : Word)
    (h : RecordsFaults s action []) : RecordsFaults s (s.checkSyncpt i arg action)
      (if s.params.numSyncpt ≤ i.toNat then [(.unsupportedOperation, 29, arg)] else []) := by
  rcases s.checkSyncpt_cases action i arg with ⟨hi, e⟩ | ⟨hi, e⟩ <;> rw [e]
  · rwa [if_neg (Nat.not_le.mpr hi)]
  · rw [if_pos hi]
    exact s.raiseFault_recordsFaults _ _ _

/-! ### The checks of R253 by slot -/

theorem expectedFaults_of_outOfRange (p : Params) (u : ChannelUnit) {index : MethodIndex}
    (arg : Word) (h : 64 ≤ index.toNat) :
    expectedFaults p u index arg = [(.outOfRangeMethod, index, arg)] :=
  if_pos h

/-- Slots 1, 7 and 29 are the only ones with a check (R253). -/
theorem expectedFaults_of_uncheckedSlot (p : Params) (u : ChannelUnit) {k : SlotIndex} (arg : Word)
    (h : k ∉ [Slot.illegal, Slot.semaphoreD, Slot.syncpointB]) :
    expectedFaults p u (slotMethodIndex k) arg = [] := by
  have hne : ∀ k : SlotIndex, k ∉ [Slot.illegal, Slot.semaphoreD, Slot.syncpointB] →
      ¬ 64 ≤ (slotMethodIndex k).toNat ∧ slotMethodIndex k ≠ 1 ∧ slotMethodIndex k ≠ 7 ∧
        slotMethodIndex k ≠ 29 := by decide
  obtain ⟨hrange, h1, h7, h29⟩ := hne k h
  simp only [expectedFaults, hrange, h1, h7, h29, false_and, if_false]

/-- Slot 7: the check of a reserved control word comes before the check of the alignment (R253). -/
theorem expectedFaults_semaphoreD (p : Params) (s : State) (op : BitVec 5) (red : BitVec 4)
    (c : SemControl) :
    expectedFaults p s.active (slotMethodIndex Slot.semaphoreD) (semaphoreDWord op red c) =
      if controlReserved op red = true ∨
        (op.toNat ∈ [2, 16] ∧ misaligned c s.semAddress = true) then
        [(.unsupportedOperation, 7, semaphoreDWord op red c)]
      else [] := by
  have hrange : ¬ 64 ≤ (7 : MethodIndex).toNat := by decide
  have hsize : c.releaseSize.toBits = 0 ↔ c.releaseSize = .sixteenBytes := by
    cases c.releaseSize <;> decide
  change expectedFaults p s.active 7 _ = _
  simp only [expectedFaults, hrange, semaphoreDWord_operation, semaphoreDWord_reduction,
    semaphoreDWord_releaseSize, hsize, ← controlReserved_iff, misaligned_iff, State.slot_eq_peek]
  by_cases hreserved : controlReserved op red = true <;> simp [hreserved]

/-- Slot 29: the index check of R212 is the only one (R253). -/
theorem expectedFaults_syncpointB (p : Params) (u : ChannelUnit) (op : BitVec 1) (sw : Switch)
    (c : SyncptControl) :
    expectedFaults p u (slotMethodIndex Slot.syncpointB) (syncpointBWord op sw c) =
      if p.numSyncpt ≤ c.index.toNat then
        [(.unsupportedOperation, 29, syncpointBWord op sw c)]
      else [] := by
  have hindex : expectedFaults p u (slotMethodIndex Slot.syncpointB) (syncpointBWord op sw c) =
      if (29 : MethodIndex) = 29 ∧
          p.numSyncpt ≤ ((syncpointBWord op sw c).extractLsb' 8 12).toNat then
        [(.unsupportedOperation, 29, syncpointBWord op sw c)]
      else [] := rfl
  rw [hindex, syncpointBWord_index]
  simp only [true_and]

/-- A defined operation with a defined reduction passes the check of R95. -/
theorem controlReserved_of_defined {op : BitVec 5} (red : ReductionOp)
    (h : operationDefined op = true) : controlReserved op red.toBits = false := by
  have hred : reductionDefined red.toBits = true := by cases red <;> rfl
  simp [controlReserved, h, hred]

/-- An acquire passes both checks of slot 7, whatever the address (R253). -/
theorem expectedFaults_acquire (p : Params) (s : State) {op : BitVec 5} (red : ReductionOp)
    (c : SemControl) (h : op ∈ [opAcquire, opAcqGeq, opAcqAnd]) :
    expectedFaults p s.active (slotMethodIndex Slot.semaphoreD) (semaphoreDWord op red.toBits c) =
      [] := by
  have hop : ∀ op ∈ [opAcquire, opAcqGeq, opAcqAnd],
      operationDefined op = true ∧ op.toNat ∉ [2, 16] := by decide
  obtain ⟨hdefined, haccess⟩ := hop op h
  simp only [expectedFaults_semaphoreD, controlReserved_of_defined red hdefined, haccess,
    Bool.false_eq_true, false_and, or_self, if_false]

/-- A release and a reduction are checked for alignment alone (R253). -/
theorem expectedFaults_access (p : Params) (s : State) {op : BitVec 5} (red : ReductionOp)
    (c : SemControl) (h : op ∈ [opRelease, opReduction]) :
    expectedFaults p s.active (slotMethodIndex Slot.semaphoreD) (semaphoreDWord op red.toBits c) =
      if misaligned c s.semAddress = true then
        [(.unsupportedOperation, 7, semaphoreDWord op red.toBits c)]
      else [] := by
  have hop : ∀ op ∈ [opRelease, opReduction],
      operationDefined op = true ∧ op.toNat ∈ [2, 16] := by decide
  obtain ⟨hdefined, haccess⟩ := hop op h
  simp only [expectedFaults_semaphoreD, controlReserved_of_defined red hdefined, haccess,
    Bool.false_eq_true, true_and, false_or]

/-! ### One fault per method -/

/-- A method of the map records exactly the fault that the checks of R253 ask for, or none. -/
theorem exec_recordsFaults {i : Instr} {s t : State} (hw : i.wellFormed = true)
    (h : exec i s = .next t) :
    RecordsFaults s t (expectedFaults s.params s.active i.index i.argument) := by
  cases i with
  | oor index arg =>
    cases h
    rw [Instr.index, expectedFaults_of_outOfRange _ _ _ (of_decide_eq_true hw)]
    exact s.raiseFault_recordsFaults _ _ _
  | illegal arg =>
    cases h
    exact State.raiseFault_recordsFaults (s.store _ _) _ _ _
  | unimpl k arg =>
    cases h
    have hunchecked : ∀ k, slotUnimplemented k = true →
        k ∉ [Slot.illegal, Slot.semaphoreD, Slot.syncpointB] := by decide
    rw [Instr.index, expectedFaults_of_uncheckedSlot _ _ _ (hunchecked k hw)]
    exact .of_events_eq rfl
  | setObject | nop | semaphoreA | semaphoreB | semaphoreC | memOpC | setReference | syncpointA =>
    cases h
    rw [Instr.index, expectedFaults_of_uncheckedSlot _ _ _ (by decide)]
    exact .of_events_eq rfl
  | nonStallInterrupt | fbFlush | memOpD | wfi | crcCheck | yield =>
    cases h
    rw [Instr.index, expectedFaults_of_uncheckedSlot _ _ _ (by decide)]
    exact ⟨[_], rfl, rfl⟩
  | semAcquire red c | semAcqGeq red c | semAcqAnd red c =>
    cases h
    rw [Instr.index, Instr.argument, expectedFaults_acquire _ _ _ _ (by decide)]
    exact .of_events_eq rfl
  | semReserved op red c =>
    cases h
    rw [Instr.index, Instr.argument, expectedFaults_semaphoreD, if_pos (.inl hw)]
    exact State.raiseFault_recordsFaults (s.storeControl op red c) _ _ _
  | semRelease red c =>
    cases h
    rw [Instr.index, Instr.argument, expectedFaults_access _ _ _ _ (by decide)]
    exact s.storeControl_release_recordsFaults _ _ _ c
  | semRedMin c | semRedMax c | semRedXor c | semRedAnd c | semRedOr c | semRedAdd c | semRedInc c
  | semRedDec c =>
    cases h
    rw [Instr.index, Instr.argument, expectedFaults_access _ _ _ _ (by decide)]
    exact s.reductionMethod_recordsFaults _ c
  | syncptIncr sw c =>
    cases h
    rw [Instr.index, Instr.argument, expectedFaults_syncpointB]
    exact State.checkSyncpt_recordsFaults (s := s.store _ _) c.index _ ⟨[_], rfl, rfl⟩
  | syncptWait c =>
    cases h
    rw [Instr.index, Instr.argument, expectedFaults_syncpointB]
    exact State.checkSyncpt_recordsFaults (s := s.store _ _) c.index _ (.of_events_eq rfl)
  | syncptWaitNoswitch c =>
    cases h
    rw [Instr.index, Instr.argument, expectedFaults_syncpointB]
    refine State.checkSyncpt_recordsFaults (s := s.store _ _) c.index _ (.of_events_eq ?_)
    split <;> rfl

/-- Settles O45: the Write recorded at the acceptance is no fault record, and leaves the words that
the checks read as they were; the decoded method then records the fault of R253. -/
theorem oneFaultPerMethodInFixedOrder : Obligations.OneFaultPerMethodInFixedOrder := by
  refine ⟨fun s u m rest hmoves hready hport => ?_, rfl, rfl, rfl, fun k => by cases k <;> decide⟩
  obtain ⟨v, hv, e⟩ := step_of_ready hmoves hready hport
  obtain ⟨t, ht⟩ := exec_next (decode m) (v.accept m rest)
  obtain ⟨hwf, hindex, hargument⟩ := decode_denotes m
  have hmethod := exec_recordsFaults hwf ht
  rw [hindex, hargument, hv.accept_eq, hv.params] at hmethod
  have haccept : RecordsFaults s { v with
      active := { u with port := rest }
      events := s.events ++ [⟨u.chan, .write (Method.index m) (Method.argument m)⟩] } [] :=
    ⟨[_], rfl, rfl⟩
  obtain ⟨added, hevents, hfaults⟩ := haccept.trans hmethod
  exact ⟨t, added, e.trans ht, hevents, hfaults⟩

end Sys2Proof.Machine


/-! SUPPORT. The proofs of the obligations about Reset and about fairness
(spec/70_reset_and_hazards.md). -/

namespace Sys2Proof.Machine

/-! ### Reset -/

/-- Settles O40: Reset clears the units of its channel, whatever their control state, and records
itself. -/
theorem resetInputClearsOneUnit : Obligations.ResetInputClearsOneUnit := by
  intro s c later hi hc
  refine ⟨_, (step_of_input hi).trans
    (ownerStep_of_mem ChannelUnit.resetUnit (fun t => t.record c .reset) hc), ?_,
    ⟨fun _ => rfl, rfl⟩, fun _ => rfl, rfl, rfl, rfl, rfl⟩
  exact State.onChannel_onChannelOnly { s with inputs := later } c fun u =>
    ⟨u.resetUnit_peek, u.resetUnit_fsm, u.resetUnit_chan, u.resetUnit_port⟩

/-! ### The words of one channel in flight -/

/-- The words in flight that units of channel `c` issued, oldest first. -/
def State.wordsOf (s : State) (c : Nat) : List WordWrite :=
  s.inFlight.filter fun w => w.chan == c

theorem State.wordsOf_congr {s t : State} (h : t.inFlight = s.inFlight) (c : Nat) :
    t.wordsOf c = s.wordsOf c :=
  congrArg (List.filter _) h

/-- A word written is one word less of its channel. -/
theorem State.wordsOf_of_split {s t : State} {before after : List WordWrite} {w : WordWrite}
    (hs : s.inFlight = before ++ w :: after) (ht : t.inFlight = before ++ after) :
    (s.wordsOf w.chan).length = (t.wordsOf w.chan).length + 1 := by
  simp [State.wordsOf, hs, ht, Nat.add_assoc]

/-- An action of a unit issues words of its own channel only. -/
theorem ActionKept.wordsOf {s t : State} (h : ActionKept s t) {c : Nat} (hc : s.active.chan ≠ c) :
    t.wordsOf c = s.wordsOf c := by
  obtain ⟨ws, happend, hissued⟩ := h.inFlight
  have hnone : ws.filter (fun w => w.chan == c) = [] :=
    List.filter_eq_nil_iff.mpr fun w hw => by simpa [(hissued w hw).1] using hc
  rw [State.wordsOf, happend, List.filter_append, hnone, List.append_nil, State.wordsOf]

/-- A unit's own step writes and issues words of its own channel only. -/
theorem unitStep_wordsOf {s t : State} (h : unitStep s = .next t) {c : Nat}
    (hc : s.active.chan ≠ c) : t.wordsOf c = s.wordsOf c := by
  rcases unitStep_cases s with ⟨before, w, after, hs, hw, -, e⟩ |
    ⟨-, ⟨-, -, e⟩ | ⟨-, m, rest, -, e⟩ | ⟨-, e⟩ | ⟨-, e⟩ | ⟨-, e⟩⟩ <;> rw [e] at h
  case inl =>
    cases h
    have hother : (w.chan == c) = false := by simpa [hw] using hc
    simp [State.wordsOf, hs, hother]
  case inr.inr.inl => exact (exec_kept h).wordsOf hc
  case inr.inr.inr.inl =>
    cases h
    exact (poll_kept s).1.wordsOf hc
  case inr.inr.inr.inr.inl =>
    cases h
    exact (test_kept s).1.wordsOf hc
  all_goals
    cases h
    rfl

/-- The writing of a word in flight issues none. -/
theorem State.land_wordsOf_length_le (s : State) (k c : Nat) :
    ((s.land k).wordsOf c).length ≤ (s.wordsOf c).length := by
  unfold State.land
  cases s.inFlight[k]? with
  | none => exact le_rfl
  | some w => exact ((List.eraseIdx_sublist _ _).filter _).length_le

/-! ### One round of the units -/

/-- The units in the order in which they have waited; the one that has the turn moved last
(log 7). -/
def State.queue (s : State) : List ChannelUnit := s.parked ++ [s.active]

theorem State.queue_perm_units (s : State) : s.queue.Perm s.units :=
  List.perm_append_singleton _ _

/-- No step adds or removes a unit. -/
theorem step_units_length {s t : State} (h : step s = .next t) :
    t.units.length = s.units.length := by
  obtain ⟨-, hchans⟩ := parametersAndChannelsNeverChange s t h
  simpa using hchans.length_eq

/-- With no input left, the unit at the head of the queue moves and goes to its end. -/
theorem step_of_queue {s : State} {u : ChannelUnit} {others : List ChannelUnit}
    (hi : s.inputs = []) (hq : s.queue = u :: others) :
    Moves s u ∧ ∃ t, step s = .next t ∧ t.inputs = [] ∧ t.queue = others ++ [t.active] ∧
      ∀ c, u.chan ≠ c → t.wordsOf c = s.wordsOf c := by
  obtain ⟨w, waiting, t, hw, hmoves, hstep, hturn, hparked, -, hinputs⟩ := step_of_no_inputs hi
  obtain ⟨rfl, rfl⟩ := List.cons.inj (hw.symm.trans hq)
  exact ⟨hmoves, t, hstep, hinputs, by rw [State.queue, hparked],
    fun c hc => unitStep_wordsOf hturn hc⟩

/-- With no input left, a unit is at the head of the queue after as many steps as units stand before
it: by induction on those. If none of those has its channel number, the words that it issued are
still in flight then. -/
theorem run_to_head_of_queue {before after : List ChannelUnit} {u : ChannelUnit} {s : State}
    (hi : s.inputs = []) (hq : s.queue = before ++ u :: after) :
    ∃ t others, Host.Core.run Sys2Proof.core before.length s = .next t ∧ t.inputs = [] ∧
      t.queue = u :: others ∧ t.units.length = s.units.length ∧
      ((∀ x ∈ before, x.chan ≠ u.chan) → t.wordsOf u.chan = s.wordsOf u.chan) := by
  induction before generalizing s after with
  | nil => exact ⟨s, after, rfl, hi, hq, rfl, fun _ => rfl⟩
  | cons x before ih =>
    obtain ⟨-, t, hstep, hinputs, hqueue, hwords⟩ := step_of_queue hi hq
    obtain ⟨r, others, hrun, hinputs', hqueue', hlen, hwords'⟩ :=
      ih (after := after ++ [t.active]) hinputs (by simp [hqueue])
    refine ⟨r, others, (run_succ hstep).trans hrun, hinputs', hqueue',
      hlen.trans (step_units_length hstep), fun hne => ?_⟩
    rw [List.forall_mem_cons] at hne
    exact (hwords' hne.2).trans (hwords u.chan hne.1)

/-- Settles O57: the unit at place `k` of the queue is at its head after `k` steps. -/
theorem roundGivesEveryUnitItsTurn : Obligations.RoundGivesEveryUnitItsTurn := by
  intro s k hi hk
  rw [← s.queue_perm_units.length_eq] at hk
  have hsplit : s.queue = s.queue.take k ++ s.queue[k] :: s.queue.drop (k + 1) := by simp
  obtain ⟨t, others, hrun, hinputs, hqueue, -⟩ := run_to_head_of_queue hi hsplit
  rw [List.length_take_of_le hk.le] at hrun
  obtain ⟨hmoves, -⟩ := step_of_queue hinputs hqueue
  refine ⟨t, s.queue[k], hrun, hinputs, hmoves, ?_⟩
  change (s.queue.map (·.chan))[k]? = _
  rw [List.getElem?_map, List.getElem?_eq_getElem hk, Option.map_some]

/-- A run of one more step that answers a state, taken apart at its first step. -/
theorem run_succ_next {k : Nat} {s t : State}
    (h : Host.Core.run Sys2Proof.core (k + 1) s = .next t) :
    ∃ r, step s = .next r ∧ Host.Core.run Sys2Proof.core k r = .next t := by
  cases hstep : step s with
  | next r => exact ⟨r, rfl, (run_succ hstep).symm.trans h⟩
  | fault r | refused r =>
    have hcore : Sys2Proof.core.step s = _ := hstep
    simp [Host.Core.run, hcore] at h

/-- A run keeps the invariant. -/
theorem run_inv {k : Nat} {s t : State} (h : Inv s)
    (hrun : Host.Core.run Sys2Proof.core k s = .next t) : Inv t := by
  induction k generalizing s with
  | zero =>
    cases hrun
    exact h
  | succ k ih =>
    obtain ⟨r, hstep, hrest⟩ := run_succ_next hrun
    exact ih (stepKeepsInvariant s r h hstep) hrest

/-- A run that goes on from where an earlier one ended. -/
theorem run_add {k : Nat} {s t : State} (j : Nat)
    (h : Host.Core.run Sys2Proof.core k s = .next t) :
    Host.Core.run Sys2Proof.core (k + j) s = Host.Core.run Sys2Proof.core j t := by
  induction k generalizing s with
  | zero =>
    cases h
    rw [Nat.zero_add]
  | succ k ih =>
    obtain ⟨r, hstep, hrest⟩ := run_succ_next h
    rw [Nat.succ_add, run_succ hstep, ih hrest]

/-- With no input left, in a state that meets the invariant, a unit moves within one round, and is
found then as it is now, with the words that it issued still in flight. -/
theorem run_to_turn {s : State} {u : ChannelUnit} (h : Inv s) (hi : s.inputs = [])
    (hu : u ∈ s.units) :
    ∃ k t, k < s.units.length ∧ Host.Core.run Sys2Proof.core k s = .next t ∧ Inv t ∧
      t.inputs = [] ∧ Moves t u ∧ t.units.length = s.units.length ∧
      t.wordsOf u.chan = s.wordsOf u.chan := by
  obtain ⟨before, after, hq⟩ := List.append_of_mem (s.queue_perm_units.mem_iff.mpr hu)
  have hlt : before.length < s.units.length := by
    rw [← s.queue_perm_units.length_eq, hq, List.length_append, List.length_cons]
    omega
  have hne : ∀ x ∈ before, x.chan ≠ u.chan := by
    have hnodup : (s.queue.map (·.chan)).Nodup :=
      (s.queue_perm_units.map _).nodup_iff.mpr h.channels
    rw [hq, List.map_append, List.map_cons, List.nodup_append] at hnodup
    obtain ⟨-, -, hdisjoint⟩ := hnodup
    exact fun x hx => hdisjoint _ (List.mem_map_of_mem hx) _ List.mem_cons_self
  obtain ⟨t, others, hrun, hinputs, hqueue, hlen, hwords⟩ := run_to_head_of_queue hi hq
  obtain ⟨hmoves, -⟩ := step_of_queue hinputs hqueue
  exact ⟨before.length, t, hlt, hrun, run_inv h hrun, hinputs, hmoves, hlen, hwords hne⟩

/-! ### The end of a wait -/

theorem ChannelUnit.blocked_iff (u : ChannelUnit) :
    u.blocked = true ↔ u.fsm = .semWait ∨ u.fsm = .syncptWait := by
  simp [ChannelUnit.blocked]

/-- The unit that takes the turn is one of the system. -/
theorem TurnTaken.mem_units {s v : State} {u : ChannelUnit} (hv : TurnTaken s u v) : u ∈ s.units :=
  hv.units.mem_iff.mp List.mem_cons_self

/-- The step in which a unit moves whose wait is satisfied ends the wait and changes nothing else of
the unit. -/
theorem step_of_satisfied_wait {s : State} {u : ChannelUnit} (h : Inv s) (hmoves : Moves s u)
    (hblocked : u.blocked = true) (hsat : WaitSatisfied s u) :
    ∃ t, step s = .next t ∧ t.active = { u with fsm := .idle } := by
  obtain ⟨v, hv, e⟩ := step_of_moves hmoves
  obtain ⟨t, ht, -⟩ := unitStep_kept v
  have hidle : u.fsm ≠ .idle := fun hf => by simp [u.blocked_iff, hf] at hblocked
  have hquiet := h.quiet_of_not_idle hv.mem_units hidle
  obtain ⟨rfl, -, hmem, hflight, hbank, -, hparams, -⟩ := hv
  rw [← hflight] at hquiet
  rw [WaitSatisfied, ← hmem, ← hbank, ← hparams] at hsat
  exact ⟨t, e.trans ht,
    unitStep_of_satisfied (State.awaitsMemory_eq_false.mpr hquiet) hblocked hsat ht⟩

/-- Settles O58: the unit's turn comes within the round, and its condition is true then. -/
theorem trueConditionEndsWaitWithinOneRound : Obligations.TrueConditionEndsWaitWithinOneRound := by
  intro s u h hi hu hblocked hsat
  obtain ⟨k, t, hk, hrun, hinv, -, hmoves, -⟩ := run_to_turn h hi hu
  obtain ⟨r, hstep, hactive⟩ := step_of_satisfied_wait hinv hmoves hblocked (hsat k t hk.le hrun)
  exact ⟨k + 1, r, hk, run_succ_last hrun hstep, hactive ▸ List.mem_cons_self⟩

/-! ### The acceptance of a method -/

/-- Between `s` and `t` the Write of the method `m` of channel `c` was recorded, before any other
event (R47, log 11). -/
def WriteRecorded (s t : State) (c : Nat) (m : Method) : Prop :=
  ∃ added, t.events = s.events ++ ⟨c, .write (m.extractLsb' 32 12) (m.extractLsb' 0 32)⟩ :: added

/-- The turn of an IDLE unit with a method presented accepts the method or, while words that it
issued are in flight, writes one of them and leaves the unit as it is (R57, R120). -/
theorem step_of_presented {s : State} {u : ChannelUnit} {m : Method} {rest : List Method}
    (hmoves : Moves s u) (hidle : u.fsm = .idle) (hport : u.port = m :: rest) :
    (∃ t, step s = .next t ∧ t.active.chan = u.chan ∧ t.active.port = rest ∧
      WriteRecorded s t u.chan m) ∨
    (∃ t, step s = .next t ∧ t.active = u ∧ t.inputs = s.inputs.tail ∧
      (s.wordsOf u.chan).length = (t.wordsOf u.chan).length + 1) := by
  rcases findIdx?_split (fun w : WordWrite => w.chan == u.chan) s.inFlight with
    ⟨before, w, after, hs, hw, hbefore, -⟩ | ⟨hquiet, -⟩
  · obtain ⟨-, hturn⟩ := wordsInFlightAreWrittenOneByOne s before after w hs
    have hchan : w.chan = u.chan := by simpa using hw
    obtain ⟨t, hstep, -, hflight, hkept, hactive⟩ := hturn u hmoves hchan (by simpa using hbefore)
    exact .inr ⟨t, hstep, hactive, hkept.inputs, hchan ▸ State.wordsOf_of_split hs hflight⟩
  · have hready : s.methodReady u = true :=
      (s.methodReady_iff u).mpr ⟨hidle, by simpa using hquiet⟩
    obtain ⟨v, hv, e⟩ := step_of_ready hmoves hready hport
    obtain ⟨t, ht⟩ := exec_next (decode m) (v.accept m rest)
    obtain ⟨⟨hchan, hrest, -⟩, ⟨added, hevents⟩, -⟩ := exec_kept ht
    refine .inl ⟨t, e.trans ht, hchan.trans (congrArg (·.chan) hv.active), hrest, added, ?_⟩
    rw [← hevents, hv.accept_eq, List.append_assoc]
    rfl

/-- With no input left, an IDLE unit accepts its method within one round, and one more for each word
in flight that it issued: by induction on the number of those words. -/
theorem run_to_acceptance {s : State} {u : ChannelUnit} {m : Method} {rest : List Method}
    (h : Inv s) (hi : s.inputs = []) (hu : u ∈ s.units) (hidle : u.fsm = .idle)
    (hport : u.port = m :: rest) :
    ∃ k t t', k < ((s.wordsOf u.chan).length + 1) * s.units.length ∧
      Host.Core.run Sys2Proof.core k s = .next t ∧ step t = .next t' ∧
      t'.active.chan = u.chan ∧ t'.active.port = rest ∧ WriteRecorded t t' u.chan m := by
  induction hn : (s.wordsOf u.chan).length using Nat.strong_induction_on generalizing s with
  | _ n ih =>
    obtain ⟨k, t, hk, hrun, hinv, hinputs, hmoves, hlen, hwords⟩ := run_to_turn h hi hu
    rcases step_of_presented hmoves hidle hport with
      ⟨r, hstep, haccepted⟩ | ⟨r, hstep, hactive, hinputs', hword⟩
    · exact ⟨k, t, r, hk.trans_le (Nat.le_mul_of_pos_left _ n.succ_pos), hrun, hstep, haccepted⟩
    · rw [hinputs] at hinputs'
      rw [hwords, hn] at hword
      subst hword
      obtain ⟨k', q, q', hk', hrun', hlast⟩ := ih _ (Nat.lt_succ_self _)
        (stepKeepsInvariant t r hinv hstep) hinputs' (hactive ▸ List.mem_cons_self) rfl
      rw [step_units_length hstep, hlen] at hk'
      refine ⟨k + 1 + k', q, q', ?_, (run_add k' (run_succ_last hrun hstep)).trans hrun', hlast⟩
      rw [Nat.succ_mul]
      omega

/-- Settles O59: each turn of the unit writes one of its words, until none is in flight. -/
theorem presentedMethodAcceptedWithinRounds : Obligations.PresentedMethodAcceptedWithinRounds := by
  intro s u m rest h hi hu hidle hport
  obtain ⟨k, t, t', hk, hrun, hstep, hchan, hrest, added, hevents⟩ :=
    run_to_acceptance h hi hu hidle hport
  exact ⟨k, t, t', added, hk, hrun, hstep, hchan, hrest, hevents⟩

/-! ### Weakly fair runs -/

/-- The invariant does not speak of the inputs. -/
theorem Inv.withInputs {s : State} (h : Inv s) (inputs : List Input) :
    Inv { s with inputs := inputs } :=
  h.of_units_perm (.refl _) rfl h.memory h.counters fun _ => id

/-- Every state of an endless run that begins with the invariant meets it. -/
theorem IsRun.inv {σ : Nat → State} {choice : Nat → Input} (hrun : IsRun σ choice)
    (h : Inv (σ 0)) : ∀ n, Inv (σ n)
  | 0 => h
  | n + 1 => stepKeepsInvariant _ _ ((hrun.inv h n).withInputs [choice n]) (hrun n)

/-- Some IDLE unit of channel `c` has the method `m` on its port. -/
def MethodPresented (s : State) (c : Nat) (m : Method) : Prop :=
  ∃ u ∈ s.units, u.chan = c ∧ u.fsm = .idle ∧ [m] <+: u.port

/-- The unit that has the turn accepts the method presented to it, or writes one of its words in
flight and still has the method presented. -/
theorem MethodPresented.turn {s t : State} {u : ChannelUnit} {m : Method} (h : Inv s)
    (hpresented : MethodPresented s u.chan m) (hmoves : Moves s u) (hstep : step s = .next t) :
    WriteRecorded s t u.chan m ∨
      (MethodPresented t u.chan m ∧
        (s.wordsOf u.chan).length = (t.wordsOf u.chan).length + 1) := by
  obtain ⟨w, hw, hchan, hidle, rest, hport⟩ := hpresented
  obtain ⟨v, hv, -⟩ := step_of_moves hmoves
  obtain rfl := List.inj_on_of_nodup_map h.channels hw hv.mem_units hchan
  rcases step_of_presented hmoves hidle hport.symm with
    ⟨r, hr, -, -, hrecorded⟩ | ⟨r, hr, hactive, -, hword⟩ <;>
    obtain rfl : r = t := Host.Outcome.next.inj (hr.symm.trans hstep)
  · exact .inl hrecorded
  · exact .inr ⟨⟨w, hactive ▸ List.mem_cons_self, rfl, hidle, rest, hport⟩, hword⟩

/-- An action of the owner that is not a withdrawal from channel `c` leaves the method presented. -/
theorem OwnerAction.methodPresented {b : Bool} {c d : Nat} {m : Method}
    {f : ChannelUnit → ChannelUnit} {s t : State} (hf : OwnerAction b f)
    (hport : d = c → ∀ u, u.port <+: (f u).port)
    (hunits : t.units = s.units.map fun u => u.changedIf d f) (h : MethodPresented s c m) :
    MethodPresented t c m := by
  obtain ⟨u, hu, rfl, hidle, hm⟩ := h
  refine ⟨u.changedIf d f, hunits ▸ List.mem_map_of_mem hu, u.changedIf_chan d f hf.chan, ?_⟩
  unfold ChannelUnit.changedIf
  split
  · next hd => exact ⟨(hf.fsm u).elim (·.trans hidle) id, hm.trans (hport hd.symm u)⟩
  · exact ⟨hidle, hm⟩

/-- A step that is no withdrawal from channel `c` accepts the method, or leaves it presented and
issues no word of that channel. -/
theorem MethodPresented.step {s t : State} {c : Nat} {m : Method} (h : Inv s)
    (hpresented : MethodPresented s c m) (hkept : ∀ later, s.inputs ≠ .withdraw c :: later)
    (hstep : step s = .next t) :
    WriteRecorded s t c m ∨
      (MethodPresented t c m ∧ (t.wordsOf c).length ≤ (s.wordsOf c).length) := by
  rcases step_cases hstep with ⟨u, v, hmoves, hv, ht⟩ |
    ⟨b, d, f, later, hf, -, hport, hunits, -, hflight, -⟩ |
    ⟨k, later, -, -, rfl⟩ | ⟨a, x, later, -, rfl⟩ | ⟨n, e, x, later, -, rfl⟩ | ⟨i, later, -, -, rfl⟩
  case inl =>
    by_cases hchan : u.chan = c
    · subst hchan
      exact (hpresented.turn h hmoves hstep).imp_right fun ⟨hstay, hword⟩ => ⟨hstay, by omega⟩
    · obtain ⟨w, hw, rfl, hidle, hmethod⟩ := hpresented
      have hmem := hv.mem_units_of_ne ht hw fun e => hchan (congrArg _ e.symm)
      refine .inr ⟨⟨w, hmem, rfl, hidle, hmethod⟩, ?_⟩
      rw [unitStep_wordsOf ht (hv.active ▸ hchan), State.wordsOf_congr hv.inFlight]
  case inr.inl =>
    refine .inr ⟨hf.methodPresented (fun hd => ?_) hunits hpresented,
      (congrArg _ (State.wordsOf_congr hflight c)).le⟩
    subst hd
    exact hport.resolve_right (hkept later)
  case inr.inr.inl =>
    obtain ⟨-, hunits⟩ := State.land_params_units { s with inputs := later } k
    exact .inr ⟨by rwa [MethodPresented, hunits], State.land_wordsOf_length_le _ k c⟩
  all_goals exact .inr ⟨hpresented, le_rfl⟩

/-- In a weakly fair run a presented method that the owner does not withdraw is accepted: by strong
induction on the number of words in flight of its channel. Were it never accepted, it would stay
presented, so the unit would have the turn, which writes one of those words. -/
theorem WeaklyFair.write_recorded {σ : Nat → State} {choice : Nat → Input} (h : Inv (σ 0))
    (hrun : IsRun σ choice) (hfair : WeaklyFair σ choice) {c : Nat} {m : Method} {n : Nat}
    (hpresented : MethodPresented (σ n) c m) (hkept : ∀ k, n ≤ k → choice k ≠ .withdraw c) :
    ∃ k, n ≤ k ∧ WriteRecorded (σ k) (σ (k + 1)) c m := by
  induction hwords : ((σ n).wordsOf c).length using Nat.strong_induction_on generalizing n with
  | _ words ih =>
    by_contra hnever
    push Not at hnever
    have hstays : ∀ k, n ≤ k →
        MethodPresented (σ k) c m ∧ ((σ k).wordsOf c).length ≤ words := by
      intro k hk
      induction k, hk using Nat.le_induction with
      | base => exact ⟨hpresented, hwords.le⟩
      | succ k hk hprev =>
        obtain ⟨hstay, hle⟩ := hprev
        have hinv := (hrun.inv h k).withInputs [choice k]
        obtain ⟨hstay', hle'⟩ := (MethodPresented.step hinv hstay
          (fun later e => hkept k hk (List.cons.inj e).1) (hrun k)).resolve_left (hnever k hk)
        exact ⟨hstay', hle'.trans hle⟩
    obtain ⟨k, hk, hturn⟩ := hfair c n fun k hk => by
      obtain ⟨⟨u, hu, hchan, hidle, rest, hport⟩, -⟩ := hstays k hk
      exact ⟨u, hu, hchan, .inr (.inr (.inr ⟨hidle, by simp [← hport]⟩))⟩
    obtain ⟨⟨u, hu, rfl, hmethod⟩, hle⟩ := hstays k hk
    have hinv := (hrun.inv h k).withInputs [choice k]
    obtain ⟨hstay', hword⟩ := (MethodPresented.turn hinv ⟨u, hu, rfl, hmethod⟩
      (moves_of_turn hinv hu (congrArg (fun a => [a]) hturn)) (hrun k)).resolve_left (hnever k hk)
    have hfewer := Nat.lt_of_succ_le (hword.ge.trans hle)
    obtain ⟨j, hj, hrecorded⟩ := ih _ hfewer hstay' (fun j hj => hkept j (by omega)) rfl
    exact hnever j (by omega) hrecorded

/-- In a weakly fair run a wait whose condition stays true ends: were it to pend for ever, a poll or
a test would stay enabled, so the unit would have the turn, which ends the wait. -/
theorem WeaklyFair.wait_ends {σ : Nat → State} {choice : Nat → Input} (h : Inv (σ 0))
    (hrun : IsRun σ choice) (hfair : WeaklyFair σ choice) {c n : Nat}
    (hsat : ∀ k, n ≤ k → ∀ w ∈ (σ k).units, w.chan = c → WaitSatisfied (σ k) w) :
    ∃ k, n ≤ k ∧ ∀ w ∈ (σ k).units, w.chan = c → w.blocked = false := by
  by_contra hpends
  push Not at hpends
  obtain ⟨k, hk, hturn⟩ := hfair c n fun k hk => by
    obtain ⟨w, hw, hchan, hblocked⟩ := hpends k hk
    have hwaits := w.blocked_iff.mp (by simpa using hblocked)
    exact ⟨w, hw, hchan, .inr (hwaits.imp_right .inl)⟩
  obtain ⟨w, hw, rfl, hblocked⟩ := hpends k hk
  have hinv := (hrun.inv h k).withInputs [choice k]
  obtain ⟨t, hstep, hactive⟩ := step_of_satisfied_wait hinv
    (moves_of_turn hinv hw (congrArg (fun a => [a]) hturn)) (by simpa using hblocked)
    (hsat k hk w hw rfl)
  obtain rfl : t = σ (k + 1) := Host.Outcome.next.inj (hstep.symm.trans (hrun k))
  obtain ⟨x, hx, hchan, hblocked'⟩ := hpends (k + 1) (by omega)
  have hchan' : x.chan = (σ (k + 1)).active.chan := by rw [hactive, hchan]
  obtain rfl := List.inj_on_of_nodup_map (hrun.inv h (k + 1)).channels hx List.mem_cons_self hchan'
  simp [hactive, ChannelUnit.blocked_iff] at hblocked'

/-- Settles O60: the wait that has not ended, and the method not yet accepted, keep a step of their
unit enabled, so fairness gives that unit the turn. -/
theorem weaklyFairRunsEndWaitsAndAcceptMethods :
    Obligations.WeaklyFairRunsEndWaitsAndAcceptMethods := by
  intro σ choice h hrun hfair
  refine ⟨fun c n hsat => hfair.wait_ends h hrun hsat, fun n u m rest hu hidle hport hkept => ?_⟩
  obtain ⟨k, hk, added, hevents⟩ := hfair.write_recorded h hrun
    ⟨u, hu, rfl, hidle, rest, hport.symm⟩ hkept
  exact ⟨k, added, hk, hevents⟩

end Sys2Proof.Machine
